-- ==== Sys2Proof/Word.lean ====
section
/-! DEFINITION. The plain data types of the block: bits, bytes, and the enumerations that the spec names. Nothing here
computes: codes and bit fields are in Decode.lean, selection by role in Machine/Operands.lean. -/

namespace Sys2Proof

/-- A `bit` is 0 or 1 (R13): `false` is 0, `true` is 1. -/
abbrev Bit := Bool

/-- A u8 (R13). -/
abbrev Byte := BitVec 8

/-- The 8-bit operation word `op[7:0]` (R100). -/
abbrev OpWord := BitVec 8

/-- A `u8[4]` (R90, R94): element 0 is the most significant byte. -/
structure Bytes4 where
  b0 : Byte
  b1 : Byte
  b2 : Byte
  b3 : Byte
deriving DecidableEq, Repr

/-- The seven channel roles, in the order of R97. -/
inductive Role where
  | dataIn
  | dataOut
  | clock
  | hardReset
  | softReset
  | modeSelect0
  | modeSelect1
deriving DecidableEq, Repr

/-- One value for each of the seven roles (R21: the cursor file; R37: the binding). -/
structure RoleMap (α : Type) where
  dataIn : α
  dataOut : α
  clock : α
  hardReset : α
  softReset : α
  modeSelect0 : α
  modeSelect1 : α
deriving DecidableEq, Repr

/-- The kinds of a marker (R92). -/
inductive MarkerKind where
  | bitSample
  | captureStart
deriving DecidableEq, Repr

/-- The kinds of a framed record (R93). -/
inductive FrameKind where
  | modeControl
  | instruction
  | status
  | data
deriving DecidableEq, Repr

/-- The seven Link States (R33, R98). Code 7 is no Link State, so it cannot arise (R105). -/
inductive LinkState where
  | boot
  | clockSelectHold
  | coreBootHold
  | debugModeSet
  | coreReadyHold
  | coreReady
  | packetStart
deriving DecidableEq, Repr

/-- The session status (R42, R99). -/
inductive Status where
  | init
  | running
  | cancelled
  | faulted
deriving DecidableEq, Repr

/-- The fault codes (R43, R99, R210). -/
inductive FaultCode where
  | none
  | configurationError
  | streamPositionViolation
  | illegalOperation
deriving DecidableEq, Repr

/-- The payload length register's two values (R29). -/
inductive PayloadLen where
  | seven
  | thirtyTwo
deriving DecidableEq, Repr

/-- The line CoreReady aligns on: `DataIn or DataOut` (R12, R40). -/
inductive AlignChannel where
  | dataIn
  | dataOut
deriving DecidableEq, Repr

end Sys2Proof
end

