-- ==== Sys2Proof/Config.lean ====
section
/-! DEFINITION. What the spec leaves open, as constants without a body: no proof can see what they are, so a claim that
holds, holds whatever they are. The design-time parameters that a block's builder picks (R40) are data of State
(Machine/State.lean, Params), so that every claim is about every block; here is only what is a function, or has no
default. -/

namespace Sys2Proof

/-- `derive_T`, OPEN in R12 and R242: a total function of (SAMPLE_RATE, BIT_RATE) of which nothing is assumed
(log entry 1). -/
opaque Config.deriveT : Nat → Nat → Nat

/-- `DEAD_INTERVAL` of the block that `State.reset` describes, OPEN in R12 and R158 (log entry 2). -/
opaque Config.deadInterval : Nat

/-- The k-th draw of a frame's flags value: a u8 under no law (R190; log entry 3). -/
opaque Config.frameFlags : Nat → Byte

/-- The k-th choice of the race between the held cancel and the held operation's completion, both admitted (R216,
R221): `true` lets the cancel go first (log entry 4). -/
opaque Config.heldCancelFirst : Nat → Bool

/-- The level of a stream's sample below its first event, where R61 defines none (stream, index; log entry 5). -/
opaque Config.unsetLevel : Nat → Nat → Bit

end Sys2Proof
end

