-- ==== Sys2Proof/Syntax.lean ====
section
/-! DEFINITION. The instructions: one constructor for each row of spec/opcode_table.json. -/

namespace Sys2Proof

/-- Every row of the opcode table. The 21 operations are R101's opcode map, the reserved rows are R103 and R104, the
wire frame is R85 and the four record rows are R92 to R95. A row's operands are its constructor's arguments: `c : Role` is
the channel field of a channel operation, a `Nat` is the operand `A` beside the word (R100), `c : BitVec 3` is the channel
field of a reserved word that has one. -/
inductive Instr where
  /-- LVL (R116): read the level of a cursor. -/
  | lvl (c : Role)
  /-- ADV (R117): advance a cursor by `n` samples. -/
  | adv (c : Role) (n : Nat)
  /-- ADVE (R118): advance a cursor to the next edge. -/
  | adve (c : Role)
  /-- ADVA (R119): advance a cursor to position `q`. -/
  | adva (c : Role) (q : Nat)
  /-- WTW (R120): is there a transition strictly within `n` samples. -/
  | wtw (c : Role) (n : Nat)
  /-- POS (R121): read the position of a cursor. -/
  | pos (c : Role)
  /-- RSYNC (R135): advance all seven cursors to position `q`. -/
  | rsync (q : Nat)
  /-- RDBIT (R144, R146): classify one bit. -/
  | rdbit (c : Role)
  /-- CFGCHK (R236): session start. -/
  | cfgchk
  /-- CANCHK (R156): cooperative cancellation check. -/
  | canchk
  /-- STEP (R155): one iteration of the Link State loop. -/
  | step
  /-- BOOT (R157): action of Link State Boot. -/
  | boot
  /-- CRDY (R158): action of Link State CoreReady. -/
  | crdy
  /-- PSTART (R159): action of Link State PacketStart. -/
  | pstart
  /-- INERT (R160): action of the placeholder Link States. -/
  | inert
  /-- CYCLE (R177): one capture cycle. -/
  | cycle
  /-- PBIT (R178): one preamble bit. -/
  | pbit
  /-- PERIOD (R179): advance one bit period. -/
  | period
  /-- LENSEL (R181): length decision. -/
  | lensel
  /-- DBIT (R182): one payload bit. -/
  | dbit
  /-- EMIT (R183): build the records and commit the batch. -/
  | emit
  /-- Word 0x07 (R104). -/
  | reservedLvlCh7
  /-- Word 0x0F (R104). -/
  | reservedAdvCh7
  /-- Word 0x17 (R104). -/
  | reservedAdveCh7
  /-- Word 0x1F (R104). -/
  | reservedAdvaCh7
  /-- Word 0x27 (R104). -/
  | reservedWtwCh7
  /-- Word 0x2F (R104). -/
  | reservedPosCh7
  /-- Word 0x3F (R104). -/
  | reservedRdbitCh7
  /-- Words 0x31 to 0x37 (R104). -/
  | reservedRsyncCh (c : BitVec 3)
  /-- Words 0x41 to 0x47 (R104). -/
  | reservedCfgchkCh (c : BitVec 3)
  /-- Words 0x49 to 0x4F (R104). -/
  | reservedCanchkCh (c : BitVec 3)
  /-- Words 0x51 to 0x57 (R104). -/
  | reservedStepCh (c : BitVec 3)
  /-- Words 0x59 to 0x5F (R104). -/
  | reservedBootCh (c : BitVec 3)
  /-- Words 0x61 to 0x67 (R104). -/
  | reservedCrdyCh (c : BitVec 3)
  /-- Words 0x69 to 0x6F (R104). -/
  | reservedPstartCh (c : BitVec 3)
  /-- Words 0x71 to 0x77 (R104). -/
  | reservedInertCh (c : BitVec 3)
  /-- Words 0x79 to 0x7F (R104). -/
  | reservedCycleCh (c : BitVec 3)
  /-- Words 0x81 to 0x87 (R104). -/
  | reservedPbitCh (c : BitVec 3)
  /-- Words 0x89 to 0x8F (R104). -/
  | reservedPeriodCh (c : BitVec 3)
  /-- Words 0x91 to 0x97 (R104). -/
  | reservedLenselCh (c : BitVec 3)
  /-- Words 0x99 to 0x9F (R104). -/
  | reservedDbitCh (c : BitVec 3)
  /-- Words 0xA1 to 0xA7 (R104). -/
  | reservedEmitCh (c : BitVec 3)
  /-- Words 0xA8 to 0xAF (R103). -/
  | reservedOpcode15 (c : BitVec 3)
  /-- Words 0xB0 to 0xB7 (R103). -/
  | reservedOpcode16 (c : BitVec 3)
  /-- Words 0xB8 to 0xBF (R103). -/
  | reservedOpcode17 (c : BitVec 3)
  /-- Words 0xC0 to 0xC7 (R103). -/
  | reservedOpcode18 (c : BitVec 3)
  /-- Words 0xC8 to 0xCF (R103). -/
  | reservedOpcode19 (c : BitVec 3)
  /-- Words 0xD0 to 0xD7 (R103). -/
  | reservedOpcode1A (c : BitVec 3)
  /-- Words 0xD8 to 0xDF (R103). -/
  | reservedOpcode1B (c : BitVec 3)
  /-- Words 0xE0 to 0xE7 (R103). -/
  | reservedOpcode1C (c : BitVec 3)
  /-- Words 0xE8 to 0xEF (R103). -/
  | reservedOpcode1D (c : BitVec 3)
  /-- Words 0xF0 to 0xF7 (R103). -/
  | reservedOpcode1E (c : BitVec 3)
  /-- Words 0xF8 to 0xFF (R103). -/
  | reservedOpcode1F (c : BitVec 3)
  /-- BDM_FRAME (R85): a frame on the wire. `mc`, `ow` are DataIn's fields and `st`, `iw` DataOut's. -/
  | bdmFrame (mc st : BitVec 3) (ow iw : BitVec 32)
  /-- Marker (R92). -/
  | marker (channel : Role) (at_ : Nat) (kind : MarkerKind)
  /-- Frame (R93): the range `[first, last]` is inclusive. -/
  | frame (kind : FrameKind) (first last value : Nat) (flags : Byte)
  /-- OutView and InView (R94). -/
  | outViewInView (mode control : Bit) (instruction : Bytes4) (status1 status2 : Bit) (data : Bytes4)
  /-- Commit (R95): no fields. -/
  | commit
deriving DecidableEq, Repr

end Sys2Proof
end

