-- ==== Sys2Proof/Decode.lean ====
section
/-! DEFINITION. The encodings of spec/30_encoding.md: enumeration codes (R97 to R99), field assembly (R89 to R91), the
operation word (R100 to R104), the wire frame (R85 to R88) and the records (R92 to R95); first reading them, then writing
them. -/

namespace Sys2Proof

/-! ## Enumeration codes -/

/-- Channel role code (R97). -/
def Role.code : Role → BitVec 3
  | .dataIn => 0
  | .dataOut => 1
  | .clock => 2
  | .hardReset => 3
  | .softReset => 4
  | .modeSelect0 => 5
  | .modeSelect1 => 6

/-- The role of a channel field; code 7 is reserved (R97, R102). -/
def Role.ofCode (b : BitVec 3) : Option Role :=
  match b.toNat with
  | 0 => some .dataIn
  | 1 => some .dataOut
  | 2 => some .clock
  | 3 => some .hardReset
  | 4 => some .softReset
  | 5 => some .modeSelect0
  | 6 => some .modeSelect1
  | _ => none

/-- The assembly name of a role (R97). -/
def Role.asmName : Role → String
  | .dataIn => "din"
  | .dataOut => "dout"
  | .clock => "clk"
  | .hardReset => "hrst"
  | .softReset => "srst"
  | .modeSelect0 => "ms0"
  | .modeSelect1 => "ms1"

/-- Link State code (R98). -/
def LinkState.code : LinkState → BitVec 3
  | .boot => 0
  | .clockSelectHold => 1
  | .coreBootHold => 2
  | .debugModeSet => 3
  | .coreReadyHold => 4
  | .coreReady => 5
  | .packetStart => 6

/-- A raw 3-bit value as a Link State: code 7 is refused (R98, R105). -/
def LinkState.ofCode (b : BitVec 3) : Option LinkState :=
  match b.toNat with
  | 0 => some .boot
  | 1 => some .clockSelectHold
  | 2 => some .coreBootHold
  | 3 => some .debugModeSet
  | 4 => some .coreReadyHold
  | 5 => some .coreReady
  | 6 => some .packetStart
  | _ => none

/-- STATUS code (R99). -/
def Status.code : Status → BitVec 2
  | .init => 0
  | .running => 1
  | .cancelled => 2
  | .faulted => 3

/-- FAULT_CODE code (R99, R210). -/
def FaultCode.code : FaultCode → BitVec 2
  | .none => 0
  | .configurationError => 1
  | .streamPositionViolation => 2
  | .illegalOperation => 3

/-- Marker kind code (R92). -/
def MarkerKind.code : MarkerKind → Nat
  | .bitSample => 0
  | .captureStart => 1

/-- The marker kind of a code (R92). -/
def MarkerKind.ofCode : Nat → Option MarkerKind
  | 0 => some .bitSample
  | 1 => some .captureStart
  | _ => none

/-- Frame kind code (R93). -/
def FrameKind.code : FrameKind → Nat
  | .modeControl => 0
  | .instruction => 1
  | .status => 2
  | .data => 3

/-- The frame kind of a code (R93). -/
def FrameKind.ofCode : Nat → Option FrameKind
  | 0 => some .modeControl
  | 1 => some .instruction
  | 2 => some .status
  | 3 => some .data
  | _ => none

/-- The number of values of a frame's `value`: u3 for ModeControl and Status, u32 for Instruction and Data (R93). -/
def FrameKind.valueBound : FrameKind → Nat
  | .modeControl => 2 ^ 3
  | .instruction => 2 ^ 32
  | .status => 2 ^ 3
  | .data => 2 ^ 32

/-! ## Field assembly -/

/-- MSB-first accumulation of a bit: `acc <- ((acc << 1) | b) mod 2^W` (R89). -/
def shiftIn {w : Nat} (acc : BitVec w) (b : Bit) : BitVec w :=
  (acc <<< 1) ||| (BitVec.ofBool b).setWidth w

/-- The accumulator after a field's bits, first sampled first, from a cleared accumulator (R88, R89). -/
def assemble {w : Nat} (bits : List Bit) : BitVec w :=
  bits.foldl shiftIn 0

/-- A field of `n` bits as it lies on the wire, most significant bit first (R68, R88). -/
def wireBits {w : Nat} (n : Nat) (v : BitVec w) : List Bit :=
  (List.range n).map fun k => v.getLsbD (n - 1 - k)

/-- The number of payload bits of a length (R29, R87). -/
def PayloadLen.bits : PayloadLen → Nat
  | .seven => 7
  | .thirtyTwo => 32

/-- Length selection: 7 if `MC[1] = 1`, else 32 (R87). -/
def selectLen (mc : BitVec 3) : PayloadLen :=
  if mc.getLsbD 1 then .seven else .thirtyTwo

/-- Four-byte big-endian rendering of a payload word (R69, R90). -/
def be4 (v : BitVec 32) : Bytes4 where
  b0 := v.extractLsb' 24 8
  b1 := v.extractLsb' 16 8
  b2 := v.extractLsb' 8 8
  b3 := v.extractLsb' 0 8

/-! ## Reading the operation word -/

/-- `op[7:3]`, the opcode (R100). -/
def opcodeField (w : OpWord) : BitVec 5 := w.extractLsb' 3 5

/-- `op[2:0]`, the channel field (R100). -/
def channelField (w : OpWord) : BitVec 3 := w.extractLsb' 0 3

/-- A channel operation: the channel field selects a role, and code 7 is the reserved word beside it (R102, R104). -/
def channelOp (ch : BitVec 3) (op : Role → Instr) (reserved : Instr) : Instr :=
  match Role.ofCode ch with
  | some c => op c
  | none => reserved

/-- A non-channel operation: a nonzero channel field is the reserved word beside it (R102, R104). -/
def plainOp (ch : BitVec 3) (op : Instr) (reserved : BitVec 3 → Instr) : Instr :=
  if ch = 0 then op else reserved ch

/-- The instruction of an operation word and the operand `A` beside it (R101 to R104). Every word is some row of the
table, so it is total. The last arm is opcode 0x1F, the one of the 32 that the arms before it leave. -/
def decodeWord (w : OpWord) (a : Nat) : Instr :=
  let ch := channelField w
  match (opcodeField w).toNat with
  | 0x00 => channelOp ch .lvl .reservedLvlCh7
  | 0x01 => channelOp ch (fun c => .adv c a) .reservedAdvCh7
  | 0x02 => channelOp ch .adve .reservedAdveCh7
  | 0x03 => channelOp ch (fun c => .adva c a) .reservedAdvaCh7
  | 0x04 => channelOp ch (fun c => .wtw c a) .reservedWtwCh7
  | 0x05 => channelOp ch .pos .reservedPosCh7
  | 0x06 => plainOp ch (.rsync a) .reservedRsyncCh
  | 0x07 => channelOp ch .rdbit .reservedRdbitCh7
  | 0x08 => plainOp ch .cfgchk .reservedCfgchkCh
  | 0x09 => plainOp ch .canchk .reservedCanchkCh
  | 0x0A => plainOp ch .step .reservedStepCh
  | 0x0B => plainOp ch .boot .reservedBootCh
  | 0x0C => plainOp ch .crdy .reservedCrdyCh
  | 0x0D => plainOp ch .pstart .reservedPstartCh
  | 0x0E => plainOp ch .inert .reservedInertCh
  | 0x0F => plainOp ch .cycle .reservedCycleCh
  | 0x10 => plainOp ch .pbit .reservedPbitCh
  | 0x11 => plainOp ch .period .reservedPeriodCh
  | 0x12 => plainOp ch .lensel .reservedLenselCh
  | 0x13 => plainOp ch .dbit .reservedDbitCh
  | 0x14 => plainOp ch .emit .reservedEmitCh
  | 0x15 => .reservedOpcode15 ch
  | 0x16 => .reservedOpcode16 ch
  | 0x17 => .reservedOpcode17 ch
  | 0x18 => .reservedOpcode18 ch
  | 0x19 => .reservedOpcode19 ch
  | 0x1A => .reservedOpcode1A ch
  | 0x1B => .reservedOpcode1B ch
  | 0x1C => .reservedOpcode1C ch
  | 0x1D => .reservedOpcode1D ch
  | 0x1E => .reservedOpcode1E ch
  | _ => .reservedOpcode1F ch

/-! ## Reading what lies on a port, the wire or the sink -/

/-- The four record rows, as the kinds of a record (R92 to R95). -/
inductive RecordRow where
  | marker
  | frame
  | outViewInView
  | commit
deriving DecidableEq, Repr

/-- The words of an instruction: an operation word with its operand, the bit periods of a frame (DataIn's bit and
DataOut's bit, R85), or a record's fields in the order the table lists them, as numbers (R92 to R95). -/
inductive Words where
  | op (w : OpWord) (a : Nat)
  | wire (periods : List (Bit × Bit))
  | record (row : RecordRow) (fields : List Nat)
deriving DecidableEq, Repr

/-- Why words are no instruction. Raised by `decode` only; safe (nothing runs). -/
inductive Reject where
  /-- No operation word to read. -/
  | noWord
  /-- The wire ends inside the 3-bit preamble (R85). -/
  | shortPreamble
  /-- The wire ends inside the payload (R85). -/
  | shortPayload
  /-- More bit periods than the one frame's `3 + LEN` (R85). -/
  | trailingPeriods
  /-- The fields are not those of the record (R92 to R95). -/
  | badRecord
deriving DecidableEq, Repr

/-- What a decoder reads: an instruction and what follows it, or a rejection by name. -/
inductive Decoded (α : Type) where
  | ok (i : Instr) (rest : List α)
  | rejected (r : Reject)
deriving DecidableEq, Repr

/-- The first operation of a byte sequence at the test port, with its operand beside it (R100). -/
def decodeBytes (a : Nat) : List Byte → Decoded Byte
  | [] => .rejected .noWord
  | w :: rest => .ok (decodeWord w a) rest

/-- A frame of the wire, read bit period by bit period: three preamble bits on each line, then `LEN` payload bits
on each, the length from bit period 1 of DataIn alone (R85 to R88). -/
def decodeFrame : List (Bit × Bit) → Decoded (Bit × Bit)
  | p2 :: p1 :: p0 :: rest =>
    let mc : BitVec 3 := assemble [p2.1, p1.1, p0.1]
    let st : BitVec 3 := assemble [p2.2, p1.2, p0.2]
    let n := (selectLen mc).bits
    if rest.length < n then .rejected .shortPayload
    else
      let payload := rest.take n
      .ok (.bdmFrame mc st (assemble (payload.map Prod.fst)) (assemble (payload.map Prod.snd))) (rest.drop n)
  | [] => .rejected .shortPreamble
  | [_] => .rejected .shortPreamble
  | [_, _] => .rejected .shortPreamble

/-- A bit field of a record. -/
def bitOfNat : Nat → Option Bit
  | 0 => some false
  | 1 => some true
  | _ => none

/-- A u8 field of a record. -/
def byteOfNat (n : Nat) : Option Byte :=
  if n < 256 then some (BitVec.ofNat 8 n) else none

/-- A `u8[4]` field of a record. -/
def bytesOfNats (n0 n1 n2 n3 : Nat) : Option Bytes4 := do
  let b0 ← byteOfNat n0
  let b1 ← byteOfNat n1
  let b2 ← byteOfNat n2
  let b3 ← byteOfNat n3
  return ⟨b0, b1, b2, b3⟩

/-- A role field of a record (R97). -/
def roleOfNat (n : Nat) : Option Role :=
  if n < 8 then Role.ofCode (BitVec.ofNat 3 n) else none

/-- The instruction of a record's fields (R92 to R95). -/
def decodeRecord : RecordRow → List Nat → Option Instr
  | .marker, [c, p, k] => do
    let role ← roleOfNat c
    let kind ← MarkerKind.ofCode k
    return .marker role p kind
  | .frame, [k, first, last, value, flags] => do
    let kind ← FrameKind.ofCode k
    let fl ← byteOfNat flags
    if value < kind.valueBound then return .frame kind first last value fl else none
  | .outViewInView, [m, c, i0, i1, i2, i3, s1, s2, d0, d1, d2, d3] => do
    let mode ← bitOfNat m
    let control ← bitOfNat c
    let instruction ← bytesOfNats i0 i1 i2 i3
    let status1 ← bitOfNat s1
    let status2 ← bitOfNat s2
    let data ← bytesOfNats d0 d1 d2 d3
    return .outViewInView mode control instruction status1 status2 data
  | .commit, [] => some .commit
  | _, _ => none

/-- The instruction of words, or a rejection by name. -/
def decode : Words → Decoded (Bit × Bit)
  | .op w a => .ok (decodeWord w a) []
  | .wire periods =>
    match decodeFrame periods with
    | .ok i [] => .ok i []
    | .ok _ (_ :: _) => .rejected .trailingPeriods
    | .rejected r => .rejected r
  | .record row fields =>
    match decodeRecord row fields with
    | some i => .ok i []
    | none => .rejected .badRecord

/-- The instruction the decoder reads from an instruction of `nbits` bits numbered as the opcode table numbers them:
the operation word is bits 7..0, and the operand `A`, which stands beside the word (R100), is what lies above. A word
shorter than 8 bits is none. -/
def decodeTableWord (nbits w : Nat) : Option Instr :=
  if nbits < 8 then none
  else some (decodeWord (BitVec.ofNat 8 (w % 2 ^ nbits)) (w % 2 ^ nbits / 256))

/-! ## Writing them: the encoder -/

/-- The operation word of an opcode and a channel field (R100). -/
def opWord (opcode : BitVec 5) (ch : BitVec 3) : OpWord := opcode ++ ch

/-- The wire's bit periods of a frame (R85 to R88). -/
def encodeFrame (mc st : BitVec 3) (ow iw : BitVec 32) : List (Bit × Bit) :=
  let n := (selectLen mc).bits
  (wireBits 3 mc).zip (wireBits 3 st) ++ (wireBits n ow).zip (wireBits n iw)

/-- A bit as a record's field. -/
def bitField (b : Bit) : Nat := if b then 1 else 0

/-- The words of an instruction, from R101's map, R97's codes and R85's and R92 to R95's fields. -/
def encode : Instr → Words
  | .lvl c => .op (opWord 0x00 c.code) 0
  | .adv c n => .op (opWord 0x01 c.code) n
  | .adve c => .op (opWord 0x02 c.code) 0
  | .adva c q => .op (opWord 0x03 c.code) q
  | .wtw c n => .op (opWord 0x04 c.code) n
  | .pos c => .op (opWord 0x05 c.code) 0
  | .rsync q => .op (opWord 0x06 0) q
  | .rdbit c => .op (opWord 0x07 c.code) 0
  | .cfgchk => .op (opWord 0x08 0) 0
  | .canchk => .op (opWord 0x09 0) 0
  | .step => .op (opWord 0x0A 0) 0
  | .boot => .op (opWord 0x0B 0) 0
  | .crdy => .op (opWord 0x0C 0) 0
  | .pstart => .op (opWord 0x0D 0) 0
  | .inert => .op (opWord 0x0E 0) 0
  | .cycle => .op (opWord 0x0F 0) 0
  | .pbit => .op (opWord 0x10 0) 0
  | .period => .op (opWord 0x11 0) 0
  | .lensel => .op (opWord 0x12 0) 0
  | .dbit => .op (opWord 0x13 0) 0
  | .emit => .op (opWord 0x14 0) 0
  | .reservedLvlCh7 => .op (opWord 0x00 7) 0
  | .reservedAdvCh7 => .op (opWord 0x01 7) 0
  | .reservedAdveCh7 => .op (opWord 0x02 7) 0
  | .reservedAdvaCh7 => .op (opWord 0x03 7) 0
  | .reservedWtwCh7 => .op (opWord 0x04 7) 0
  | .reservedPosCh7 => .op (opWord 0x05 7) 0
  | .reservedRdbitCh7 => .op (opWord 0x07 7) 0
  | .reservedRsyncCh c => .op (opWord 0x06 c) 0
  | .reservedCfgchkCh c => .op (opWord 0x08 c) 0
  | .reservedCanchkCh c => .op (opWord 0x09 c) 0
  | .reservedStepCh c => .op (opWord 0x0A c) 0
  | .reservedBootCh c => .op (opWord 0x0B c) 0
  | .reservedCrdyCh c => .op (opWord 0x0C c) 0
  | .reservedPstartCh c => .op (opWord 0x0D c) 0
  | .reservedInertCh c => .op (opWord 0x0E c) 0
  | .reservedCycleCh c => .op (opWord 0x0F c) 0
  | .reservedPbitCh c => .op (opWord 0x10 c) 0
  | .reservedPeriodCh c => .op (opWord 0x11 c) 0
  | .reservedLenselCh c => .op (opWord 0x12 c) 0
  | .reservedDbitCh c => .op (opWord 0x13 c) 0
  | .reservedEmitCh c => .op (opWord 0x14 c) 0
  | .reservedOpcode15 c => .op (opWord 0x15 c) 0
  | .reservedOpcode16 c => .op (opWord 0x16 c) 0
  | .reservedOpcode17 c => .op (opWord 0x17 c) 0
  | .reservedOpcode18 c => .op (opWord 0x18 c) 0
  | .reservedOpcode19 c => .op (opWord 0x19 c) 0
  | .reservedOpcode1A c => .op (opWord 0x1A c) 0
  | .reservedOpcode1B c => .op (opWord 0x1B c) 0
  | .reservedOpcode1C c => .op (opWord 0x1C c) 0
  | .reservedOpcode1D c => .op (opWord 0x1D c) 0
  | .reservedOpcode1E c => .op (opWord 0x1E c) 0
  | .reservedOpcode1F c => .op (opWord 0x1F c) 0
  | .bdmFrame mc st ow iw => .wire (encodeFrame mc st ow iw)
  | .marker channel p kind => .record .marker [channel.code.toNat, p, kind.code]
  | .frame kind first last value flags => .record .frame [kind.code, first, last, value, flags.toNat]
  | .outViewInView mode control i s1 s2 d =>
    .record .outViewInView
      [bitField mode, bitField control, i.b0.toNat, i.b1.toNat, i.b2.toNat, i.b3.toNat, bitField s1, bitField s2,
        d.b0.toNat, d.b1.toNat, d.b2.toNat, d.b3.toNat]
  | .commit => .record .commit []

/-! ## Assembly (R107) -/

/-- An operation as the spec writes it; rows that are no operation of R101 have no spelling (R107). -/
def Instr.asm : Instr → Option String
  | .lvl c => some ("LVL " ++ c.asmName)
  | .adv c n => some ("ADV " ++ c.asmName ++ ", " ++ toString n)
  | .adve c => some ("ADVE " ++ c.asmName)
  | .adva c q => some ("ADVA " ++ c.asmName ++ ", " ++ toString q)
  | .wtw c n => some ("WTW " ++ c.asmName ++ ", " ++ toString n)
  | .pos c => some ("POS " ++ c.asmName)
  | .rsync q => some ("RSYNC " ++ toString q)
  | .rdbit c => some ("RDBIT " ++ c.asmName)
  | .cfgchk => some ("CFGCHK")
  | .canchk => some ("CANCHK")
  | .step => some ("STEP")
  | .boot => some ("BOOT")
  | .crdy => some ("CRDY")
  | .pstart => some ("PSTART")
  | .inert => some ("INERT")
  | .cycle => some ("CYCLE")
  | .pbit => some ("PBIT")
  | .period => some ("PERIOD")
  | .lensel => some ("LENSEL")
  | .dbit => some ("DBIT")
  | .emit => some ("EMIT")
  | .reservedLvlCh7 => none
  | .reservedAdvCh7 => none
  | .reservedAdveCh7 => none
  | .reservedAdvaCh7 => none
  | .reservedWtwCh7 => none
  | .reservedPosCh7 => none
  | .reservedRdbitCh7 => none
  | .reservedRsyncCh _ => none
  | .reservedCfgchkCh _ => none
  | .reservedCanchkCh _ => none
  | .reservedStepCh _ => none
  | .reservedBootCh _ => none
  | .reservedCrdyCh _ => none
  | .reservedPstartCh _ => none
  | .reservedInertCh _ => none
  | .reservedCycleCh _ => none
  | .reservedPbitCh _ => none
  | .reservedPeriodCh _ => none
  | .reservedLenselCh _ => none
  | .reservedDbitCh _ => none
  | .reservedEmitCh _ => none
  | .reservedOpcode15 _ => none
  | .reservedOpcode16 _ => none
  | .reservedOpcode17 _ => none
  | .reservedOpcode18 _ => none
  | .reservedOpcode19 _ => none
  | .reservedOpcode1A _ => none
  | .reservedOpcode1B _ => none
  | .reservedOpcode1C _ => none
  | .reservedOpcode1D _ => none
  | .reservedOpcode1E _ => none
  | .reservedOpcode1F _ => none
  | .bdmFrame _ _ _ _ => none
  | .marker _ _ _ => none
  | .frame _ _ _ _ _ => none
  | .outViewInView _ _ _ _ _ _ => none
  | .commit => none

end Sys2Proof
end

