-- ==== Sys2Proof/Machine/State.lean ====
section
/-! DEFINITION. The machine's state as plain data (spec/10_state.md), what can stop a step, and the state after reset
(R48, R235). INVENTORY.md lists every field with its rule. -/

namespace Sys2Proof.Machine

/-- A cursor: its position and its level registers (R21). -/
structure Cursor where
  pos : Nat
  lvl : Bit
deriving DecidableEq, Repr

/-- A physical sample stream (R7, R60, R61): its transition events `(index, level)`, oldest first, the availability
count and the end flag. An event whose level equals the one before it is no transition (R61) and is not kept. -/
structure Stream where
  events : List (Nat × Bit)
  avail : Nat
  ended : Bool
deriving DecidableEq, Repr

/-- The sample spaces (R60): the physical streams, by identity 0, 1, 2, … A stream not listed has produced nothing. -/
abbrev Memory := List Stream

/-- The configuration registers 0 to 3 (R37): `BINDING` gives each role the identity of its stream (R6). -/
structure ConfigRegs where
  sampleRate : Nat
  bitRate : Nat
  tolOverride : Option Nat
  binding : RoleMap Nat
deriving DecidableEq, Repr

/-- The design-time parameters of the block (R12, R40): constants of an instance that nothing writes. -/
structure Params where
  deadInterval : Nat
  startPos : Nat
  alignChannel : AlignChannel
  glitchConfirm : Bool
deriving DecidableEq, Repr

/-- The assembler registers (R25 to R31). -/
structure Assembler where
  mc : BitVec 3
  st : BitVec 3
  ow : BitVec 32
  iw : BitVec 32
  len : PayloadLen
  preStart : Nat
  preEnd : Nat
  payStart : Nat
  payEnd : Nat
deriving DecidableEq, Repr

/-- The events of the result sink (R9, R92 to R95). -/
inductive Event where
  | marker (channel : Role) (at_ : Nat) (kind : MarkerKind)
  | frame (kind : FrameKind) (first last value : Nat) (flags : Byte)
  | outView (mode control : Bit) (instruction : Bytes4)
  | inView (status1 status2 : Bit) (data : Bytes4)
  | commit
deriving DecidableEq, Repr

/-- What LVL, POS, WTW and RDBIT hand to their issuer (R100). -/
inductive Value where
  | bit (b : Bit)
  | nat (n : Nat)
deriving DecidableEq, Repr

/-- The outcome the issuer of an operation observes (R17): it completed (with the value it returns, R100), it holds (and
whether that hold, at the first need not met, can never lift, R64; log entry 4), it faulted, it was refused (R222), or
it was abandoned to the held cancel (R216). Nothing of the block reads it but the retry of a held operation. -/
inductive Response where
  | idle
  | completed (v : Option Value)
  | held (neverLifts : Bool)
  | faulted
  | refused
  | abandoned
deriving DecidableEq, Repr

/-- What the host can read: STATUS, FAULT_CODE and LOG (R10, R227, R237), and `T`, read-only to it (R37; log entry
26). -/
inductive HostReg where
  | tol
  | status
  | faultCode
  | log
deriving DecidableEq, Repr

/-- What the host reads from a register. -/
inductive RegValue where
  | nat (n : Nat)
  | bits (b : BitVec 2)
  | events (l : List Event)
deriving DecidableEq, Repr

/-- What the outside world does next (R237's table, and the test port of R100). `run` lets the block make its next move.
The list of turns in State is any interleaving of the host and the block (R76). -/
inductive Turn where
  | setSampleRate (n : Nat)
  | setBitRate (n : Nat)
  | setTolOverride (n : Option Nat)
  | setBinding (b : RoleMap Nat)
  | produce (stream : Nat) (level : Bit) (count : Nat)
  | endStream (stream : Nat)
  | requestCancel
  | read (r : HostReg)
  | newSession
  | issue (w : OpWord) (a : Nat)
  | run
deriving DecidableEq, Repr

/-- An operation word at the test port, with the operand beside it (R100). -/
structure PortOp where
  word : OpWord
  operand : Nat
deriving DecidableEq, Repr

/-- The whole machine. The first block is the block's registers and hidden state, the second its environment (R7, R40,
R46), the third the model's own bookkeeping, which is no register of the spec (log entries 3, 6, 7). -/
structure State where
  /-- `STATUS`, register 6 (R42). -/
  status : Status
  /-- `FAULT_CODE`, register 7 (R43). -/
  faultCode : FaultCode
  /-- `CANCEL_REQ`, register 5 (R41). -/
  cancelReq : Bit
  /-- `T`, register 4 (R38). -/
  tol : Nat
  /-- Registers 0 to 3 (R37, R39). -/
  cfg : ConfigRegs
  /-- `LINK` (R33). -/
  link : LinkState
  /-- The cursor file (R21). -/
  cur : RoleMap Cursor
  /-- The assembler registers (R25 to R31). -/
  asm : Assembler
  /-- `PENDING` (R44), oldest first. -/
  pending : List Event
  /-- `LOG` (R47), oldest first. -/
  log : List Event
  /-- The physical sample streams (R7, R46, R60). -/
  streams : Memory
  /-- The design-time parameters (R40). -/
  params : Params
  /-- What the outside does in its next turns, first first (R237; log entry 6). -/
  turns : List Turn
  /-- Operations waiting at the test port, first first (R100; log entry 6). -/
  port : List PortOp
  /-- The operation that holds and will be re-attempted (R17, R63, R239; log entry 6). -/
  inFlight : Option Instr
  /-- What the issuer of the last operation observed (R17, R100; log entry 6). -/
  resp : Response
  /-- What the host's last register read gave (R10, R37; log entry 6). -/
  hostOut : Option RegValue
  /-- How many free values have been drawn (R190, R216; log entry 3). -/
  draws : Nat
deriving DecidableEq, Repr

/-- No step of this hardware ends in a fault of the model: each of the spec's faults (R210) is a next state with
STATUS = Faulted (R218), and a hold is a next state with nothing changed (R63). So there is no constructor. Safe. -/
inductive Fault where
deriving DecidableEq, Repr

/-- Why a step is refused. An operation that its status does not enable is NOT among these: its issuer is told so and
the session goes on (R222). -/
inductive Refusal where
  /-- Raised by an arm of `exec` whose instruction has no meaning yet; no arm is such. Safe. -/
  | notModelled (mnemonic : String)
  /-- Raised by `step` alone, when STATUS is Cancelled or Faulted, no turn of the outside is left and nothing waits at the
  test port: the run has ended (R240) and the sequencer issues nothing (R239). Safe (log entry 27). -/
  | sessionEnded
deriving DecidableEq, Repr

/-- The machine after reset (R48, R235): each value the spec states, and for the ones it does not state the values of
log entry 8 (cursors and `T`), log entry 9 (configuration registers), log entry 10 (no stream has produced a sample) and
log entries 2 and 11 (the parameters). -/
def State.reset : State where
  status := .init
  faultCode := .none
  cancelReq := false
  tol := 0
  cfg := ⟨0, 0, none, ⟨0, 0, 0, 0, 0, 0, 0⟩⟩
  link := .boot
  cur := ⟨⟨0, false⟩, ⟨0, false⟩, ⟨0, false⟩, ⟨0, false⟩, ⟨0, false⟩, ⟨0, false⟩, ⟨0, false⟩⟩
  asm := ⟨0, 0, 0, 0, .thirtyTwo, 0, 0, 0, 0⟩
  pending := []
  log := []
  streams := []
  params := ⟨Config.deadInterval, 0, .dataIn, false⟩
  turns := []
  port := []
  inFlight := none
  resp := .idle
  hostOut := none
  draws := 0

end Sys2Proof.Machine
end

