-- ==== Sys2Proof/Machine/Operands.lean ====
section
/-! DEFINITION. Operand selection: the channel field selects one cursor of seven (R115), a role selects a stream through
the binding (R6, R62), ALIGN_CHANNEL selects a data line (R158), and a stream is found by its identity. -/

namespace Sys2Proof

/-- The seven roles, in the order of R97. -/
def Role.all : List Role :=
  [.dataIn, .dataOut, .clock, .hardReset, .softReset, .modeSelect0, .modeSelect1]

/-- The entry of a role. -/
def RoleMap.get {α : Type} (m : RoleMap α) : Role → α
  | .dataIn => m.dataIn
  | .dataOut => m.dataOut
  | .clock => m.clock
  | .hardReset => m.hardReset
  | .softReset => m.softReset
  | .modeSelect0 => m.modeSelect0
  | .modeSelect1 => m.modeSelect1

/-- A role's entry replaced, and no other (R115). -/
def RoleMap.set {α : Type} (m : RoleMap α) (c : Role) (v : α) : RoleMap α :=
  match c with
  | .dataIn => { m with dataIn := v }
  | .dataOut => { m with dataOut := v }
  | .clock => { m with clock := v }
  | .hardReset => { m with hardReset := v }
  | .softReset => { m with softReset := v }
  | .modeSelect0 => { m with modeSelect0 := v }
  | .modeSelect1 => { m with modeSelect1 := v }

/-- The map with a given entry for each role. -/
def RoleMap.ofRoles {α : Type} (f : Role → α) : RoleMap α where
  dataIn := f .dataIn
  dataOut := f .dataOut
  clock := f .clock
  hardReset := f .hardReset
  softReset := f .softReset
  modeSelect0 := f .modeSelect0
  modeSelect1 := f .modeSelect1

/-- The role CoreReady aligns on (R158). -/
def AlignChannel.role : AlignChannel → Role
  | .dataIn => .dataIn
  | .dataOut => .dataOut

namespace Machine

/-- A stream that has produced nothing. -/
def Stream.empty : Stream := ⟨[], 0, false⟩

/-- The stream of an identity. -/
def Memory.get (m : Memory) (k : Nat) : Stream := m.getD k Stream.empty

/-- A stream replaced; the streams between the listed ones and it have produced nothing. -/
def Memory.put (m : Memory) (k : Nat) (st : Stream) : Memory :=
  match m, k with
  | [], 0 => [st]
  | [], k + 1 => Stream.empty :: Memory.put [] k st
  | _ :: ms, 0 => st :: ms
  | x :: ms, k + 1 => x :: Memory.put ms k st

/-- The identity of the stream bound to a role (R6, R37). -/
def State.bound (s : State) (c : Role) : Nat := s.cfg.binding.get c

/-- The stream bound to a role. -/
def State.stream (s : State) (c : Role) : Stream := Memory.get s.streams (s.bound c)

/-- `cur[c].pos` (R21). -/
def State.pos (s : State) (c : Role) : Nat := (s.cur.get c).pos

/-- `cur[c].lvl` (R21). -/
def State.lvl (s : State) (c : Role) : Bit := (s.cur.get c).lvl

/-- The line CoreReady aligns on (R158). -/
def State.alignRole (s : State) : Role := s.params.alignChannel.role

end Machine
end Sys2Proof
end

