-- ==== Sys2Proof/Machine/Flags.lean ====
section
/-! DEFINITION. The block has no flag register (R36): here are its decision bits, each computed where it is used, and the
fields the views name (R91, R96). -/

namespace Sys2Proof.Machine

/-- The mode bit, `MC[1]` (R36, R86). -/
def modeBit (mc : BitVec 3) : Bit := mc.getLsbD 1

/-- The Control bit, `MC[0]` (R86). -/
def controlBit (mc : BitVec 3) : Bit := mc.getLsbD 0

/-- Status1 is `ST[1]` (R86, log entry 12). -/
def status1Bit (st : BitVec 3) : Bit := st.getLsbD 1

/-- Status2 is `ST[0]` (R86, log entry 12). -/
def status2Bit (st : BitVec 3) : Bit := st.getLsbD 0

/-- Target ready: DataOut's raw level is 0 (R36, R175). -/
def targetReady (s : State) : Bool := s.lvl .dataOut == false

/-- CoreReady's start-bit alignment: the aligned line is still low (R36, R158). -/
def stillLow (s : State) (a : Role) : Bool := s.lvl a == false

/-- The default classifier's decision from its two window tests (R144). -/
def classifyDefault (l w1 w2 : Bit) : Bit :=
  if w1 = false ∧ w2 = false then l else !l

/-- The GLITCH_CONFIRM variant's decision from its window test and the sample at offset `T+2` (R146). -/
def classifyConfirm (l w2 far : Bit) : Bit :=
  if w2 = true ∧ far ≠ l then !l else l

/-- CFGCHK's rejection: a zero rate, or fewer than 4 samples a bit (R211, R236). -/
def configInvalid (r : ConfigRegs) : Bool :=
  r.sampleRate == 0 || r.bitRate == 0 || decide (r.sampleRate < 4 * r.bitRate)

/-- The Capture Record of a completed cycle (R96). -/
structure CaptureRecord where
  modeControl : BitVec 2
  status : BitVec 2
  instruction : BitVec 32
  data : BitVec 32
  preamble : Nat × Nat
  payload : Nat × Nat
deriving DecidableEq, Repr

/-- The record's fields and the state each comes from (R96). -/
def captureRecord (a : Assembler) : CaptureRecord where
  modeControl := a.mc.extractLsb' 0 2
  status := a.st.extractLsb' 0 2
  instruction := a.ow
  data := a.iw
  preamble := (a.preStart, a.preEnd)
  payload := (a.payStart, a.payEnd)

end Sys2Proof.Machine
end

