-- ==== Sys2Proof/Machine/Ops.lean ====
section
/-! DEFINITION. The shared operations: the sample spaces, the outcomes of an operation (R17) and how they become a step,
the cursor primitives, the sink, taking a fault and taking a cancel. -/

namespace Sys2Proof.Machine

/-! ## The sample spaces (R60 to R64) -/

/-- The level of the last event at or before `i`; `d` where there is none (R61). -/
def levelAt : List (Nat × Bit) → Bit → Nat → Bit
  | [], d, _ => d
  | (k, l) :: es, d, i => if k ≤ i then levelAt es l i else d

/-- `S` of a physical stream (R61). Below the stream's first event the spec defines no level (log entry 5). -/
def Memory.sample (m : Memory) (k i : Nat) : Bit :=
  levelAt (Memory.get m k).events (Config.unsetLevel k i) i

/-- `S(c, i)` (R7, R15). -/
def State.sample (s : State) (c : Role) (i : Nat) : Bit := Memory.sample s.streams (s.bound c) i

/-- `AVAIL(c)` (R7). -/
def State.avail (s : State) (c : Role) : Nat := (s.stream c).avail

/-- `ENDED(c)` (R7). -/
def State.ended (s : State) (c : Role) : Bool := (s.stream c).ended

/-- `trans(c, i)`: sample `i` is the first of a new level (R16). -/
def State.trans (s : State) (c : Role) (i : Nat) : Bool :=
  decide (1 ≤ i) && s.sample c i != s.sample c (i - 1)

/-- The canonical form of a stream: event indices strictly rising, no event repeating the level before it, and every
event produced. -/
abbrev Stream.wf (st : Stream) : Prop :=
  st.events.IsChain (fun a b => a.1 < b.1 ∧ a.2 ≠ b.2) ∧ ∀ e ∈ st.events, e.1 < st.avail

/-- The canonical form of the sample spaces: each stream canonical, and no stream that has produced nothing listed
last. -/
abbrev Memory.wf (m : Memory) : Prop :=
  (∀ st ∈ m, Stream.wf st) ∧ m.getLast? ≠ some Stream.empty

/-- The producer appends `n` samples of one level (R7): the end flag forbids it, and a level that does not change is no
event (R61). -/
def Stream.produce (st : Stream) (l : Bit) (n : Nat) : Stream :=
  if st.ended ∨ n = 0 then st
  else
    { st with
      events := if st.events.getLast?.map Prod.snd = some l then st.events else st.events ++ [(st.avail, l)]
      avail := st.avail + n }

/-- A stream of the sample spaces changed by its producer; no change leaves the list as it is. -/
def Memory.update (m : Memory) (k : Nat) (f : Stream → Stream) : Memory :=
  if f (Memory.get m k) = Memory.get m k then m else Memory.put m k (f (Memory.get m k))

/-- Samples appended to a stream (R7, R237). -/
def Memory.produce (m : Memory) (k : Nat) (l : Bit) (n : Nat) : Memory :=
  Memory.update m k fun st => st.produce l n

/-- A stream ended (R7, R237). -/
def Memory.endStream (m : Memory) (k : Nat) : Memory :=
  Memory.update m k fun st => { st with ended := true }

/-! ## Outcomes of an operation (R17) -/

/-- What an operation that is enabled comes to: it completes with a value and a state, it holds (and whether the hold
can never lift, R64), or it raises a fault. -/
inductive Result (α : Type) where
  | done (a : α) (s : State)
  | held (neverLifts : Bool)
  | raised (code : FaultCode)
deriving DecidableEq, Repr

/-- The next operation of a sequence: it sees every effect of the ones before it, and the first hold or raise is the
whole sequence's (R75, R221). -/
def Result.andThen {α β : Type} (r : Result α) (k : α → State → Result β) : Result β :=
  match r with
  | .done a s => k a s
  | .held b => .held b
  | .raised c => .raised c

/-- A sequence's last value dropped. -/
def Result.noValue {α : Type} (r : Result α) : Result Unit :=
  r.andThen fun _ s => .done () s

/-- An operation issued `n` times (R177). -/
def repeatOp : Nat → (State → Result Unit) → State → Result Unit
  | 0, _, s => .done () s
  | n + 1, op, s => (op s).andThen fun _ t => repeatOp n op t

/-- `need(c, i)`: the operation holds while sample `i` is not produced (R15, R63); on an ended stream for ever (R64). -/
def need (c : Role) (i : Nat) (s : State) : Result Unit :=
  if i < s.avail c then .done () s else .held (s.ended c)

/-- `need(c, i)` for every role `c` (R135, R236). -/
def needAll (i : Nat) (s : State) : Result Unit :=
  if Role.all.all (fun c => i < s.avail c) then .done () s
  else .held (Role.all.any fun c => decide (s.avail c ≤ i) && s.ended c)

/-! ## Taking a fault, taking a cancel, and how an outcome becomes a step -/

/-- Fault entry (R218): STATUS, FAULT_CODE and PENDING are written. There is no handler and no return (R224). Of the
registers the rule leaves unspecified the model keeps the values from before the operation, as the rule lets it (log
entry 13). -/
def faultEntry (code : FaultCode) (s : State) : State :=
  { s with status := .faulted, faultCode := code, pending := [] }

/-- The session cancelled: CANCHK's effect (R156) and the held cancel's (R216). -/
def cancelEntry (s : State) : State :=
  { s with status := .cancelled, pending := [] }

/-- What the issuer of the operation observes (R17, R100). -/
def State.answer (s : State) (r : Response) : State := { s with resp := r }

/-- An operation issued: in a status that does not enable it, it is refused and changes nothing (R42, R222); enabled, it
completes, it holds with no change, or it faults, and then the state is the one before it but for fault entry (R17). -/
def issueIn (enabledIn : Status) (op : State → Result (Option Value)) (s : State) :
    Host.Outcome State Fault Refusal :=
  if s.status = enabledIn then
    match op s with
    | .done v t => .next (t.answer (.completed v))
    | .held b => .next (s.answer (.held b))
    | .raised code => .next ((faultEntry code s).answer .faulted)
  else .next (s.answer .refused)

/-- An operation that returns nothing (R101). -/
def silent (op : State → Result Unit) (s : State) : Result (Option Value) :=
  (op s).andThen fun _ t => .done none t

/-- An operation that returns a bit (R101). -/
def returnsBit (op : State → Result Bit) (s : State) : Result (Option Value) :=
  (op s).andThen fun b t => .done (some (.bit b)) t

/-- An operation that returns a natural (R101). -/
def returnsNat (op : State → Result Nat) (s : State) : Result (Option Value) :=
  (op s).andThen fun n t => .done (some (.nat n)) t

/-- The decoder's verdict on a reserved word: IllegalOperation, before any operand is read (R213, R221). -/
def illegalOperation (_ : State) : Result (Option Value) := .raised .illegalOperation

/-! ## The cursor primitives (R116 to R121, R135) -/

/-- A cursor moved: every write of a position also writes the level with the sample there (R22). -/
def State.place (s : State) (c : Role) (q : Nat) : State :=
  { s with cur := s.cur.set c ⟨q, s.sample c q⟩ }

/-- All seven cursors moved to one position (R135, R236). -/
def State.placeAll (s : State) (q : Nat) : State :=
  { s with cur := RoleMap.ofRoles fun c => ⟨q, s.sample c q⟩ }

/-- LVL's contract (R116). -/
def readLevel (c : Role) (s : State) : Result Bit := .done (s.lvl c) s

/-- POS's contract (R121). -/
def readPosition (c : Role) (s : State) : Result Nat := .done (s.pos c) s

/-- ADV's contract (R117). -/
def advance (c : Role) (n : Nat) (s : State) : Result Unit :=
  (need c (s.pos c + n) s).andThen fun _ t => .done () (t.place c (s.pos c + n))

/-- The least produced index above the cursor whose sample is not the cursor's level (R118). -/
def nextEdge (c : Role) (s : State) : Option Nat :=
  (List.range' (s.pos c + 1) (s.avail c - (s.pos c + 1))).find? fun i => s.sample c i != s.lvl c

/-- ADVE's contract (R118): it holds while no such index is produced, for ever once the stream has ended (R64). -/
def advanceToEdge (c : Role) (s : State) : Result Unit :=
  match nextEdge c s with
  | some i => .done () { s with cur := s.cur.set c ⟨i, !s.lvl c⟩ }
  | none => .held (s.ended c)

/-- ADVA's contract (R119): the backward test precedes the need (R212). -/
def advanceTo (c : Role) (q : Nat) (s : State) : Result Unit :=
  if q < s.pos c then .raised .streamPositionViolation
  else (need c q s).andThen fun _ t => .done () (t.place c q)

/-- Some transition strictly between the cursor and `n` samples on (R120). -/
def transitionWithin (c : Role) (n : Nat) (s : State) : Bit :=
  (List.range' (s.pos c + 1) (n - 1)).any fun i => s.trans c i

/-- WTW's contract (R120): the whole window is needed when `n ≥ 2`; the cursor does not move. -/
def wouldTransition (c : Role) (n : Nat) (s : State) : Result Bit :=
  if 2 ≤ n then (need c (s.pos c + n - 1) s).andThen fun _ t => .done (transitionWithin c n s) t
  else .done false s

/-- RSYNC's contract (R135): all seven cursors are checked before any moves. -/
def resync (q : Nat) (s : State) : Result Unit :=
  if Role.all.any (fun c => decide (q < s.pos c)) then .raised .streamPositionViolation
  else (needAll q s).andThen fun _ t => .done () (t.placeAll q)

/-! ## The classifier (R143 to R150) -/

/-- RDBIT's default algorithm (R144). -/
def readBitDefault (c : Role) (s : State) : Result Bit :=
  (wouldTransition c s.tol s).andThen fun w1 s1 =>
    (wouldTransition c (s.tol + 2) s1).andThen fun w2 s2 =>
      .done (classifyDefault (s.lvl c) w1 w2) s2

/-- RDBIT's GLITCH_CONFIRM variant (R146). -/
def readBitConfirm (c : Role) (s : State) : Result Bit :=
  (wouldTransition c (s.tol + 2) s).andThen fun w2 s1 =>
    (need c (s.pos c + s.tol + 2) s1).andThen fun _ s2 =>
      .done (classifyConfirm (s.lvl c) w2 (s.sample c (s.pos c + s.tol + 2))) s2

/-- RDBIT's contract, one function for every channel (R147). -/
def readBit (c : Role) (s : State) : Result Bit :=
  if s.params.glitchConfirm then readBitConfirm c s else readBitDefault c s

/-! ## The sink (R9, R66, R78) -/

/-- `Emit(e)` (R15). -/
def State.emit (s : State) (e : Event) : State := { s with log := s.log ++ [e] }

/-- `Pend(e)` (R15, R44). -/
def State.pend (s : State) (e : Event) : State := { s with pending := s.pending ++ [e] }

/-- A batch committed: every pending event in order, then Commit, and PENDING is empty (R95, R183). -/
def State.commitBatch (s : State) : State :=
  { s with log := s.log ++ s.pending ++ [.commit], pending := [] }

/-- A marker put out: a bit-sample marker joins the batch (R180), a capture-start marker goes to the log at once
(R78, R158). -/
def putMarker (c : Role) (p : Nat) (kind : MarkerKind) (s : State) : State :=
  match kind with
  | .bitSample => s.pend (.marker c p .bitSample)
  | .captureStart => s.emit (.marker c p .captureStart)

/-- A framed record put out: it joins the batch (R183). -/
def putFrame (kind : FrameKind) (first last value : Nat) (flags : Byte) (s : State) : State :=
  s.pend (.frame kind first last value flags)

/-- The two structured views put out: both join the batch, OutView first (R183). -/
def putViews (mode control : Bit) (instruction : Bytes4) (status1 status2 : Bit) (data : Bytes4) (s : State) : State :=
  (s.pend (.outView mode control instruction)).pend (.inView status1 status2 data)

/-! ## Registers -/

/-- `LINK <- l` (R14, R33). -/
def State.setLink (s : State) (l : LinkState) : State := { s with link := l }

/-- The assembler registers written. -/
def State.setAsm (s : State) (a : Assembler) : State := { s with asm := a }

/-- `n` free values drawn (R190). -/
def State.draw (s : State) (n : Nat) : State := { s with draws := s.draws + n }

end Sys2Proof.Machine
end

