-- ==== Sys2Proof/Machine/Assemble.lean ====
section
/-! DEFINITION. bitfield_assembler (spec/45_bitfield_assembler.md), and the rows of the opcode table that are the wire
frame and the records (R85, R92 to R95). -/

namespace Sys2Proof.Machine

/-! ## The assembler's steps -/

/-- One preamble bit of each line shifted in (R178). -/
def pushPreamble (bo bi : Bit) (s : State) : State :=
  s.setAsm { s.asm with mc := shiftIn s.asm.mc bo, st := shiftIn s.asm.st bi }

/-- One payload bit of each line shifted in (R182). -/
def pushPayload (bo bi : Bit) (s : State) : State :=
  s.setAsm { s.asm with ow := shiftIn s.asm.ow bo, iw := shiftIn s.asm.iw bi }

/-- PERIOD's contract (R179). -/
def bitPeriod (s : State) : Result Unit :=
  (advanceToEdge .clock s).andThen fun _ s1 =>
    (advanceToEdge .clock s1).andThen fun _ s2 =>
      (resync (s2.pos .clock) s2).andThen fun _ s3 =>
        (advance .dataIn s3.tol s3).andThen fun _ s4 => advance .dataOut s4.tol s4

/-- The two bit-sample markers of one bit read, at the positions it is read at (R180). -/
def putBitMarkers (s : State) : State :=
  putMarker .dataOut (s.pos .dataOut) .bitSample (putMarker .dataIn (s.pos .dataIn) .bitSample s)

/-- One bit of each line taken: its markers, its bit shifted in, and the bit period passed (R178, R182). -/
def takeBits (push : Bit → Bit → State → State) (bo bi : Bit) (s : State) : Result Unit :=
  bitPeriod (push bo bi (putBitMarkers s))

/-- PBIT's contract (R178): both lines are classified before either cursor moves. -/
def preambleBit (s : State) : Result Unit :=
  (readBit .dataIn s).andThen fun bo s1 =>
    (readBit .dataOut s1).andThen fun bi s2 => takeBits pushPreamble bo bi s2

/-- DBIT's contract (R182): raw levels (R148). -/
def payloadBit (s : State) : Result Unit :=
  (readLevel .dataIn s).andThen fun bo s1 =>
    (readLevel .dataOut s1).andThen fun bi s2 => takeBits pushPayload bo bi s2

/-- LENSEL's contract (R181). -/
def lengthSelect (s : State) : State := s.setAsm { s.asm with len := selectLen s.asm.mc }

/-- EMIT's contract (R183 to R185): the four frames with a drawn flags value each (R190), the two views, the commit. -/
def emitBatch (s : State) : State :=
  let a := s.asm
  let s1 := putFrame .modeControl a.preStart a.preEnd a.mc.toNat (Config.frameFlags s.draws) s
  let s2 := putFrame .instruction a.payStart a.payEnd a.ow.toNat (Config.frameFlags (s.draws + 1)) s1
  let s3 := putFrame .status a.preStart a.preEnd a.st.toNat (Config.frameFlags (s.draws + 2)) s2
  let s4 := putFrame .data a.payStart a.payEnd a.iw.toNat (Config.frameFlags (s.draws + 3)) s3
  let s5 := putViews (modeBit a.mc) (controlBit a.mc) (be4 a.ow) (status1Bit a.st) (status2Bit a.st) (be4 a.iw) s4
  s5.commitBatch.draw 4

/-- The start of a cycle: accumulators and batch cleared, PRE_START (R177). -/
def beginCycle (s : State) : State :=
  { s with asm := { s.asm with mc := 0, st := 0, ow := 0, iw := 0, preStart := s.pos .dataIn }, pending := [] }

/-- Between the phases: PRE_END, the length decision, PAY_START (R177). -/
def beginPayload (s : State) : State :=
  let s1 := lengthSelect (s.setAsm { s.asm with preEnd := s.pos .clock })
  s1.setAsm { s1.asm with payStart := s1.pos .dataIn }

/-- The end of a cycle: PAY_END, EMIT (R177). -/
def endCycle (s : State) : State := emitBatch (s.setAsm { s.asm with payEnd := s.pos .clock })

/-- A capture cycle from its two phases (R177). -/
def capture (preamble payload : State → Result Unit) (s : State) : Result Unit :=
  (preamble (beginCycle s)).andThen fun _ s1 =>
    (payload (beginPayload s1)).andThen fun _ s2 => .done () (endCycle s2)

/-- CYCLE's contract (R177). -/
def captureCycle (s : State) : Result Unit :=
  capture (repeatOp 3 preambleBit) (fun t => repeatOp t.asm.len.bits payloadBit t) s

/-! ## The wire frame (R85) -/

/-- Bits of both lines taken, bit period by bit period. -/
def takeAll (push : Bit → Bit → State → State) : List (Bit × Bit) → State → Result Unit
  | [], s => .done () s
  | (bo, bi) :: bits, s => (takeBits push bo bi s).andThen fun _ t => takeAll push bits t

/-- A frame received from the wire: the capture cycle in which the two lines carry the frame's own bits, one a bit
period on both lines at once (R85; log entry 14). -/
def receiveFrame (mc st : BitVec 3) (ow iw : BitVec 32) (s : State) : Result Unit :=
  capture (takeAll pushPreamble ((wireBits 3 mc).zip (wireBits 3 st)))
    (fun t => takeAll pushPayload ((wireBits t.asm.len.bits ow).zip (wireBits t.asm.len.bits iw)) t) s

/-! ## Meanings -/

/-- CYCLE (R177). -/
def execCycle (s : State) : Host.Outcome State Fault Refusal := issueIn .running (silent captureCycle) s

/-- PBIT (R178). -/
def execPbit (s : State) : Host.Outcome State Fault Refusal := issueIn .running (silent preambleBit) s

/-- PERIOD (R179). -/
def execPeriod (s : State) : Host.Outcome State Fault Refusal := issueIn .running (silent bitPeriod) s

/-- LENSEL (R181). -/
def execLensel (s : State) : Host.Outcome State Fault Refusal :=
  issueIn .running (silent fun t => .done () (lengthSelect t)) s

/-- DBIT (R182). -/
def execDbit (s : State) : Host.Outcome State Fault Refusal := issueIn .running (silent payloadBit) s

/-- EMIT (R183). -/
def execEmit (s : State) : Host.Outcome State Fault Refusal :=
  issueIn .running (silent fun t => .done () (emitBatch t)) s

/-- BDM_FRAME (R85): the effect of receiving this frame (log entry 14). -/
def execBdmFrame (mc st : BitVec 3) (ow iw : BitVec 32) (s : State) : Host.Outcome State Fault Refusal :=
  issueIn .running (silent (receiveFrame mc st ow iw)) s

/-- Marker (R92): this marker put out (log entry 15). -/
def execMarker (c : Role) (p : Nat) (kind : MarkerKind) (s : State) : Host.Outcome State Fault Refusal :=
  issueIn .running (silent fun t => .done () (putMarker c p kind t)) s

/-- Frame (R93): this framed record put out (log entry 15). -/
def execFrame (kind : FrameKind) (first last value : Nat) (flags : Byte) (s : State) :
    Host.Outcome State Fault Refusal :=
  issueIn .running (silent fun t => .done () (putFrame kind first last value flags t)) s

/-- OutView and InView (R94): these views put out (log entry 15). -/
def execOutViewInView (mode control : Bit) (instruction : Bytes4) (status1 status2 : Bit) (data : Bytes4) (s : State) :
    Host.Outcome State Fault Refusal :=
  issueIn .running (silent fun t => .done () (putViews mode control instruction status1 status2 data t)) s

/-- Commit (R95): it closes the batch before it (log entry 15). -/
def execCommit (s : State) : Host.Outcome State Fault Refusal :=
  issueIn .running (silent fun t => .done () t.commitBatch) s

end Sys2Proof.Machine
end

