-- ==== Sys2Proof/Machine/Cursors.lean ====
section
/-! DEFINITION. channel_cursor_mux (spec/41_channel_cursor_mux.md), clock_synchronizer (spec/42_clock_synchronizer.md) and
jitter_classifier (spec/43_jitter_classifier.md): the operations on cursors. All are enabled in Running (R42). -/

namespace Sys2Proof.Machine

/-- LVL (R116). -/
def execLvl (c : Role) (s : State) : Host.Outcome State Fault Refusal :=
  issueIn .running (returnsBit (readLevel c)) s

/-- ADV (R117). -/
def execAdv (c : Role) (n : Nat) (s : State) : Host.Outcome State Fault Refusal :=
  issueIn .running (silent (advance c n)) s

/-- ADVE (R118). -/
def execAdve (c : Role) (s : State) : Host.Outcome State Fault Refusal :=
  issueIn .running (silent (advanceToEdge c)) s

/-- ADVA (R119). -/
def execAdva (c : Role) (q : Nat) (s : State) : Host.Outcome State Fault Refusal :=
  issueIn .running (silent (advanceTo c q)) s

/-- WTW (R120). -/
def execWtw (c : Role) (n : Nat) (s : State) : Host.Outcome State Fault Refusal :=
  issueIn .running (returnsBit (wouldTransition c n)) s

/-- POS (R121). -/
def execPos (c : Role) (s : State) : Host.Outcome State Fault Refusal :=
  issueIn .running (returnsNat (readPosition c)) s

/-- RSYNC (R135). -/
def execRsync (q : Nat) (s : State) : Host.Outcome State Fault Refusal :=
  issueIn .running (silent (resync q)) s

/-- RDBIT (R144, R146). -/
def execRdbit (c : Role) (s : State) : Host.Outcome State Fault Refusal :=
  issueIn .running (returnsBit (readBit c)) s

end Sys2Proof.Machine
end

