-- ==== Sys2Proof/Machine/Session.lean ====
section
/-! DEFINITION. Session start (R236) and the cancellation check (R156). -/

namespace Sys2Proof.Machine

/-- The tolerance window CFGCHK sets: the override if present, else derived (R12, R236). -/
def sessionTol (r : ConfigRegs) : Nat :=
  match r.tolOverride with
  | some v => v
  | none => Config.deriveT r.sampleRate r.bitRate

/-- CFGCHK's writes once the configuration is accepted and the first samples are there (R236). -/
def startSession (s : State) : State :=
  { s.placeAll s.params.startPos with tol := sessionTol s.cfg, link := .boot, status := .running }

/-- CFGCHK's contract (R236): the configuration is tested before any sample is needed (R221). -/
def checkConfig (s : State) : Result Unit :=
  if configInvalid s.cfg then .raised .configurationError
  else (needAll s.params.startPos s).andThen fun _ t => .done () (startSession t)

/-- CANCHK's contract (R156). -/
def cancelCheck (s : State) : State :=
  if s.cancelReq = true then cancelEntry s else s

/-- CFGCHK (R236), enabled in Init only (R42). -/
def execCfgchk (s : State) : Host.Outcome State Fault Refusal :=
  issueIn .init (silent checkConfig) s

/-- CANCHK (R156). -/
def execCanchk (s : State) : Host.Outcome State Fault Refusal :=
  issueIn .running (silent fun t => .done () (cancelCheck t)) s

end Sys2Proof.Machine
end

