-- ==== Sys2Proof/Machine/Link.lean ====
section
/-! DEFINITION. packet_state_machine (spec/44_packet_state_machine.md): the actions of the Link States and STEP, the loop's
one iteration. -/

namespace Sys2Proof.Machine

/-- BOOT's contract (R157). -/
def bootAction (s : State) : Result Unit :=
  (advanceToEdge .clock s).andThen fun _ s1 =>
    (if s1.lvl .clock = true then advanceToEdge .clock s1 else .done () s1).andThen fun _ s2 =>
      (resync (s2.pos .clock) s2).andThen fun _ s3 => .done () (s3.setLink .coreReady)

/-- CRDY's contract (R158). -/
def alignAction (s : State) : Result Unit :=
  let a := s.alignRole
  (advanceToEdge a s).andThen fun _ s1 =>
    (advance a s1.params.deadInterval s1).andThen fun _ s2 =>
      (if stillLow s2 a then advanceToEdge a s2 else .done () s2).andThen fun _ s3 =>
        let t := s3.pos a
        (resync t (putMarker a t .captureStart s3)).andThen fun _ s4 => .done () (s4.setLink .packetStart)

/-- PSTART's contract (R159): a target that is not ready is no fault and no event (R220). -/
def packetAction (s : State) : Result Unit :=
  if targetReady s then (captureCycle s).andThen fun _ t => .done () (t.setLink .coreReady)
  else .done () (s.setLink .coreReady)

/-- INERT's contract (R160). -/
def inertAction (s : State) : Result Unit := .done () s

/-- The action that STEP dispatches to (R155). -/
def linkAction (s : State) : Result Unit :=
  match s.link with
  | .boot => bootAction s
  | .clockSelectHold => inertAction s
  | .coreBootHold => inertAction s
  | .debugModeSet => inertAction s
  | .coreReadyHold => inertAction s
  | .coreReady => alignAction s
  | .packetStart => packetAction s

/-- STEP's contract (R155): CANCHK first, and nothing after it cancels. -/
def loopIteration (s : State) : Result Unit :=
  let t := cancelCheck s
  if t.status = .cancelled then .done () t else linkAction t

/-- STEP (R155). -/
def execStep (s : State) : Host.Outcome State Fault Refusal := issueIn .running (silent loopIteration) s

/-- BOOT (R157). -/
def execBoot (s : State) : Host.Outcome State Fault Refusal := issueIn .running (silent bootAction) s

/-- CRDY (R158). -/
def execCrdy (s : State) : Host.Outcome State Fault Refusal := issueIn .running (silent alignAction) s

/-- PSTART (R159). -/
def execPstart (s : State) : Host.Outcome State Fault Refusal := issueIn .running (silent packetAction) s

/-- INERT (R160). -/
def execInert (s : State) : Host.Outcome State Fault Refusal := issueIn .running (silent inertAction) s

end Sys2Proof.Machine
end

