-- ==== Sys2Proof/Machine/Reserved.lean ====
section
/-! DEFINITION. The reserved operation words (R103, R104, R213): issued in Running they end the session with
IllegalOperation; in any other status they are refused with no effect. Each row has a definition of its own. No operand is
read, so a channel field is not looked at. -/

namespace Sys2Proof.Machine

/-- reserved__LVL_ch_7 (R104). -/
def execReservedLvlCh7 (s : State) : Host.Outcome State Fault Refusal :=
  issueIn .running illegalOperation s

/-- reserved__ADV_ch_7 (R104). -/
def execReservedAdvCh7 (s : State) : Host.Outcome State Fault Refusal :=
  issueIn .running illegalOperation s

/-- reserved__ADVE_ch_7 (R104). -/
def execReservedAdveCh7 (s : State) : Host.Outcome State Fault Refusal :=
  issueIn .running illegalOperation s

/-- reserved__ADVA_ch_7 (R104). -/
def execReservedAdvaCh7 (s : State) : Host.Outcome State Fault Refusal :=
  issueIn .running illegalOperation s

/-- reserved__WTW_ch_7 (R104). -/
def execReservedWtwCh7 (s : State) : Host.Outcome State Fault Refusal :=
  issueIn .running illegalOperation s

/-- reserved__POS_ch_7 (R104). -/
def execReservedPosCh7 (s : State) : Host.Outcome State Fault Refusal :=
  issueIn .running illegalOperation s

/-- reserved__RDBIT_ch_7 (R104). -/
def execReservedRdbitCh7 (s : State) : Host.Outcome State Fault Refusal :=
  issueIn .running illegalOperation s

/-- reserved__RSYNC_ch_0 (R104). -/
def execReservedRsyncCh (_c : BitVec 3) (s : State) : Host.Outcome State Fault Refusal :=
  issueIn .running illegalOperation s

/-- reserved__CFGCHK_ch_0 (R104). -/
def execReservedCfgchkCh (_c : BitVec 3) (s : State) : Host.Outcome State Fault Refusal :=
  issueIn .running illegalOperation s

/-- reserved__CANCHK_ch_0 (R104). -/
def execReservedCanchkCh (_c : BitVec 3) (s : State) : Host.Outcome State Fault Refusal :=
  issueIn .running illegalOperation s

/-- reserved__STEP_ch_0 (R104). -/
def execReservedStepCh (_c : BitVec 3) (s : State) : Host.Outcome State Fault Refusal :=
  issueIn .running illegalOperation s

/-- reserved__BOOT_ch_0 (R104). -/
def execReservedBootCh (_c : BitVec 3) (s : State) : Host.Outcome State Fault Refusal :=
  issueIn .running illegalOperation s

/-- reserved__CRDY_ch_0 (R104). -/
def execReservedCrdyCh (_c : BitVec 3) (s : State) : Host.Outcome State Fault Refusal :=
  issueIn .running illegalOperation s

/-- reserved__PSTART_ch_0 (R104). -/
def execReservedPstartCh (_c : BitVec 3) (s : State) : Host.Outcome State Fault Refusal :=
  issueIn .running illegalOperation s

/-- reserved__INERT_ch_0 (R104). -/
def execReservedInertCh (_c : BitVec 3) (s : State) : Host.Outcome State Fault Refusal :=
  issueIn .running illegalOperation s

/-- reserved__CYCLE_ch_0 (R104). -/
def execReservedCycleCh (_c : BitVec 3) (s : State) : Host.Outcome State Fault Refusal :=
  issueIn .running illegalOperation s

/-- reserved__PBIT_ch_0 (R104). -/
def execReservedPbitCh (_c : BitVec 3) (s : State) : Host.Outcome State Fault Refusal :=
  issueIn .running illegalOperation s

/-- reserved__PERIOD_ch_0 (R104). -/
def execReservedPeriodCh (_c : BitVec 3) (s : State) : Host.Outcome State Fault Refusal :=
  issueIn .running illegalOperation s

/-- reserved__LENSEL_ch_0 (R104). -/
def execReservedLenselCh (_c : BitVec 3) (s : State) : Host.Outcome State Fault Refusal :=
  issueIn .running illegalOperation s

/-- reserved__DBIT_ch_0 (R104). -/
def execReservedDbitCh (_c : BitVec 3) (s : State) : Host.Outcome State Fault Refusal :=
  issueIn .running illegalOperation s

/-- reserved__EMIT_ch_0 (R104). -/
def execReservedEmitCh (_c : BitVec 3) (s : State) : Host.Outcome State Fault Refusal :=
  issueIn .running illegalOperation s

/-- reserved__opcode_0x15 (R103). -/
def execReservedOpcode15 (_c : BitVec 3) (s : State) : Host.Outcome State Fault Refusal :=
  issueIn .running illegalOperation s

/-- reserved__opcode_0x16 (R103). -/
def execReservedOpcode16 (_c : BitVec 3) (s : State) : Host.Outcome State Fault Refusal :=
  issueIn .running illegalOperation s

/-- reserved__opcode_0x17 (R103). -/
def execReservedOpcode17 (_c : BitVec 3) (s : State) : Host.Outcome State Fault Refusal :=
  issueIn .running illegalOperation s

/-- reserved__opcode_0x18 (R103). -/
def execReservedOpcode18 (_c : BitVec 3) (s : State) : Host.Outcome State Fault Refusal :=
  issueIn .running illegalOperation s

/-- reserved__opcode_0x19 (R103). -/
def execReservedOpcode19 (_c : BitVec 3) (s : State) : Host.Outcome State Fault Refusal :=
  issueIn .running illegalOperation s

/-- reserved__opcode_0x1A (R103). -/
def execReservedOpcode1A (_c : BitVec 3) (s : State) : Host.Outcome State Fault Refusal :=
  issueIn .running illegalOperation s

/-- reserved__opcode_0x1B (R103). -/
def execReservedOpcode1B (_c : BitVec 3) (s : State) : Host.Outcome State Fault Refusal :=
  issueIn .running illegalOperation s

/-- reserved__opcode_0x1C (R103). -/
def execReservedOpcode1C (_c : BitVec 3) (s : State) : Host.Outcome State Fault Refusal :=
  issueIn .running illegalOperation s

/-- reserved__opcode_0x1D (R103). -/
def execReservedOpcode1D (_c : BitVec 3) (s : State) : Host.Outcome State Fault Refusal :=
  issueIn .running illegalOperation s

/-- reserved__opcode_0x1E (R103). -/
def execReservedOpcode1E (_c : BitVec 3) (s : State) : Host.Outcome State Fault Refusal :=
  issueIn .running illegalOperation s

/-- reserved__opcode_0x1F (R103). -/
def execReservedOpcode1F (_c : BitVec 3) (s : State) : Host.Outcome State Fault Refusal :=
  issueIn .running illegalOperation s

end Sys2Proof.Machine
end

