-- ==== Sys2Proof/Machine/Dispatch.lean ====
section
/-! DEFINITION. One arm for each instruction. -/

namespace Sys2Proof.Machine

def exec (i : Instr) (s : State) : Host.Outcome State Fault Refusal :=
  match i with
  | .lvl c => Sys2Proof.Machine.execLvl c s
  | .adv c n => Sys2Proof.Machine.execAdv c n s
  | .adve c => Sys2Proof.Machine.execAdve c s
  | .adva c q => Sys2Proof.Machine.execAdva c q s
  | .wtw c n => Sys2Proof.Machine.execWtw c n s
  | .pos c => Sys2Proof.Machine.execPos c s
  | .rsync q => Sys2Proof.Machine.execRsync q s
  | .rdbit c => Sys2Proof.Machine.execRdbit c s
  | .cfgchk => Sys2Proof.Machine.execCfgchk s
  | .canchk => Sys2Proof.Machine.execCanchk s
  | .step => Sys2Proof.Machine.execStep s
  | .boot => Sys2Proof.Machine.execBoot s
  | .crdy => Sys2Proof.Machine.execCrdy s
  | .pstart => Sys2Proof.Machine.execPstart s
  | .inert => Sys2Proof.Machine.execInert s
  | .cycle => Sys2Proof.Machine.execCycle s
  | .pbit => Sys2Proof.Machine.execPbit s
  | .period => Sys2Proof.Machine.execPeriod s
  | .lensel => Sys2Proof.Machine.execLensel s
  | .dbit => Sys2Proof.Machine.execDbit s
  | .emit => Sys2Proof.Machine.execEmit s
  | .reservedLvlCh7 => Sys2Proof.Machine.execReservedLvlCh7 s
  | .reservedAdvCh7 => Sys2Proof.Machine.execReservedAdvCh7 s
  | .reservedAdveCh7 => Sys2Proof.Machine.execReservedAdveCh7 s
  | .reservedAdvaCh7 => Sys2Proof.Machine.execReservedAdvaCh7 s
  | .reservedWtwCh7 => Sys2Proof.Machine.execReservedWtwCh7 s
  | .reservedPosCh7 => Sys2Proof.Machine.execReservedPosCh7 s
  | .reservedRdbitCh7 => Sys2Proof.Machine.execReservedRdbitCh7 s
  | .reservedRsyncCh c => Sys2Proof.Machine.execReservedRsyncCh c s
  | .reservedCfgchkCh c => Sys2Proof.Machine.execReservedCfgchkCh c s
  | .reservedCanchkCh c => Sys2Proof.Machine.execReservedCanchkCh c s
  | .reservedStepCh c => Sys2Proof.Machine.execReservedStepCh c s
  | .reservedBootCh c => Sys2Proof.Machine.execReservedBootCh c s
  | .reservedCrdyCh c => Sys2Proof.Machine.execReservedCrdyCh c s
  | .reservedPstartCh c => Sys2Proof.Machine.execReservedPstartCh c s
  | .reservedInertCh c => Sys2Proof.Machine.execReservedInertCh c s
  | .reservedCycleCh c => Sys2Proof.Machine.execReservedCycleCh c s
  | .reservedPbitCh c => Sys2Proof.Machine.execReservedPbitCh c s
  | .reservedPeriodCh c => Sys2Proof.Machine.execReservedPeriodCh c s
  | .reservedLenselCh c => Sys2Proof.Machine.execReservedLenselCh c s
  | .reservedDbitCh c => Sys2Proof.Machine.execReservedDbitCh c s
  | .reservedEmitCh c => Sys2Proof.Machine.execReservedEmitCh c s
  | .reservedOpcode15 c => Sys2Proof.Machine.execReservedOpcode15 c s
  | .reservedOpcode16 c => Sys2Proof.Machine.execReservedOpcode16 c s
  | .reservedOpcode17 c => Sys2Proof.Machine.execReservedOpcode17 c s
  | .reservedOpcode18 c => Sys2Proof.Machine.execReservedOpcode18 c s
  | .reservedOpcode19 c => Sys2Proof.Machine.execReservedOpcode19 c s
  | .reservedOpcode1A c => Sys2Proof.Machine.execReservedOpcode1A c s
  | .reservedOpcode1B c => Sys2Proof.Machine.execReservedOpcode1B c s
  | .reservedOpcode1C c => Sys2Proof.Machine.execReservedOpcode1C c s
  | .reservedOpcode1D c => Sys2Proof.Machine.execReservedOpcode1D c s
  | .reservedOpcode1E c => Sys2Proof.Machine.execReservedOpcode1E c s
  | .reservedOpcode1F c => Sys2Proof.Machine.execReservedOpcode1F c s
  | .bdmFrame mc st ow iw => Sys2Proof.Machine.execBdmFrame mc st ow iw s
  | .marker c p kind => Sys2Proof.Machine.execMarker c p kind s
  | .frame kind first last value flags => Sys2Proof.Machine.execFrame kind first last value flags s
  | .outViewInView mode control instruction status1 status2 data => Sys2Proof.Machine.execOutViewInView mode control instruction status1 status2 data s
  | .commit => Sys2Proof.Machine.execCommit s

end Sys2Proof.Machine
end

