-- ==== Sys2Proof/Machine/Sequencer.lean ====
section
/-! DEFINITION. What one step of the machine does around `exec`: the host's turns (R237), the test port and the sequencer
that issue operations (R100, R239), and the retry of a held operation beside the held cancel (R216, R221). -/

namespace Sys2Proof.Machine

/-! ## The host (R237) -/

/-- What the host reads: STATUS and FAULT_CODE by their codes (R99), LOG, and `T` (R10, R37, R227, R237; log entry 26). -/
def hostRead (r : HostReg) (s : State) : RegValue :=
  match r with
  | .tol => .nat s.tol
  | .status => .bits s.status.code
  | .faultCode => .bits s.faultCode.code
  | .log => .events s.log

/-- A configuration register written: in Init alone; later the host makes no such move and nothing changes (R37, R237,
R246). -/
def writeConfig (f : ConfigRegs → ConfigRegs) (s : State) : State :=
  if s.status = .init then { s with cfg := f s.cfg } else s

/-- A new session on the same instance (R235, R247): every register as after reset; the streams, the parameters and what
the outside does next are not the session's (log entry 16). -/
def freshSession (s : State) : State :=
  { State.reset with streams := s.streams, params := s.params, turns := s.turns, draws := s.draws }

/-- One turn of the outside world. `run` is the block's move, not the host's, and changes nothing here. -/
def hostTurn (t : Turn) (s : State) : State :=
  match t with
  | .setSampleRate n => writeConfig (fun r => { r with sampleRate := n }) s
  | .setBitRate n => writeConfig (fun r => { r with bitRate := n }) s
  | .setTolOverride n => writeConfig (fun r => { r with tolOverride := n }) s
  | .setBinding b => writeConfig (fun r => { r with binding := b }) s
  | .produce k l n => { s with streams := Memory.produce s.streams k l n }
  | .endStream k => { s with streams := Memory.endStream s.streams k }
  | .requestCancel => { s with cancelReq := true }
  | .read r => { s with hostOut := some (hostRead r s) }
  | .newSession => freshSession s
  | .issue w a => { s with port := s.port ++ [⟨w, a⟩] }
  | .run => s

/-! ## Issuing an operation -/

/-- The operation the sequencer issues: CFGCHK once, then STEP for as long as the session runs (R238, R239). -/
def sequencerOp (s : State) : Option Instr :=
  match s.status with
  | .init => some .cfgchk
  | .running => some .step
  | .cancelled => none
  | .faulted => none

/-- After an attempt: a held operation stays, to be re-attempted (R17, R239). -/
def keepIfHeld (i : Instr) (t : State) : State :=
  match t.resp with
  | .held _ => { t with inFlight := some i }
  | .idle => { t with inFlight := none }
  | .completed _ => { t with inFlight := none }
  | .faulted => { t with inFlight := none }
  | .refused => { t with inFlight := none }
  | .abandoned => { t with inFlight := none }

/-- An outcome's next state changed. -/
def mapNext (f : State → State) (o : Host.Outcome State Fault Refusal) : Host.Outcome State Fault Refusal :=
  match o with
  | .next t => .next (f t)
  | .fault r => .fault r
  | .refused r => .refused r

/-- A first attempt at an operation. -/
def attempt (i : Instr) (s : State) : Host.Outcome State Fault Refusal :=
  mapNext (keepIfHeld i) (exec i s)

/-- A held operation attempted again. A held STEP is past its CANCHK: it is re-attempted, not re-issued (R239). -/
def execHeld (i : Instr) (s : State) : Host.Outcome State Fault Refusal :=
  if i = .step then issueIn .running (silent linkAction) s else exec i s

/-- The held cancel (R216). -/
def heldCancel (s : State) : State :=
  (cancelEntry { s with inFlight := none }).answer .abandoned

/-- A re-attempt whose hold can never lift gives way to the cancel that is due (R216). DESIGN CHOICE (log entry 4): the
moment, and how it is found: the hold is judged by the first need that is not met (R221; RSYNC's and CFGCHK's on all seven
streams is one need), so a composite that waits on a live stream while a later need of it is on an ended one is not yet
found stuck, and the free choice of `resumeHeld` still decides. -/
def cancelIfStuck (t : State) : State :=
  if t.resp = .held true then heldCancel t else t

/-- The next move of a block that holds: with a cancel requested in Running, the held cancel and the operation's
completion are both admitted and a free choice takes one (R216, R221); otherwise the operation is attempted again. -/
def resumeHeld (i : Instr) (s : State) : Host.Outcome State Fault Refusal :=
  if s.status = .running ∧ s.cancelReq = true then
    if Config.heldCancelFirst s.draws then .next (heldCancel (s.draw 1))
    else mapNext (fun t => cancelIfStuck (keepIfHeld i t)) (execHeld i (s.draw 1))
  else mapNext (keepIfHeld i) (execHeld i s)

/-- The block's next move: a held operation first, then what waits at the test port, then the sequencer's own operation.
With none of them the run has ended (R240). -/
def blockMove (s : State) : Host.Outcome State Fault Refusal :=
  match s.inFlight with
  | some i => resumeHeld i s
  | none =>
    match s.port with
    | p :: ps => attempt (decodeWord p.word p.operand) { s with port := ps }
    | [] =>
      match sequencerOp s with
      | some i => attempt i s
      | none => .refused .sessionEnded

/-- The block has no move: nothing is in flight, nothing waits at the test port, and the run has ended (R240). -/
def blockIdle (s : State) : Bool := s.inFlight.isNone && s.port.isEmpty && (sequencerOp s).isNone

/-- One step: the outside's next turn, or the block's move. DESIGN CHOICE (log entry 27): a turn that lets a block move that
has no move passes with nothing done, and what the outside does next still comes. -/
def machineMove (s : State) : Host.Outcome State Fault Refusal :=
  match s.turns with
  | [] => blockMove s
  | .run :: ts => if blockIdle s then .next { s with turns := ts } else blockMove { s with turns := ts }
  | t :: ts => .next (hostTurn t { s with turns := ts })

/-- An operation word put at the test port so that the next step issues it: the outside's next turn is the block's, and
nothing is in flight before it (R100). -/
def loadPort (p : PortOp) (s : State) : State :=
  { s with turns := .run :: s.turns, port := p :: s.port, inFlight := none }

/-- The operation word and operand of `nbits` bits numbered as the opcode table numbers them. -/
def tablePortOp (nbits w : Nat) : PortOp :=
  ⟨BitVec.ofNat 8 (w % 2 ^ nbits), w % 2 ^ nbits / 256⟩

end Sys2Proof.Machine
end

