-- ==== Sys2Proof/Machine/Step.lean ====
section
/-! DEFINITION. One step of the machine, and how the host places an instruction. -/

namespace Sys2Proof.Machine

/-- One step (Machine/Sequencer.lean). -/
def step (s : State) : Host.Outcome State Fault Refusal := machineMove s

/-- The instruction of the opcode table's bits put at the test port, where the next step issues it (log entry 7). -/
def State.withFetchWord (s : State) (nbits w : Nat) : State := loadPort (tablePortOp nbits w) s

end Sys2Proof.Machine
end

