-- ==== Sys2Proof/WellFormed.lean ====
section
/-! DEFINITION. Which instructions the spec's encodings can express. An operand whose type already bounds it (a role, a
natural, a u8) has no check. -/

namespace Sys2Proof

/-- A payload word holds only its `LEN` low bits: for `LEN = 7`, bits 31 to 7 are 0 (R88). -/
def payloadFits (mc : BitVec 3) (v : BitVec 32) : Bool :=
  v.toNat < 2 ^ (selectLen mc).bits

/-- The check, constructor by constructor. A non-channel operation's reserved row has a nonzero channel field (R104), a
frame's payload words fit its length (R88), a framed record's value fits its kind's width (R93). -/
def Instr.wf : Instr → Bool
  | .lvl _ => true
  | .adv _ _ => true
  | .adve _ => true
  | .adva _ _ => true
  | .wtw _ _ => true
  | .pos _ => true
  | .rsync _ => true
  | .rdbit _ => true
  | .cfgchk => true
  | .canchk => true
  | .step => true
  | .boot => true
  | .crdy => true
  | .pstart => true
  | .inert => true
  | .cycle => true
  | .pbit => true
  | .period => true
  | .lensel => true
  | .dbit => true
  | .emit => true
  | .reservedLvlCh7 => true
  | .reservedAdvCh7 => true
  | .reservedAdveCh7 => true
  | .reservedAdvaCh7 => true
  | .reservedWtwCh7 => true
  | .reservedPosCh7 => true
  | .reservedRdbitCh7 => true
  | .reservedRsyncCh c => c != 0
  | .reservedCfgchkCh c => c != 0
  | .reservedCanchkCh c => c != 0
  | .reservedStepCh c => c != 0
  | .reservedBootCh c => c != 0
  | .reservedCrdyCh c => c != 0
  | .reservedPstartCh c => c != 0
  | .reservedInertCh c => c != 0
  | .reservedCycleCh c => c != 0
  | .reservedPbitCh c => c != 0
  | .reservedPeriodCh c => c != 0
  | .reservedLenselCh c => c != 0
  | .reservedDbitCh c => c != 0
  | .reservedEmitCh c => c != 0
  | .reservedOpcode15 _ => true
  | .reservedOpcode16 _ => true
  | .reservedOpcode17 _ => true
  | .reservedOpcode18 _ => true
  | .reservedOpcode19 _ => true
  | .reservedOpcode1A _ => true
  | .reservedOpcode1B _ => true
  | .reservedOpcode1C _ => true
  | .reservedOpcode1D _ => true
  | .reservedOpcode1E _ => true
  | .reservedOpcode1F _ => true
  | .bdmFrame mc _ ow iw => payloadFits mc ow && payloadFits mc iw
  | .marker _ _ _ => true
  | .frame kind _ _ value _ => value < kind.valueBound
  | .outViewInView _ _ _ _ _ _ => true
  | .commit => true

/-- A well-formed instruction. -/
abbrev Instr.WF (i : Instr) : Prop := i.wf = true

end Sys2Proof
end

