-- ==== Sys2Proof/Safety.lean ====
section
/-! DEFINITION. The terms claims are stated in: edges and bit periods of the clock, what a capture cycle yields, which
states a session may be in, and how a run ends. -/

namespace Sys2Proof.Machine

/-! ## Edges and windows of a stream, told from its samples -/

/-- `e` is the first index above `p` whose sample differs from the sample at `p`: the next edge after `p` (R16, R118). -/
abbrev EdgeAt (s : State) (c : Role) (p e : Nat) : Prop :=
  p < e ∧ s.sample c e ≠ s.sample c p ∧ ∀ i < e, p < i → s.sample c i = s.sample c p

/-- `b` is the second clock edge after `a`: one bit period on (R179). -/
abbrev ClockPeriod (s : State) (a b : Nat) : Prop :=
  ∃ m < b, EdgeAt s .clock a m ∧ EdgeAt s .clock m b

/-- Some transition lies at an offset of 1 to `T+1` from `p` (R144, R145). -/
abbrev TransitionNear (s : State) (c : Role) (p : Nat) : Prop :=
  ∃ k < s.tol + 2, 1 ≤ k ∧ s.trans c (p + k) = true

/-- The bit RDBIT reports for a cursor at `p`: the default of R145, or the variant of R146. -/
def classifiedAt (s : State) (c : Role) (p : Nat) : Bit :=
  if s.params.glitchConfirm then
    if TransitionNear s c p ∧ s.sample c (p + s.tol + 2) ≠ s.sample c p then !s.sample c p else s.sample c p
  else if TransitionNear s c p then !s.sample c p else s.sample c p

/-- How far above the cursor RDBIT reads: `T+1`, and one more for the variant (R144, R146). -/
def classifierReach (s : State) : Nat := s.tol + if s.params.glitchConfirm then 2 else 1

/-- Every cursor's level is the sample at its position (R22). -/
def State.Consistent (s : State) : Prop := ∀ c, s.lvl c = s.sample c (s.pos c)

/-- The cursors after a bit period that ends at clock position `e`: the data cursors `T` beyond it, the others at it
(R179, R189). -/
def periodCursors (s : State) (e : Nat) : RoleMap Cursor :=
  RoleMap.ofRoles fun c =>
    if c = .dataIn ∨ c = .dataOut then ⟨e + s.tol, s.sample c (e + s.tol)⟩ else ⟨e, s.sample c e⟩

/-! ## A capture cycle -/

/-- The clock positions `ck 0, ck 1, …, ck n` of a cycle of `n` bit periods: each period is two clock edges, no data
cursor is past the clock when it is resynchronised (R241), and every sample the periods read is produced. -/
structure CycleClock (s : State) (ck : Nat → Nat) (n : Nat) : Prop where
  start : ck 0 = s.pos .clock
  periods : ∀ k < n, ClockPeriod s (ck k) (ck (k + 1))
  entry : ∀ c, s.pos c ≤ ck 1
  nudge : ∀ k, 1 ≤ k → k < n → ck k + s.tol ≤ ck (k + 1)
  produced : ∀ c, ck n < s.avail c
  producedIn : ck n + s.tol < s.avail .dataIn
  producedOut : ck n + s.tol < s.avail .dataOut

/-- Where bit `k` of a cycle is read on a data line (R189). -/
def readAt (s : State) (ck : Nat → Nat) (c : Role) (k : Nat) : Nat :=
  if k = 0 then s.pos c else ck k + s.tol

/-- The classifier's windows of the three preamble bits are produced on both data lines (R178). -/
def PreambleProduced (s : State) (ck : Nat → Nat) : Prop :=
  ∀ k < 3, readAt s ck .dataIn k + classifierReach s < s.avail .dataIn ∧
    readAt s ck .dataOut k + classifierReach s < s.avail .dataOut

/-- A preamble field as the classifier reads it, first bit first (R178). -/
def preambleField (s : State) (ck : Nat → Nat) (c : Role) : BitVec 3 :=
  assemble ((List.range 3).map fun k => classifiedAt s c (readAt s ck c k))

/-- A payload field of `n` raw bits, first bit first (R182). -/
def payloadField (s : State) (ck : Nat → Nat) (c : Role) (n : Nat) : BitVec 32 :=
  assemble ((List.range n).map fun j => s.sample c (readAt s ck c (3 + j)))

/-- The number of bit periods of a frame: `3 + LEN` (R85, R188). -/
def framePeriods (mc : BitVec 3) : Nat := 3 + (selectLen mc).bits

/-- The bit-sample markers of a cycle of `n` bit reads, DataIn before DataOut for each (R180, R183). -/
def cycleMarkers (s : State) (ck : Nat → Nat) (n : Nat) : List Event :=
  (List.range n).flatMap fun k =>
    [.marker .dataIn (readAt s ck .dataIn k) .bitSample, .marker .dataOut (readAt s ck .dataOut k) .bitSample]

/-- The records of a batch after its markers, with the flags drawn from the `d`-th draw on (R183 to R185, R190). -/
def batchRecords (a : Assembler) (d : Nat) : List Event :=
  [.frame .modeControl a.preStart a.preEnd a.mc.toNat (Config.frameFlags d),
    .frame .instruction a.payStart a.payEnd a.ow.toNat (Config.frameFlags (d + 1)),
    .frame .status a.preStart a.preEnd a.st.toNat (Config.frameFlags (d + 2)),
    .frame .data a.payStart a.payEnd a.iw.toNat (Config.frameFlags (d + 3)),
    .outView (a.mc.getLsbD 1) (a.mc.getLsbD 0) (be4 a.ow),
    .inView (a.st.getLsbD 1) (a.st.getLsbD 0) (be4 a.iw)]

/-- The assembler registers after a cycle that carried these fields (R177, R189). -/
def cycleAssembler (s : State) (ck : Nat → Nat) (mc st : BitVec 3) (ow iw : BitVec 32) : Assembler where
  mc := mc
  st := st
  ow := ow
  iw := iw
  len := selectLen mc
  preStart := s.pos .dataIn
  preEnd := ck 3
  payStart := ck 3 + s.tol
  payEnd := ck (framePeriods mc)

/-- The state after a completed cycle that carried these fields, before its issuer is answered (R177, R183, R189). -/
def cycleResult (s : State) (ck : Nat → Nat) (mc st : BitVec 3) (ow iw : BitVec 32) : State :=
  { s with
    cur := periodCursors s (ck (framePeriods mc))
    asm := cycleAssembler s ck mc st ow iw
    pending := []
    log := s.log ++ cycleMarkers s ck (framePeriods mc) ++ batchRecords (cycleAssembler s ck mc st ow iw) s.draws ++
      [.commit]
    draws := s.draws + 4 }

/-! ## Which states a session may be in -/

/-- The Link States that are no placeholder (R163). -/
def LinkReachable (l : LinkState) : Prop := l = .boot ∨ l = .coreReady ∨ l = .packetStart

/-- The session invariant: canonical sample spaces, a fault code exactly when faulted (R43), no batch pending once the
session has ended (R45), produced and consistent cursors while it runs (R22, R63), a Link State that is no placeholder
until a fault leaves it unspecified (R163, R218), and a held operation only while the session has not ended (R42). -/
structure SessionInv (s : State) : Prop where
  streams : Memory.wf s.streams
  code : s.status = .faulted ↔ s.faultCode ≠ .none
  ended : s.status = .cancelled ∨ s.status = .faulted → s.pending = []
  cursors : s.status = .running → ∀ c, s.pos c < s.avail c ∧ s.lvl c = s.sample c (s.pos c)
  link : s.status ≠ .faulted → LinkReachable s.link
  held : s.inFlight ≠ none → s.status = .init ∨ s.status = .running

/-- An event of a batch: not a capture-start marker, not a Commit (R78, R183). -/
def inBatch : Event → Bool
  | .marker _ _ .bitSample => true
  | .marker _ _ .captureStart => false
  | .frame _ _ _ _ _ => true
  | .outView _ _ _ => true
  | .inView _ _ _ => true
  | .commit => false

/-- From inside a batch (`open_`) or outside one, the rest of a log closes every batch with a Commit before a
capture-start marker and before its end (R78, R187, R240). -/
def batchesClose : Bool → List Event → Bool
  | open_, [] => !open_
  | open_, .marker _ _ .captureStart :: es => !open_ && batchesClose false es
  | _, .commit :: es => batchesClose false es
  | _, .marker _ _ .bitSample :: es => batchesClose true es
  | _, .frame _ _ _ _ _ :: es => batchesClose true es
  | _, .outView _ _ _ :: es => batchesClose true es
  | _, .inView _ _ _ :: es => batchesClose true es

/-- The sink invariant: the log is capture-start markers and whole batches each closed by its Commit (R240), and what is
pending is a batch's events. -/
structure SinkInv (s : State) : Prop where
  log : batchesClose false s.log = true
  pending : ∀ e ∈ s.pending, inBatch e = true

/-- The cursors as the sequencer leaves them before each action of a Link State (R164, R165). -/
def SequencerAligned (s : State) : Prop :=
  match s.link with
  | .boot => ∀ c, s.pos c = s.pos .clock
  | .clockSelectHold => True
  | .coreBootHold => True
  | .debugModeSet => True
  | .coreReadyHold => True
  | .coreReady => s.pos .dataIn = s.pos .dataOut ∧ ∀ c, s.pos c ≤ s.pos .dataIn
  | .packetStart => ∀ c, s.pos c = s.pos .clock

/-! ## Whose turn it is -/

/-- The block moves next, and `ts` are the outside's turns after it (log entry 6). -/
abbrev BlockTurn (s : State) (ts : List Turn) : Prop := s.turns = .run :: ts ∨ (s.turns = [] ∧ ts = [])

/-- The action of a Link State, as an instruction (R155). -/
def linkInstr : LinkState → Instr
  | .boot => .boot
  | .clockSelectHold => .inert
  | .coreBootHold => .inert
  | .debugModeSet => .inert
  | .coreReadyHold => .inert
  | .coreReady => .crdy
  | .packetStart => .pstart

/-- What the re-attempt of a held instruction runs: a held STEP is past its CANCHK, so its Link State's action (R239; log
entry 23), and any other instruction itself. -/
def heldInstr (i : Instr) (l : LinkState) : Instr := if i = .step then linkInstr l else i

/-! ## Faults and the end of a run -/

/-- A fault taken from `s` (R218): STATUS, FAULT_CODE and PENDING are written, no event reaches the log, and nothing else
changes but the registers that the rule leaves unspecified: the cursors, LINK, `T` and the assembler registers may hold
anything. -/
def FaultTaken (code : FaultCode) (s : State) (o : Host.Outcome State Fault Refusal) : Prop :=
  ∃ t, o = .next t ∧
    t = { s with
      status := .faulted
      faultCode := code
      pending := []
      resp := .faulted
      cur := t.cur
      link := t.link
      tol := t.tol
      asm := t.asm }


/-- A clean end (R240): Cancelled with no fault. -/
def CleanEnd (s : State) : Prop := s.status = .cancelled ∧ s.faultCode = .none

/-- An end that is not clean (R240). -/
def FaultedEnd (s : State) : Prop := s.status = .faulted

/-! ## Classes of instructions -/

/-- The rows of the reserved words (R103, R104). -/
def isReserved : Instr → Bool
  | .lvl _ => false
  | .adv _ _ => false
  | .adve _ => false
  | .adva _ _ => false
  | .wtw _ _ => false
  | .pos _ => false
  | .rsync _ => false
  | .rdbit _ => false
  | .cfgchk => false
  | .canchk => false
  | .step => false
  | .boot => false
  | .crdy => false
  | .pstart => false
  | .inert => false
  | .cycle => false
  | .pbit => false
  | .period => false
  | .lensel => false
  | .dbit => false
  | .emit => false
  | .reservedLvlCh7 => true
  | .reservedAdvCh7 => true
  | .reservedAdveCh7 => true
  | .reservedAdvaCh7 => true
  | .reservedWtwCh7 => true
  | .reservedPosCh7 => true
  | .reservedRdbitCh7 => true
  | .reservedRsyncCh _ => true
  | .reservedCfgchkCh _ => true
  | .reservedCanchkCh _ => true
  | .reservedStepCh _ => true
  | .reservedBootCh _ => true
  | .reservedCrdyCh _ => true
  | .reservedPstartCh _ => true
  | .reservedInertCh _ => true
  | .reservedCycleCh _ => true
  | .reservedPbitCh _ => true
  | .reservedPeriodCh _ => true
  | .reservedLenselCh _ => true
  | .reservedDbitCh _ => true
  | .reservedEmitCh _ => true
  | .reservedOpcode15 _ => true
  | .reservedOpcode16 _ => true
  | .reservedOpcode17 _ => true
  | .reservedOpcode18 _ => true
  | .reservedOpcode19 _ => true
  | .reservedOpcode1A _ => true
  | .reservedOpcode1B _ => true
  | .reservedOpcode1C _ => true
  | .reservedOpcode1D _ => true
  | .reservedOpcode1E _ => true
  | .reservedOpcode1F _ => true
  | .bdmFrame _ _ _ _ => false
  | .marker _ _ _ => false
  | .frame _ _ _ _ _ => false
  | .outViewInView _ _ _ _ _ _ => false
  | .commit => false

/-- The operations that can move a cursor backward, if they were let: ADVA, RSYNC, and what contains RSYNC (R210). The
wire frame is received by the capture cycle (log entry 14). -/
def movesToPosition : Instr → Bool
  | .lvl _ => false
  | .adv _ _ => false
  | .adve _ => false
  | .adva _ _ => true
  | .wtw _ _ => false
  | .pos _ => false
  | .rsync _ => true
  | .rdbit _ => false
  | .cfgchk => false
  | .canchk => false
  | .step => true
  | .boot => true
  | .crdy => true
  | .pstart => true
  | .inert => false
  | .cycle => true
  | .pbit => true
  | .period => true
  | .lensel => false
  | .dbit => true
  | .emit => false
  | .reservedLvlCh7 => false
  | .reservedAdvCh7 => false
  | .reservedAdveCh7 => false
  | .reservedAdvaCh7 => false
  | .reservedWtwCh7 => false
  | .reservedPosCh7 => false
  | .reservedRdbitCh7 => false
  | .reservedRsyncCh _ => false
  | .reservedCfgchkCh _ => false
  | .reservedCanchkCh _ => false
  | .reservedStepCh _ => false
  | .reservedBootCh _ => false
  | .reservedCrdyCh _ => false
  | .reservedPstartCh _ => false
  | .reservedInertCh _ => false
  | .reservedCycleCh _ => false
  | .reservedPbitCh _ => false
  | .reservedPeriodCh _ => false
  | .reservedLenselCh _ => false
  | .reservedDbitCh _ => false
  | .reservedEmitCh _ => false
  | .reservedOpcode15 _ => false
  | .reservedOpcode16 _ => false
  | .reservedOpcode17 _ => false
  | .reservedOpcode18 _ => false
  | .reservedOpcode19 _ => false
  | .reservedOpcode1A _ => false
  | .reservedOpcode1B _ => false
  | .reservedOpcode1C _ => false
  | .reservedOpcode1D _ => false
  | .reservedOpcode1E _ => false
  | .reservedOpcode1F _ => false
  | .bdmFrame _ _ _ _ => true
  | .marker _ _ _ => false
  | .frame _ _ _ _ _ => false
  | .outViewInView _ _ _ _ _ _ => false
  | .commit => false

end Sys2Proof.Machine
end

