-- ==== Sys2Proof/Certificates/Slice0/Obligations.lean ====
section
/-! DEFINITION. What is claimed of the machine, rule by rule. Each docstring names the rules and, where a clause rests on a
choice of the model, the log entry. -/

open Sys2Proof Sys2Proof.Machine

/-! ## Reset -/

/-- R48, R235: the values the spec states for a fresh session. The cursors, `T`, the configuration registers and the
environment, for which it states none, are not spoken of. -/
def Obligations.ResetIsAFreshSession : Prop :=
  State.reset.status = .init ∧ State.reset.faultCode = .none ∧ State.reset.cancelReq = false ∧
    State.reset.link = .boot ∧ State.reset.asm.mc = 0 ∧ State.reset.asm.st = 0 ∧ State.reset.asm.ow = 0 ∧
    State.reset.asm.iw = 0 ∧ State.reset.asm.len.bits = 32 ∧ State.reset.asm.preStart = 0 ∧
    State.reset.asm.preEnd = 0 ∧ State.reset.asm.payStart = 0 ∧ State.reset.asm.payEnd = 0 ∧
    State.reset.pending = [] ∧ State.reset.log = []

/-- The session invariant and the sink invariant hold at reset. -/
def Obligations.ResetMeetsTheInvariants : Prop := SessionInv State.reset ∧ SinkInv State.reset

/-! ## channel_cursor_mux -/

/-- R116, R121: LVL hands its issuer the cursor's level and POS its position; neither changes anything or holds. -/
def Obligations.LvlAndPosReadTheCursor : Prop :=
  ∀ (s : State) (c : Role), s.status = .running →
    exec (.lvl c) s = .next { s with resp := .completed (some (.bit (s.cur.get c).lvl)) } ∧
      exec (.pos c) s = .next { s with resp := .completed (some (.nat (s.cur.get c).pos)) }

/-- R117: ADV, word `0x08 | ch` with operand `n`, moves exactly `n` samples and updates the level, and holds while the
target sample is not produced; no other cursor and no other state changes (R115). -/
def Obligations.AdvMovesExactly : Prop :=
  ∀ (s : State) (c : Role) (n : Nat), s.status = .running →
    decodeWord (0x08 ||| c.code.setWidth 8) n = .adv c n ∧
    (s.pos c + n < s.avail c →
      exec (.adv c n) s =
        .next { s with cur := s.cur.set c ⟨s.pos c + n, s.sample c (s.pos c + n)⟩, resp := .completed none }) ∧
    (s.avail c ≤ s.pos c + n → exec (.adv c n) s = .next { s with resp := .held (s.ended c) })

/-- R118: ADVE, word `0x10 | ch`, moves to the least index above the cursor whose sample is not the cursor's level,
inverts the level, and holds while no such index is produced. -/
def Obligations.AdveMovesToTheNextEdge : Prop :=
  ∀ (s : State) (c : Role), s.status = .running →
    decodeWord (0x10 ||| c.code.setWidth 8) 0 = .adve c ∧
    (∀ e, s.pos c < e → e < s.avail c → s.sample c e ≠ s.lvl c →
      (∀ i, s.pos c < i → i < e → s.sample c i = s.lvl c) →
      exec (.adve c) s = .next { s with cur := s.cur.set c ⟨e, !s.lvl c⟩, resp := .completed none }) ∧
    ((∀ i, s.pos c < i → i < s.avail c → s.sample c i = s.lvl c) →
      exec (.adve c) s = .next { s with resp := .held (s.ended c) })

/-- R119: ADVA, word `0x18 | ch` with operand `q`, moves to an absolute position, faults if the cursor is past it,
produced or not, and otherwise holds while the sample is not produced. -/
def Obligations.AdvaMovesOrFaults : Prop :=
  ∀ (s : State) (c : Role) (q : Nat), s.status = .running →
    decodeWord (0x18 ||| c.code.setWidth 8) q = .adva c q ∧
    (q < s.pos c → FaultTaken .streamPositionViolation s (exec (.adva c q) s)) ∧
    (s.pos c ≤ q → q < s.avail c →
      exec (.adva c q) s = .next { s with cur := s.cur.set c ⟨q, s.sample c q⟩, resp := .completed none }) ∧
    (s.pos c ≤ q → s.avail c ≤ q → exec (.adva c q) s = .next { s with resp := .held (s.ended c) })

/-- R120: WTW, word `0x20 | ch` with operand `n`, answers whether a transition lies strictly between the cursor and `n`
samples on, without moving it; it needs its whole window when `n ≥ 2`, and reads nothing when `n ≤ 1`. -/
def Obligations.WtwLooksStrictlyInside : Prop :=
  ∀ (s : State) (c : Role) (n : Nat), s.status = .running →
    decodeWord (0x20 ||| c.code.setWidth 8) n = .wtw c n ∧
    ((2 ≤ n → s.pos c + n - 1 < s.avail c) →
      ∃ b, exec (.wtw c n) s = .next { s with resp := .completed (some (.bit b)) } ∧
        (b = true ↔ ∃ i, s.pos c < i ∧ i < s.pos c + n ∧ s.trans c i = true)) ∧
    (2 ≤ n → s.avail c ≤ s.pos c + n - 1 → exec (.wtw c n) s = .next { s with resp := .held (s.ended c) })

/-! ## clock_synchronizer -/

/-- R135: RSYNC checks all seven cursors before any moves, then needs the sample on all seven streams, then moves all
seven. -/
def Obligations.RsyncMovesAllOrNone : Prop :=
  ∀ (s : State) (q : Nat), s.status = .running →
    ((∃ c, q < s.pos c) → FaultTaken .streamPositionViolation s (exec (.rsync q) s)) ∧
    ((∀ c, s.pos c ≤ q) → (∀ c, q < s.avail c) →
      exec (.rsync q) s =
        .next { s with cur := RoleMap.ofRoles fun c => ⟨q, s.sample c q⟩, resp := .completed none }) ∧
    ((∀ c, s.pos c ≤ q) → (∃ c, s.avail c ≤ q) → ∃ b, exec (.rsync q) s = .next { s with resp := .held b })

/-- R137: RSYNC issued a second time with the same target completes with no change. -/
def Obligations.RsyncIsIdempotent : Prop :=
  ∀ (s t : State) (q : Nat), exec (.rsync q) s = .next t → t.resp = .completed none → exec (.rsync q) t = .next t

/-! ## jitter_classifier -/

/-- R145, with R144's hold: in the default classifier the bit is the inverse of the level when the first transition lies
at an offset of 1 to `T+1`, and the level otherwise; the cursor does not move. -/
def Obligations.RdbitDefaultInvertsNearAnEdge : Prop :=
  ∀ (s : State) (c : Role), s.status = .running → s.params.glitchConfirm = false →
    (s.pos c + s.tol + 1 < s.avail c →
      (∀ k, 1 ≤ k → s.trans c (s.pos c + k) = true → (∀ j, 1 ≤ j → j < k → s.trans c (s.pos c + j) = false) →
        exec (.rdbit c) s =
          .next { s with resp := .completed (some (.bit (if k ≤ s.tol + 1 then !s.lvl c else s.lvl c))) }) ∧
      ((∀ k, 1 ≤ k → k ≤ s.tol + 1 → s.trans c (s.pos c + k) = false) →
        exec (.rdbit c) s = .next { s with resp := .completed (some (.bit (s.lvl c))) })) ∧
    (s.avail c ≤ s.pos c + s.tol + 1 → exec (.rdbit c) s = .next { s with resp := .held (s.ended c) })

/-- R146: the GLITCH_CONFIRM variant inverts only if a transition lies at an offset of at most `T+1` and the line is
still at the new level at offset `T+2`. -/
def Obligations.RdbitVariantConfirmsTheEdge : Prop :=
  ∀ (s : State) (c : Role), s.status = .running → s.params.glitchConfirm = true →
    (s.pos c + s.tol + 2 < s.avail c →
      ((∃ k, 1 ≤ k ∧ k ≤ s.tol + 1 ∧ s.trans c (s.pos c + k) = true) → s.sample c (s.pos c + s.tol + 2) ≠ s.lvl c →
        exec (.rdbit c) s = .next { s with resp := .completed (some (.bit (!s.lvl c))) }) ∧
      ((∀ k, 1 ≤ k → k ≤ s.tol + 1 → s.trans c (s.pos c + k) = false) ∨ s.sample c (s.pos c + s.tol + 2) = s.lvl c →
        exec (.rdbit c) s = .next { s with resp := .completed (some (.bit (s.lvl c))) })) ∧
    (s.avail c ≤ s.pos c + s.tol + 2 → exec (.rdbit c) s = .next { s with resp := .held (s.ended c) })

/-! ## Session start and the loop -/

/-- R236, R211: CFGCHK in Init rejects a zero rate and a sample rate below four times the bit rate before any sample is
needed; else it needs sample START_POS of all seven streams; then it sets `T`, the cursors, LINK and STATUS. -/
def Obligations.CfgchkStartsOrRejectsTheSession : Prop :=
  ∀ s : State, s.status = .init →
    ((s.cfg.sampleRate = 0 ∨ s.cfg.bitRate = 0 ∨ s.cfg.sampleRate < 4 * s.cfg.bitRate) →
      FaultTaken .configurationError s (exec .cfgchk s)) ∧
    (s.cfg.sampleRate ≠ 0 → s.cfg.bitRate ≠ 0 → 4 * s.cfg.bitRate ≤ s.cfg.sampleRate →
      ((∀ c, s.params.startPos < s.avail c) →
        exec .cfgchk s =
          .next { s with
            tol := s.cfg.tolOverride.getD (Config.deriveT s.cfg.sampleRate s.cfg.bitRate)
            cur := RoleMap.ofRoles fun c => ⟨s.params.startPos, s.sample c s.params.startPos⟩
            link := .boot
            status := .running
            resp := .completed none }) ∧
      ((∃ c, s.avail c ≤ s.params.startPos) → ∃ b, exec .cfgchk s = .next { s with resp := .held b }))

/-- R156: CANCHK cancels a Running session on request and discards the batch; without a request it is a no-op. -/
def Obligations.CanchkCancelsOnRequest : Prop :=
  ∀ s : State, s.status = .running →
    (s.cancelReq = true →
      exec .canchk s = .next { s with status := .cancelled, pending := [], resp := .completed none }) ∧
    (s.cancelReq = false → exec .canchk s = .next { s with resp := .completed none })

/-- R155: STEP first checks for cancellation, and stops there if it cancelled; otherwise it does exactly what the action
of the Link State does. -/
def Obligations.StepRunsTheLinkAction : Prop :=
  ∀ s : State, s.status = .running →
    (s.cancelReq = true →
      exec .step s = .next { s with status := .cancelled, pending := [], resp := .completed none }) ∧
    (s.cancelReq = false →
      (s.link = .boot → exec .step s = exec .boot s) ∧
      (s.link = .coreReady → exec .step s = exec .crdy s) ∧
      (s.link = .packetStart → exec .step s = exec .pstart s) ∧
      (s.link = .clockSelectHold ∨ s.link = .coreBootHold ∨ s.link = .debugModeSet ∨ s.link = .coreReadyHold →
        exec .step s = exec .inert s))

/-- R155 with R157, R159 and R160: where STEP completes in Boot, in PacketStart with the target not ready, and in a
placeholder. -/
def Obligations.StepCompletes : Prop :=
  ∀ s : State, s.status = .running → s.cancelReq = false →
    (∀ f, s.link = .boot → s.lvl .clock = true → s.sample .clock (s.pos .clock) = true →
      EdgeAt s .clock (s.pos .clock) f → (∀ c, s.pos c ≤ f) → (∀ c, f < s.avail c) →
      exec .step s =
        .next { s with
          cur := RoleMap.ofRoles fun c => ⟨f, s.sample c f⟩
          link := .coreReady
          resp := .completed none }) ∧
    (s.link = .packetStart → s.lvl .dataOut = true →
      exec .step s = .next { s with link := .coreReady, resp := .completed none }) ∧
    (s.link = .clockSelectHold ∨ s.link = .coreBootHold ∨ s.link = .debugModeSet ∨ s.link = .coreReadyHold →
      exec .step s = .next { s with resp := .completed none })

/-- R157: BOOT takes the clock's first falling edge after the cursor, one edge on if the clock is high and two if it is
low, brings all seven cursors to it, and goes to CoreReady. -/
def Obligations.BootFindsTheFirstFallingEdge : Prop :=
  ∀ (s : State) (f : Nat), s.status = .running → s.lvl .clock = s.sample .clock (s.pos .clock) →
    (if s.lvl .clock = true then EdgeAt s .clock (s.pos .clock) f else ClockPeriod s (s.pos .clock) f) →
    (∀ c, s.pos c ≤ f) → (∀ c, f < s.avail c) →
    exec .boot s =
      .next { s with
        cur := RoleMap.ofRoles fun c => ⟨f, s.sample c f⟩
        link := .coreReady
        resp := .completed none }

/-- R158: CRDY takes the aligned line's next edge, skips the dead interval, takes one more edge if the line is still
low, emits the capture-start marker at once, brings all seven cursors there, and goes to PacketStart. -/
def Obligations.CrdyAlignsOnTheStartBit : Prop :=
  ∀ (s : State) (e t : Nat), s.status = .running → s.lvl s.alignRole = s.sample s.alignRole (s.pos s.alignRole) →
    EdgeAt s s.alignRole (s.pos s.alignRole) e →
    (if s.sample s.alignRole (e + s.params.deadInterval) = false then
      EdgeAt s s.alignRole (e + s.params.deadInterval) t else t = e + s.params.deadInterval) →
    (∀ c, s.pos c ≤ t) → (∀ c, t < s.avail c) →
    exec .crdy s =
      .next { s with
        cur := RoleMap.ofRoles fun c => ⟨t, s.sample c t⟩
        log := s.log ++ [.marker s.alignRole t .captureStart]
        link := .packetStart
        resp := .completed none }

/-- R165: a CRDY that completes leaves the aligned line high, and every cursor at one position past where the line was.
-/
def Obligations.CrdyLeavesTheLineHigh : Prop :=
  ∀ s t : State, exec .crdy s = .next t → t.resp = .completed none →
    t.lvl s.alignRole = true ∧ s.pos s.alignRole < t.pos s.alignRole ∧ ∀ c, t.pos c = t.pos s.alignRole

/-- R159, R175, R220: PSTART with DataOut high (the target not ready) goes back to CoreReady with no event and no cursor
moved; with DataOut low it is one capture cycle and then CoreReady, and it holds and faults as the cycle does. -/
def Obligations.PstartCapturesOrSkips : Prop :=
  ∀ s : State, s.status = .running →
    (s.lvl .dataOut = true → exec .pstart s = .next { s with link := .coreReady, resp := .completed none }) ∧
    (s.lvl .dataOut = false →
      (∀ t, exec .cycle s = .next t → t.resp = .completed none →
        exec .pstart s = .next { t with link := .coreReady }) ∧
      (∀ t b, exec .cycle s = .next t → t.resp = .held b → exec .pstart s = .next t) ∧
      ∀ t, exec .cycle s = .next t → t.resp = .faulted →
        FaultTaken .streamPositionViolation s (exec .pstart s))

/-- R160: INERT changes nothing. -/
def Obligations.InertChangesNothing : Prop :=
  ∀ s : State, s.status = .running → exec .inert s = .next { s with resp := .completed none }

/-- R161: the complete list of writes to LINK. After a fault LINK is unspecified (R218), so nothing is said of it. -/
def Obligations.LinkIsWrittenOnlyByItsActions : Prop :=
  ∀ (i : Instr) (s t : State), exec i s = .next t → t.resp ≠ .faulted → t.link ≠ s.link →
    (i = .cfgchk ∧ t.link = .boot) ∨
      ((i = .boot ∨ i = .pstart ∨ i = .step) ∧ t.link = .coreReady) ∨
      ((i = .crdy ∨ i = .step) ∧ t.link = .packetStart)

/-- R164, R165, R139, R241: under the sequencer the cursors stand as each action of the Link State needs them, every
STEP that goes on keeps that, and only a STEP in PacketStart can fault. -/
def Obligations.SequencerFaultsOnlyInPacketStart : Prop :=
  ∀ s t : State, s.status = .running → s.Consistent → SequencerAligned s →
    exec .step s = .next t →
    (t.status = .running → SequencerAligned t ∧ t.Consistent) ∧ (t.resp = .faulted → s.link = .packetStart)

/-! ## bitfield_assembler -/

/-- R177, R178, R179, R182, R183, R188, R189: a capture cycle whose clock and samples are there takes `3 + LEN` bits on
each line at the sampling positions, assembles the fields, and commits one batch. The frame flags are draws (log entry
3), Status1 = ST[1] is log entry 12. -/
def Obligations.CycleCapturesTheFrame : Prop :=
  ∀ (s : State) (ck : Nat → Nat) (mc : BitVec 3), s.status = .running → s.Consistent →
    mc = preambleField s ck .dataIn → CycleClock s ck (framePeriods mc) → PreambleProduced s ck →
    exec .cycle s =
      .next { cycleResult s ck mc (preambleField s ck .dataOut)
          (payloadField s ck .dataIn (selectLen mc).bits) (payloadField s ck .dataOut (selectLen mc).bits) with
        resp := .completed none }

/-- R159 and R177: a PSTART whose target is ready and whose cycle has its clock and samples captures the frame. -/
def Obligations.PstartCapturesTheFrame : Prop :=
  ∀ (s : State) (ck : Nat → Nat) (mc : BitVec 3), s.status = .running → s.Consistent → s.lvl .dataOut = false →
    mc = preambleField s ck .dataIn → CycleClock s ck (framePeriods mc) → PreambleProduced s ck →
    exec .pstart s =
      .next { cycleResult s ck mc (preambleField s ck .dataOut)
          (payloadField s ck .dataIn (selectLen mc).bits) (payloadField s ck .dataOut (selectLen mc).bits) with
        link := .coreReady
        resp := .completed none }

/-- R85 to R88 (log entry 14): the wire frame received where its bit periods' clock is there leaves its own fields in
the assembler registers and commits them as one batch. -/
def Obligations.BdmFrameDeliversItsFields : Prop :=
  ∀ (s : State) (ck : Nat → Nat) (mc st : BitVec 3) (ow iw : BitVec 32), s.status = .running → s.Consistent →
    (Instr.bdmFrame mc st ow iw).WF → CycleClock s ck (framePeriods mc) →
    exec (.bdmFrame mc st ow iw) s = .next { cycleResult s ck mc st ow iw with resp := .completed none }

/-- R85, R177: the capture cycle decodes the wire frame. Whatever a CYCLE that completes has assembled, it has done
exactly what receiving the frame of those fields does (log entry 14). -/
def Obligations.CycleReceivesTheFrameItDecodes : Prop :=
  ∀ s t : State, exec .cycle s = .next t → t.resp = .completed none →
    exec (.bdmFrame t.asm.mc t.asm.st t.asm.ow t.asm.iw) s = .next t

/-- R178: PBIT classifies both lines before either cursor moves, pends the DataIn and the DataOut marker at the
positions read, shifts both bits in, and passes one bit period. -/
def Obligations.PbitTakesOneClassifiedBit : Prop :=
  ∀ (s : State) (e : Nat), s.status = .running → s.Consistent →
    s.pos .dataIn + classifierReach s < s.avail .dataIn → s.pos .dataOut + classifierReach s < s.avail .dataOut →
    ClockPeriod s (s.pos .clock) e → (∀ c, s.pos c ≤ e) → (∀ c, e < s.avail c) →
    e + s.tol < s.avail .dataIn → e + s.tol < s.avail .dataOut →
    exec .pbit s =
      .next { s with
        cur := periodCursors s e
        asm := { s.asm with
          mc := shiftIn s.asm.mc (classifiedAt s .dataIn (s.pos .dataIn))
          st := shiftIn s.asm.st (classifiedAt s .dataOut (s.pos .dataOut)) }
        pending := s.pending ++
          [.marker .dataIn (s.pos .dataIn) .bitSample, .marker .dataOut (s.pos .dataOut) .bitSample]
        resp := .completed none }

/-- R182, R148: DBIT does the same with the raw levels and the payload words. -/
def Obligations.DbitTakesOneRawBit : Prop :=
  ∀ (s : State) (e : Nat), s.status = .running → s.lvl .clock = s.sample .clock (s.pos .clock) →
    ClockPeriod s (s.pos .clock) e → (∀ c, s.pos c ≤ e) → (∀ c, e < s.avail c) →
    e + s.tol < s.avail .dataIn → e + s.tol < s.avail .dataOut →
    exec .dbit s =
      .next { s with
        cur := periodCursors s e
        asm := { s.asm with
          ow := shiftIn s.asm.ow (s.lvl .dataIn)
          iw := shiftIn s.asm.iw (s.lvl .dataOut) }
        pending := s.pending ++
          [.marker .dataIn (s.pos .dataIn) .bitSample, .marker .dataOut (s.pos .dataOut) .bitSample]
        resp := .completed none }

/-- R179: PERIOD takes the clock's next two edges, whatever the clock's level, brings all cursors there, and nudges the
two data cursors by `T`; it faults when a cursor is past the new clock position. -/
def Obligations.PeriodAdvancesOneBitPeriod : Prop :=
  ∀ (s : State) (e : Nat), s.status = .running → s.lvl .clock = s.sample .clock (s.pos .clock) →
    ClockPeriod s (s.pos .clock) e → e < s.avail .clock →
    ((∀ c, s.pos c ≤ e) → (∀ c, e < s.avail c) → e + s.tol < s.avail .dataIn → e + s.tol < s.avail .dataOut →
      exec .period s = .next { s with cur := periodCursors s e, resp := .completed none }) ∧
    ((∃ c, e < s.pos c) → FaultTaken .streamPositionViolation s (exec .period s))

/-- R241: with the data cursors `T` beyond the clock and the others at it, PERIOD faults exactly when its two clock
edges span fewer than `T` samples. -/
def Obligations.PeriodFaultsExactlyWhenTooShort : Prop :=
  ∀ (s t : State) (e : Nat), s.status = .running → s.lvl .clock = s.sample .clock (s.pos .clock) →
    s.pos .dataIn = s.pos .clock + s.tol → s.pos .dataOut = s.pos .clock + s.tol →
    (∀ c, c ≠ .dataIn → c ≠ .dataOut → s.pos c = s.pos .clock) →
    ClockPeriod s (s.pos .clock) e → e < s.avail .clock → exec .period s = .next t →
    (t.resp = .faulted ↔ e - s.pos .clock < s.tol)

/-- R181, R87: LENSEL, word `0x90`, sets LEN to 7 if `MC[1]` is set and to 32 if it is clear, and changes nothing else.
-/
def Obligations.LenselReadsTheModeBit : Prop :=
  ∀ s : State, s.status = .running →
    decodeWord 0x90 0 = .lensel ∧
    ∃ l : PayloadLen, exec .lensel s = .next { s with asm := { s.asm with len := l }, resp := .completed none } ∧
      (s.asm.mc.getLsbD 1 = true → l.bits = 7) ∧ (s.asm.mc.getLsbD 1 = false → l.bits = 32)

/-- R183 to R185: EMIT appends to the log everything pending, the four frames, the two views and Commit, in that order,
and empties the batch. The frames' flags are four draws (R190), so it holds whatever they are. Status1 = ST[1] is log
entry 12, the flags' place in State log entry 3. -/
def Obligations.EmitCommitsTheBatch : Prop :=
  ∀ s : State, s.status = .running →
    exec .emit s =
      .next { s with
        log := s.log ++ s.pending ++ batchRecords s.asm s.draws ++ [.commit]
        pending := []
        draws := s.draws + 4
        resp := .completed none }

/-- R92 to R95 (log entry 15): what putting out each record does. -/
def Obligations.RecordsGoToTheSink : Prop :=
  ∀ s : State, s.status = .running →
    (∀ c p, exec (.marker c p .bitSample) s =
      .next { s with pending := s.pending ++ [.marker c p .bitSample], resp := .completed none }) ∧
    (∀ c p, exec (.marker c p .captureStart) s =
      .next { s with log := s.log ++ [.marker c p .captureStart], resp := .completed none }) ∧
    (∀ k a b v f, exec (.frame k a b v f) s =
      .next { s with pending := s.pending ++ [.frame k a b v f], resp := .completed none }) ∧
    (∀ m c i s1 s2 d, exec (.outViewInView m c i s1 s2 d) s =
      .next { s with pending := s.pending ++ [.outView m c i, .inView s1 s2 d], resp := .completed none }) ∧
    exec .commit s =
      .next { s with log := s.log ++ s.pending ++ [.commit], pending := [], resp := .completed none }

/-- R44: a STEP that begins with nothing pending ends with nothing pending. -/
def Obligations.StepLeavesNothingPending : Prop :=
  ∀ s t : State, s.pending = [] → exec .step s = .next t → t.pending = []

/-! ## Reserved words, refusal, holds and faults -/

/-- R213, R218: a reserved word issued in Running ends the session with IllegalOperation; nothing but STATUS, FAULT_CODE
and PENDING changes. -/
def Obligations.ReservedWordsAreIllegal : Prop :=
  ∀ (i : Instr) (s : State), isReserved i = true → s.status = .running →
    exec i s =
      .next { s with status := .faulted, faultCode := .illegalOperation, pending := [], resp := .faulted }

/-- R222, R42: an operation issued in a status that does not enable it changes nothing. CFGCHK is enabled in Init alone,
every other operation in Running alone. That the session goes on is log entry 17. -/
def Obligations.NotEnabledIsRefused : Prop :=
  ∀ (i : Instr) (s : State), s.status ≠ (if i = .cfgchk then .init else .running) →
    exec i s = .next { s with resp := .refused }

/-- R63, R64: an operation that holds makes no change to any state; a hold that never lifts is on an ended stream. -/
def Obligations.HoldsChangeNothing : Prop :=
  ∀ (i : Instr) (s t : State) (b : Bool), exec i s = .next t → t.resp = .held b →
    t = { s with resp := .held b } ∧ (b = true → ∃ c, s.ended c = true)

/-- R218, R223: taking a fault writes STATUS, FAULT_CODE and PENDING, and the log is the one before the operation. What
the registers left unspecified hold is not spoken of. -/
def Obligations.FaultEntryIsTeardown : Prop :=
  ∀ (i : Instr) (s t : State), exec i s = .next t → t.resp = .faulted →
    t.status = .faulted ∧ t.faultCode ≠ .none ∧ t.pending = [] ∧ t.log = s.log

/-- R210: which operations raise which fault. The frame row counts as a capture cycle (log entry 14). -/
def Obligations.EachFaultHasItsCause : Prop :=
  ∀ (i : Instr) (s t : State), exec i s = .next t → t.resp = .faulted →
    (t.faultCode = .configurationError ∧ i = .cfgchk) ∨
      (t.faultCode = .streamPositionViolation ∧ movesToPosition i = true) ∨
      (t.faultCode = .illegalOperation ∧ isReserved i = true)

/-- R42, R224: no operation leaves Cancelled or Faulted, and none goes back to Init. -/
def Obligations.StatusNeverGoesBack : Prop :=
  ∀ (i : Instr) (s t : State), exec i s = .next t →
    (s.status = .cancelled → t.status = .cancelled) ∧ (s.status = .faulted → t.status = .faulted) ∧
      (t.status = .init → s.status = .init)

/-! ## Whole-machine rules -/

/-- R7, R60, R72, R39, R40, R41: no operation writes the sample spaces, the configuration, the parameters or
CANCEL_REQ: every sample reads as before. -/
def Obligations.OperationsOnlyReadTheStreams : Prop :=
  ∀ (i : Instr) (s t : State), exec i s = .next t →
    (∀ c n, t.sample c n = s.sample c n ∧ t.avail c = s.avail c ∧ t.ended c = s.ended c) ∧
      t.streams = s.streams ∧ t.cfg = s.cfg ∧ t.params = s.params ∧ t.cancelReq = s.cancelReq

/-- R38: `T` is fixed once CFGCHK has written it. After a fault it is unspecified (R218). -/
def Obligations.ToleranceIsFixed : Prop :=
  ∀ (i : Instr) (s t : State), exec i s = .next t → t.resp ≠ .faulted → s.status ≠ .init → t.tol = s.tol

/-- R47: the log only grows. -/
def Obligations.LogOnlyGrows : Prop :=
  ∀ (i : Instr) (s t : State), exec i s = .next t → ∃ l, t.log = s.log ++ l

/-- R23, R122: no operation of a running session moves a cursor back. After a fault the cursors are unspecified (R218).
-/
def Obligations.CursorsNeverMoveBack : Prop :=
  ∀ (i : Instr) (s t : State), exec i s = .next t → t.resp ≠ .faulted → s.status = .running → ∀ c, s.pos c ≤ t.pos c

/-- R76: the value of every read does not depend on when it happens. What an operation that does not hold does, it does
just so after the host has produced more samples of any stream. -/
def Obligations.ResultsDoNotDependOnArrival : Prop :=
  ∀ (i : Instr) (s t : State) (k : Nat) (l : Bit) (n : Nat), exec i s = .next t → (∀ b, t.resp ≠ .held b) →
    exec i { s with streams := Memory.produce s.streams k l n } =
      .next { t with streams := Memory.produce s.streams k l n }

/-- R22, R42, R43, R45, R163: every step keeps the session invariant, the host's turns among them. -/
def Obligations.EveryStepKeepsTheSessionInvariant : Prop :=
  ∀ s t : State, SessionInv s → step s = .next t → SessionInv t

/-- R78, R187, R240: every step keeps the log a sequence of capture-start markers and whole committed batches. -/
def Obligations.EveryStepKeepsTheLogWhole : Prop :=
  ∀ s t : State, SinkInv s → step s = .next t → SinkInv t

/-! ## Encodings -/

/-- Decoding what the encoder writes gives the instruction back, for every well-formed instruction of the table: the
operation words, the wire frame and the records. -/
def Obligations.DecodeOfEncodeIsTheInstruction : Prop :=
  ∀ i : Instr, i.WF → decode (encode i) = .ok i []

/-- R101 to R104: every operation word is exactly one row: what it decodes to is well formed and encodes to it, and a
reserved row is read exactly from opcode 0x15 up, from channel code 7 of a channel operation, and from a nonzero channel
field of any other. -/
def Obligations.EveryWordIsItsRow : Prop :=
  ∀ (w : OpWord) (a : Nat),
    (decodeWord w a).WF ∧ (∃ b, encode (decodeWord w a) = .op w b) ∧
      (isReserved (decodeWord w a) = true ↔
        0x15 ≤ (opcodeField w).toNat ∨
          ((opcodeField w).toNat ∈ [0, 1, 2, 3, 4, 5, 7] ∧ channelField w = 7) ∨
          ((opcodeField w).toNat ∉ [0, 1, 2, 3, 4, 5, 7] ∧ channelField w ≠ 0))

/-- Words written out from R101 and R97 decode to their operations. -/
def Obligations.WrittenWordsDecode : Prop :=
  decodeWord 0b00001010 5 = .adv .clock 5 ∧ decodeWord 0b00010010 0 = .adve .clock ∧
    decodeWord 0b00110000 120 = .rsync 120 ∧ decodeWord 0b00111001 0 = .rdbit .dataOut ∧
    decodeWord 0b01000000 0 = .cfgchk ∧ decodeWord 0b01010000 0 = .step ∧ decodeWord 0b01111000 0 = .cycle ∧
    decodeWord 0b00000111 0 = .reservedLvlCh7 ∧ decodeWord 0b01000001 0 = .reservedCfgchkCh 1 ∧
    decodeWord 0b10101000 0 = .reservedOpcode15 0

/-- R89: after `k` shifts the accumulator is the sum of the bits, the first weighing most, as long as no bit is
truncated. -/
def Obligations.AccumulationIsMsbFirst : Prop :=
  ∀ (w : Nat) (bits : List Bit), bits.length ≤ w →
    (assemble bits : BitVec w).toNat = (bits.mapIdx fun j b => if b then 2 ^ (bits.length - 1 - j) else 0).sum

/-- R90, R186: the four bytes, most significant first, make up the word; those of a 7-bit payload are zero above its
seven bits. -/
def Obligations.FourByteRendering : Prop :=
  ∀ v : BitVec 32,
    (be4 v).b0 ++ (be4 v).b1 ++ (be4 v).b2 ++ (be4 v).b3 = v ∧
      (v.toNat < 128 → (be4 v).b0 = 0 ∧ (be4 v).b1 = 0 ∧ (be4 v).b2 = 0 ∧ (be4 v).b3.toNat = v.toNat)

/-! ## The step -/

/-- A step runs the decoded instruction: when it is the block's turn and nothing is in flight, the operation word at the
head of the test port is taken from it and its instruction executed; if it holds it stays in flight (log entry 6). -/
def Obligations.StepRunsThePortInstruction : Prop :=
  ∀ (s : State) (i : Instr) (w : OpWord) (a : Nat) (ps : List PortOp) (ts : List Turn), i.WF → encode i = .op w a →
    s.inFlight = none → s.port = ⟨w, a⟩ :: ps → BlockTurn s ts →
    ∃ t, exec i { s with port := ps, turns := ts } = .next t ∧
      step s = .next { t with
        inFlight := match t.resp with
          | .held _ => some i
          | _ => none }

/-- The instruction that the host places is the one the next step runs. How it is placed is the model's own (log entry
7). -/
def Obligations.PlacedWordRunsNext : Prop :=
  ∀ (s : State) (nbits w : Nat) (i : Instr), decodeTableWord nbits w = some i →
    ∃ t, exec i { s with inFlight := none } = .next t ∧
      step (s.withFetchWord nbits w) = .next { t with
        inFlight := match t.resp with
          | .held _ => some i
          | _ => none }

/-- R238, R239, R240: when it is the block's turn and nothing is in flight or at the test port, the sequencer issues
CFGCHK in Init and STEP in Running. In Cancelled and Faulted the run has ended: a turn given to the block passes with
nothing done, and with no turn left the step is refused. The last sentence and the fields it is told in are the model's
own (log entries 6 and 27). -/
def Obligations.SequencerIssuesCfgchkThenStep : Prop :=
  ∀ (s : State) (ts : List Turn), BlockTurn s ts → s.port = [] → s.inFlight = none →
    (s.status = .init → ∃ t, exec .cfgchk { s with turns := ts } = .next t ∧
      step s = .next { t with
        inFlight := match t.resp with
          | .held _ => some .cfgchk
          | _ => none }) ∧
    (s.status = .running → ∃ t, exec .step { s with turns := ts } = .next t ∧
      step s = .next { t with
        inFlight := match t.resp with
          | .held _ => some .step
          | _ => none }) ∧
    (s.status = .cancelled ∨ s.status = .faulted →
      step s = if s.turns = [] then .refused .sessionEnded else .next { s with turns := ts })

/-- R239, R216, R64: a held operation is attempted again, unchanged by the wait; a held STEP as its Link State's action,
with no second CANCHK (log entry 23). While a cancel is requested the block may instead be cancelled, with no cursor
moved and no event emitted, and it is if the hold is found never to lift. Which of the two is a free choice of the
model, and so are the moment of the cancel that is due (R216 says only eventually) and its finding by the first need not
met (log entry 4). -/
def Obligations.HeldOperationIsRetriedOrCancelled : Prop :=
  ∀ (s t : State) (i : Instr) (ts : List Turn), BlockTurn s ts → s.inFlight = some i → step s = .next t →
    (s.cancelReq = false ∨ s.status ≠ .running →
      ∃ u, exec (heldInstr i s.link) { s with turns := ts } = .next u ∧ t = { u with
        inFlight := match u.resp with
          | .held _ => some i
          | _ => none }) ∧
    (s.cancelReq = true → s.status = .running →
      t = { s with
        turns := ts
        status := .cancelled
        pending := []
        inFlight := none
        resp := .abandoned
        draws := s.draws + 1 } ∨
        ∃ u, exec (heldInstr i s.link) { s with turns := ts, draws := s.draws + 1 } = .next u ∧ u.resp ≠ .held true ∧
          t = { u with
            inFlight := match u.resp with
              | .held _ => some i
              | _ => none })

/-- R215, R216, R217: once a cancel is requested, a Running session driven by the sequencer is cancelled by its next
STEP, but for one STEP already held, which may complete or fault first or go on holding while its samples may still
come. A held STEP whose hold is found never to lift is cancelled by that very step: R216 says only that this cancel must
eventually be taken, and the moment, the finding by the first need not met, and the side of the race that is taken are
the model's choices (log entry 4). -/
def Obligations.CancellationComesWithinOneStep : Prop :=
  ∀ (s t : State) (ts : List Turn), s.status = .running → s.cancelReq = true → BlockTurn s ts → s.port = [] →
    step s = .next t →
    (s.inFlight = none → t.status = .cancelled ∧ t.log = s.log ∧ t.cur = s.cur) ∧
      (s.inFlight = some .step →
        (t.status = .cancelled ∨ t.status = .faulted ∨
          (t.status = .running ∧ t.inFlight = none ∧ t.cancelReq = true) ∨
            t = { s with turns := ts, draws := s.draws + 1, resp := .held false }) ∧
          ∀ u, exec (linkInstr s.link) { s with turns := ts, draws := s.draws + 1 } = .next u → u.resp = .held true →
            t.status = .cancelled ∧ t.log = s.log ∧ t.cur = s.cur)

/-! ## The host's turns (R237) -/

/-- R7, R61, R37, R237: the host only appends samples, ends streams, and reads. Producing `n` samples of a level raises
AVAIL by `n`, gives them that level, and changes no produced sample of any stream; that samples for an ended stream are
dropped is log entry 18. Ending a stream sets its end flag and changes no sample. A read of STATUS, FAULT_CODE (by their
codes, R99), LOG or `T` answers with its value and changes nothing; that `T` is among them is log entry 26. -/
def Obligations.HostOnlyAppendsSamples : Prop :=
  ∀ (s : State) (ts : List Turn),
    (∀ (k n : Nat) (l : Bit), Memory.wf s.streams → s.turns = .produce k l n :: ts →
      ∃ t, step s = .next t ∧ t = { s with turns := ts, streams := t.streams } ∧ Memory.wf t.streams ∧
        (∀ j, j ≠ k → Memory.get t.streams j = Memory.get s.streams j) ∧
        (∀ i, i < (Memory.get s.streams k).avail → Memory.sample t.streams k i = Memory.sample s.streams k i) ∧
        (Memory.get t.streams k).ended = (Memory.get s.streams k).ended ∧
        ((Memory.get s.streams k).ended = true → Memory.get t.streams k = Memory.get s.streams k) ∧
        ((Memory.get s.streams k).ended = false →
          (Memory.get t.streams k).avail = (Memory.get s.streams k).avail + n ∧
          ∀ i, (Memory.get s.streams k).avail ≤ i → i < (Memory.get s.streams k).avail + n →
            Memory.sample t.streams k i = l)) ∧
    (∀ k, Memory.wf s.streams → s.turns = .endStream k :: ts →
      ∃ t, step s = .next t ∧ t = { s with turns := ts, streams := t.streams } ∧ Memory.wf t.streams ∧
        (∀ j, j ≠ k → Memory.get t.streams j = Memory.get s.streams j) ∧
        Memory.get t.streams k = { Memory.get s.streams k with ended := true } ∧
        ∀ j i, Memory.sample t.streams j i = Memory.sample s.streams j i) ∧
    (∀ r, s.turns = .read r :: ts →
      step s = .next { s with
        turns := ts
        hostOut := some (match r with
          | .tol => .nat s.tol
          | .status => .bits (match s.status with
            | .init => 0
            | .running => 1
            | .cancelled => 2
            | .faulted => 3)
          | .faultCode => .bits (match s.faultCode with
            | .none => 0
            | .configurationError => 1
            | .streamPositionViolation => 2
            | .illegalOperation => 3)
          | .log => .events s.log) })

/-- R37, R246, R41: a configuration write takes effect in Init and nowhere else (that it is dropped there is log entry
18); a cancel request sets CANCEL_REQ, and no step but a new session clears it. -/
def Obligations.ConfigurationIsLatched : Prop :=
  ∀ (s : State) (n : Nat) (ts : List Turn),
    (s.turns = .setSampleRate n :: ts →
      step s = .next (if s.status = .init then { s with turns := ts, cfg := { s.cfg with sampleRate := n } }
        else { s with turns := ts })) ∧
    (s.turns = .setBitRate n :: ts →
      step s = .next (if s.status = .init then { s with turns := ts, cfg := { s.cfg with bitRate := n } }
        else { s with turns := ts })) ∧
    (∀ o, s.turns = .setTolOverride o :: ts →
      step s = .next (if s.status = .init then { s with turns := ts, cfg := { s.cfg with tolOverride := o } }
        else { s with turns := ts })) ∧
    (∀ b, s.turns = .setBinding b :: ts →
      step s = .next (if s.status = .init then { s with turns := ts, cfg := { s.cfg with binding := b } }
        else { s with turns := ts })) ∧
    (s.turns = .requestCancel :: ts → step s = .next { s with turns := ts, cancelReq := true }) ∧
    ((∀ us, s.turns ≠ .newSession :: us) → s.cancelReq = true → ∀ t, step s = .next t → t.cancelReq = true)

/-- R247: a new session on the same instance: what the spec states for a fresh session, and nothing of the earlier run
survives, since two runs that differ in anything else but the streams, the parameters, the outside's turns and the draws
come to the same state. What the model keeps across it is log entry 16; the values of the registers that reset leaves
unspecified are not spoken of. -/
def Obligations.NewSessionForgetsTheRun : Prop :=
  ∀ (s : State) (ts : List Turn), s.turns = .newSession :: ts →
    (∃ t, step s = .next t ∧ t.status = .init ∧ t.faultCode = .none ∧ t.cancelReq = false ∧ t.link = .boot ∧
      t.asm = State.reset.asm ∧ t.pending = [] ∧ t.log = [] ∧ t.inFlight = none ∧ t.streams = s.streams ∧
      t.params = s.params) ∧
    ∀ s' : State, s'.turns = s.turns → s'.streams = s.streams → s'.params = s.params → s'.draws = s.draws →
      step s' = step s
end

