-- ==== Sys2Proof/Laws/State.lean ====
section
/-! SUPPORT. One lemma for each field of each named update of the state, so that no proof unfolds an update. -/

namespace Sys2Proof.Machine

variable (s : State)

/-! ### State.place -/

@[simp] theorem State.place_status (c : Role) (q : Nat) : (s.place c q).status = s.status := rfl
@[simp] theorem State.place_faultCode (c : Role) (q : Nat) : (s.place c q).faultCode = s.faultCode := rfl
@[simp] theorem State.place_cancelReq (c : Role) (q : Nat) : (s.place c q).cancelReq = s.cancelReq := rfl
@[simp] theorem State.place_tol (c : Role) (q : Nat) : (s.place c q).tol = s.tol := rfl
@[simp] theorem State.place_cfg (c : Role) (q : Nat) : (s.place c q).cfg = s.cfg := rfl
@[simp] theorem State.place_link (c : Role) (q : Nat) : (s.place c q).link = s.link := rfl
@[simp] theorem State.place_cur (c : Role) (q : Nat) : (s.place c q).cur = s.cur.set c ⟨q, s.sample c q⟩ := rfl
@[simp] theorem State.place_asm (c : Role) (q : Nat) : (s.place c q).asm = s.asm := rfl
@[simp] theorem State.place_pending (c : Role) (q : Nat) : (s.place c q).pending = s.pending := rfl
@[simp] theorem State.place_log (c : Role) (q : Nat) : (s.place c q).log = s.log := rfl
@[simp] theorem State.place_streams (c : Role) (q : Nat) : (s.place c q).streams = s.streams := rfl
@[simp] theorem State.place_params (c : Role) (q : Nat) : (s.place c q).params = s.params := rfl
@[simp] theorem State.place_turns (c : Role) (q : Nat) : (s.place c q).turns = s.turns := rfl
@[simp] theorem State.place_port (c : Role) (q : Nat) : (s.place c q).port = s.port := rfl
@[simp] theorem State.place_inFlight (c : Role) (q : Nat) : (s.place c q).inFlight = s.inFlight := rfl
@[simp] theorem State.place_resp (c : Role) (q : Nat) : (s.place c q).resp = s.resp := rfl
@[simp] theorem State.place_hostOut (c : Role) (q : Nat) : (s.place c q).hostOut = s.hostOut := rfl
@[simp] theorem State.place_draws (c : Role) (q : Nat) : (s.place c q).draws = s.draws := rfl
@[simp] theorem State.place_sample (c : Role) (q : Nat) (d : Role) (i : Nat) : (s.place c q).sample d i = s.sample d i := rfl
@[simp] theorem State.place_avail (c : Role) (q : Nat) (d : Role) : (s.place c q).avail d = s.avail d := rfl
@[simp] theorem State.place_ended (c : Role) (q : Nat) (d : Role) : (s.place c q).ended d = s.ended d := rfl
@[simp] theorem State.place_trans (c : Role) (q : Nat) (d : Role) (i : Nat) : (s.place c q).trans d i = s.trans d i := rfl

/-! ### State.placeAll -/

@[simp] theorem State.placeAll_status (q : Nat) : (s.placeAll q).status = s.status := rfl
@[simp] theorem State.placeAll_faultCode (q : Nat) : (s.placeAll q).faultCode = s.faultCode := rfl
@[simp] theorem State.placeAll_cancelReq (q : Nat) : (s.placeAll q).cancelReq = s.cancelReq := rfl
@[simp] theorem State.placeAll_tol (q : Nat) : (s.placeAll q).tol = s.tol := rfl
@[simp] theorem State.placeAll_cfg (q : Nat) : (s.placeAll q).cfg = s.cfg := rfl
@[simp] theorem State.placeAll_link (q : Nat) : (s.placeAll q).link = s.link := rfl
@[simp] theorem State.placeAll_cur (q : Nat) : (s.placeAll q).cur = RoleMap.ofRoles fun c => ⟨q, s.sample c q⟩ := rfl
@[simp] theorem State.placeAll_asm (q : Nat) : (s.placeAll q).asm = s.asm := rfl
@[simp] theorem State.placeAll_pending (q : Nat) : (s.placeAll q).pending = s.pending := rfl
@[simp] theorem State.placeAll_log (q : Nat) : (s.placeAll q).log = s.log := rfl
@[simp] theorem State.placeAll_streams (q : Nat) : (s.placeAll q).streams = s.streams := rfl
@[simp] theorem State.placeAll_params (q : Nat) : (s.placeAll q).params = s.params := rfl
@[simp] theorem State.placeAll_turns (q : Nat) : (s.placeAll q).turns = s.turns := rfl
@[simp] theorem State.placeAll_port (q : Nat) : (s.placeAll q).port = s.port := rfl
@[simp] theorem State.placeAll_inFlight (q : Nat) : (s.placeAll q).inFlight = s.inFlight := rfl
@[simp] theorem State.placeAll_resp (q : Nat) : (s.placeAll q).resp = s.resp := rfl
@[simp] theorem State.placeAll_hostOut (q : Nat) : (s.placeAll q).hostOut = s.hostOut := rfl
@[simp] theorem State.placeAll_draws (q : Nat) : (s.placeAll q).draws = s.draws := rfl
@[simp] theorem State.placeAll_sample (q : Nat) (c : Role) (i : Nat) : (s.placeAll q).sample c i = s.sample c i := rfl
@[simp] theorem State.placeAll_avail (q : Nat) (c : Role) : (s.placeAll q).avail c = s.avail c := rfl
@[simp] theorem State.placeAll_ended (q : Nat) (c : Role) : (s.placeAll q).ended c = s.ended c := rfl
@[simp] theorem State.placeAll_trans (q : Nat) (c : Role) (i : Nat) : (s.placeAll q).trans c i = s.trans c i := rfl

/-! ### State.emit -/

@[simp] theorem State.emit_status (e : Event) : (s.emit e).status = s.status := rfl
@[simp] theorem State.emit_faultCode (e : Event) : (s.emit e).faultCode = s.faultCode := rfl
@[simp] theorem State.emit_cancelReq (e : Event) : (s.emit e).cancelReq = s.cancelReq := rfl
@[simp] theorem State.emit_tol (e : Event) : (s.emit e).tol = s.tol := rfl
@[simp] theorem State.emit_cfg (e : Event) : (s.emit e).cfg = s.cfg := rfl
@[simp] theorem State.emit_link (e : Event) : (s.emit e).link = s.link := rfl
@[simp] theorem State.emit_cur (e : Event) : (s.emit e).cur = s.cur := rfl
@[simp] theorem State.emit_asm (e : Event) : (s.emit e).asm = s.asm := rfl
@[simp] theorem State.emit_pending (e : Event) : (s.emit e).pending = s.pending := rfl
@[simp] theorem State.emit_log (e : Event) : (s.emit e).log = s.log ++ [e] := rfl
@[simp] theorem State.emit_streams (e : Event) : (s.emit e).streams = s.streams := rfl
@[simp] theorem State.emit_params (e : Event) : (s.emit e).params = s.params := rfl
@[simp] theorem State.emit_turns (e : Event) : (s.emit e).turns = s.turns := rfl
@[simp] theorem State.emit_port (e : Event) : (s.emit e).port = s.port := rfl
@[simp] theorem State.emit_inFlight (e : Event) : (s.emit e).inFlight = s.inFlight := rfl
@[simp] theorem State.emit_resp (e : Event) : (s.emit e).resp = s.resp := rfl
@[simp] theorem State.emit_hostOut (e : Event) : (s.emit e).hostOut = s.hostOut := rfl
@[simp] theorem State.emit_draws (e : Event) : (s.emit e).draws = s.draws := rfl
@[simp] theorem State.emit_pos (e : Event) (c : Role) : (s.emit e).pos c = s.pos c := rfl
@[simp] theorem State.emit_lvl (e : Event) (c : Role) : (s.emit e).lvl c = s.lvl c := rfl
@[simp] theorem State.emit_sample (e : Event) (c : Role) (i : Nat) : (s.emit e).sample c i = s.sample c i := rfl
@[simp] theorem State.emit_avail (e : Event) (c : Role) : (s.emit e).avail c = s.avail c := rfl
@[simp] theorem State.emit_ended (e : Event) (c : Role) : (s.emit e).ended c = s.ended c := rfl
@[simp] theorem State.emit_trans (e : Event) (c : Role) (i : Nat) : (s.emit e).trans c i = s.trans c i := rfl

/-! ### State.pend -/

@[simp] theorem State.pend_status (e : Event) : (s.pend e).status = s.status := rfl
@[simp] theorem State.pend_faultCode (e : Event) : (s.pend e).faultCode = s.faultCode := rfl
@[simp] theorem State.pend_cancelReq (e : Event) : (s.pend e).cancelReq = s.cancelReq := rfl
@[simp] theorem State.pend_tol (e : Event) : (s.pend e).tol = s.tol := rfl
@[simp] theorem State.pend_cfg (e : Event) : (s.pend e).cfg = s.cfg := rfl
@[simp] theorem State.pend_link (e : Event) : (s.pend e).link = s.link := rfl
@[simp] theorem State.pend_cur (e : Event) : (s.pend e).cur = s.cur := rfl
@[simp] theorem State.pend_asm (e : Event) : (s.pend e).asm = s.asm := rfl
@[simp] theorem State.pend_pending (e : Event) : (s.pend e).pending = s.pending ++ [e] := rfl
@[simp] theorem State.pend_log (e : Event) : (s.pend e).log = s.log := rfl
@[simp] theorem State.pend_streams (e : Event) : (s.pend e).streams = s.streams := rfl
@[simp] theorem State.pend_params (e : Event) : (s.pend e).params = s.params := rfl
@[simp] theorem State.pend_turns (e : Event) : (s.pend e).turns = s.turns := rfl
@[simp] theorem State.pend_port (e : Event) : (s.pend e).port = s.port := rfl
@[simp] theorem State.pend_inFlight (e : Event) : (s.pend e).inFlight = s.inFlight := rfl
@[simp] theorem State.pend_resp (e : Event) : (s.pend e).resp = s.resp := rfl
@[simp] theorem State.pend_hostOut (e : Event) : (s.pend e).hostOut = s.hostOut := rfl
@[simp] theorem State.pend_draws (e : Event) : (s.pend e).draws = s.draws := rfl
@[simp] theorem State.pend_pos (e : Event) (c : Role) : (s.pend e).pos c = s.pos c := rfl
@[simp] theorem State.pend_lvl (e : Event) (c : Role) : (s.pend e).lvl c = s.lvl c := rfl
@[simp] theorem State.pend_sample (e : Event) (c : Role) (i : Nat) : (s.pend e).sample c i = s.sample c i := rfl
@[simp] theorem State.pend_avail (e : Event) (c : Role) : (s.pend e).avail c = s.avail c := rfl
@[simp] theorem State.pend_ended (e : Event) (c : Role) : (s.pend e).ended c = s.ended c := rfl
@[simp] theorem State.pend_trans (e : Event) (c : Role) (i : Nat) : (s.pend e).trans c i = s.trans c i := rfl

/-! ### State.commitBatch -/

@[simp] theorem State.commitBatch_status : (s.commitBatch).status = s.status := rfl
@[simp] theorem State.commitBatch_faultCode : (s.commitBatch).faultCode = s.faultCode := rfl
@[simp] theorem State.commitBatch_cancelReq : (s.commitBatch).cancelReq = s.cancelReq := rfl
@[simp] theorem State.commitBatch_tol : (s.commitBatch).tol = s.tol := rfl
@[simp] theorem State.commitBatch_cfg : (s.commitBatch).cfg = s.cfg := rfl
@[simp] theorem State.commitBatch_link : (s.commitBatch).link = s.link := rfl
@[simp] theorem State.commitBatch_cur : (s.commitBatch).cur = s.cur := rfl
@[simp] theorem State.commitBatch_asm : (s.commitBatch).asm = s.asm := rfl
@[simp] theorem State.commitBatch_pending : (s.commitBatch).pending = [] := rfl
@[simp] theorem State.commitBatch_log : (s.commitBatch).log = s.log ++ s.pending ++ [.commit] := rfl
@[simp] theorem State.commitBatch_streams : (s.commitBatch).streams = s.streams := rfl
@[simp] theorem State.commitBatch_params : (s.commitBatch).params = s.params := rfl
@[simp] theorem State.commitBatch_turns : (s.commitBatch).turns = s.turns := rfl
@[simp] theorem State.commitBatch_port : (s.commitBatch).port = s.port := rfl
@[simp] theorem State.commitBatch_inFlight : (s.commitBatch).inFlight = s.inFlight := rfl
@[simp] theorem State.commitBatch_resp : (s.commitBatch).resp = s.resp := rfl
@[simp] theorem State.commitBatch_hostOut : (s.commitBatch).hostOut = s.hostOut := rfl
@[simp] theorem State.commitBatch_draws : (s.commitBatch).draws = s.draws := rfl
@[simp] theorem State.commitBatch_pos  (c : Role) : (s.commitBatch).pos c = s.pos c := rfl
@[simp] theorem State.commitBatch_lvl  (c : Role) : (s.commitBatch).lvl c = s.lvl c := rfl
@[simp] theorem State.commitBatch_sample  (c : Role) (i : Nat) : (s.commitBatch).sample c i = s.sample c i := rfl
@[simp] theorem State.commitBatch_avail  (c : Role) : (s.commitBatch).avail c = s.avail c := rfl
@[simp] theorem State.commitBatch_ended  (c : Role) : (s.commitBatch).ended c = s.ended c := rfl
@[simp] theorem State.commitBatch_trans  (c : Role) (i : Nat) : (s.commitBatch).trans c i = s.trans c i := rfl

/-! ### State.setLink -/

@[simp] theorem State.setLink_status (l : LinkState) : (s.setLink l).status = s.status := rfl
@[simp] theorem State.setLink_faultCode (l : LinkState) : (s.setLink l).faultCode = s.faultCode := rfl
@[simp] theorem State.setLink_cancelReq (l : LinkState) : (s.setLink l).cancelReq = s.cancelReq := rfl
@[simp] theorem State.setLink_tol (l : LinkState) : (s.setLink l).tol = s.tol := rfl
@[simp] theorem State.setLink_cfg (l : LinkState) : (s.setLink l).cfg = s.cfg := rfl
@[simp] theorem State.setLink_link (l : LinkState) : (s.setLink l).link = l := rfl
@[simp] theorem State.setLink_cur (l : LinkState) : (s.setLink l).cur = s.cur := rfl
@[simp] theorem State.setLink_asm (l : LinkState) : (s.setLink l).asm = s.asm := rfl
@[simp] theorem State.setLink_pending (l : LinkState) : (s.setLink l).pending = s.pending := rfl
@[simp] theorem State.setLink_log (l : LinkState) : (s.setLink l).log = s.log := rfl
@[simp] theorem State.setLink_streams (l : LinkState) : (s.setLink l).streams = s.streams := rfl
@[simp] theorem State.setLink_params (l : LinkState) : (s.setLink l).params = s.params := rfl
@[simp] theorem State.setLink_turns (l : LinkState) : (s.setLink l).turns = s.turns := rfl
@[simp] theorem State.setLink_port (l : LinkState) : (s.setLink l).port = s.port := rfl
@[simp] theorem State.setLink_inFlight (l : LinkState) : (s.setLink l).inFlight = s.inFlight := rfl
@[simp] theorem State.setLink_resp (l : LinkState) : (s.setLink l).resp = s.resp := rfl
@[simp] theorem State.setLink_hostOut (l : LinkState) : (s.setLink l).hostOut = s.hostOut := rfl
@[simp] theorem State.setLink_draws (l : LinkState) : (s.setLink l).draws = s.draws := rfl
@[simp] theorem State.setLink_pos (l : LinkState) (c : Role) : (s.setLink l).pos c = s.pos c := rfl
@[simp] theorem State.setLink_lvl (l : LinkState) (c : Role) : (s.setLink l).lvl c = s.lvl c := rfl
@[simp] theorem State.setLink_sample (l : LinkState) (c : Role) (i : Nat) : (s.setLink l).sample c i = s.sample c i := rfl
@[simp] theorem State.setLink_avail (l : LinkState) (c : Role) : (s.setLink l).avail c = s.avail c := rfl
@[simp] theorem State.setLink_ended (l : LinkState) (c : Role) : (s.setLink l).ended c = s.ended c := rfl
@[simp] theorem State.setLink_trans (l : LinkState) (c : Role) (i : Nat) : (s.setLink l).trans c i = s.trans c i := rfl

/-! ### State.setAsm -/

@[simp] theorem State.setAsm_status (a : Assembler) : (s.setAsm a).status = s.status := rfl
@[simp] theorem State.setAsm_faultCode (a : Assembler) : (s.setAsm a).faultCode = s.faultCode := rfl
@[simp] theorem State.setAsm_cancelReq (a : Assembler) : (s.setAsm a).cancelReq = s.cancelReq := rfl
@[simp] theorem State.setAsm_tol (a : Assembler) : (s.setAsm a).tol = s.tol := rfl
@[simp] theorem State.setAsm_cfg (a : Assembler) : (s.setAsm a).cfg = s.cfg := rfl
@[simp] theorem State.setAsm_link (a : Assembler) : (s.setAsm a).link = s.link := rfl
@[simp] theorem State.setAsm_cur (a : Assembler) : (s.setAsm a).cur = s.cur := rfl
@[simp] theorem State.setAsm_asm (a : Assembler) : (s.setAsm a).asm = a := rfl
@[simp] theorem State.setAsm_pending (a : Assembler) : (s.setAsm a).pending = s.pending := rfl
@[simp] theorem State.setAsm_log (a : Assembler) : (s.setAsm a).log = s.log := rfl
@[simp] theorem State.setAsm_streams (a : Assembler) : (s.setAsm a).streams = s.streams := rfl
@[simp] theorem State.setAsm_params (a : Assembler) : (s.setAsm a).params = s.params := rfl
@[simp] theorem State.setAsm_turns (a : Assembler) : (s.setAsm a).turns = s.turns := rfl
@[simp] theorem State.setAsm_port (a : Assembler) : (s.setAsm a).port = s.port := rfl
@[simp] theorem State.setAsm_inFlight (a : Assembler) : (s.setAsm a).inFlight = s.inFlight := rfl
@[simp] theorem State.setAsm_resp (a : Assembler) : (s.setAsm a).resp = s.resp := rfl
@[simp] theorem State.setAsm_hostOut (a : Assembler) : (s.setAsm a).hostOut = s.hostOut := rfl
@[simp] theorem State.setAsm_draws (a : Assembler) : (s.setAsm a).draws = s.draws := rfl
@[simp] theorem State.setAsm_pos (a : Assembler) (c : Role) : (s.setAsm a).pos c = s.pos c := rfl
@[simp] theorem State.setAsm_lvl (a : Assembler) (c : Role) : (s.setAsm a).lvl c = s.lvl c := rfl
@[simp] theorem State.setAsm_sample (a : Assembler) (c : Role) (i : Nat) : (s.setAsm a).sample c i = s.sample c i := rfl
@[simp] theorem State.setAsm_avail (a : Assembler) (c : Role) : (s.setAsm a).avail c = s.avail c := rfl
@[simp] theorem State.setAsm_ended (a : Assembler) (c : Role) : (s.setAsm a).ended c = s.ended c := rfl
@[simp] theorem State.setAsm_trans (a : Assembler) (c : Role) (i : Nat) : (s.setAsm a).trans c i = s.trans c i := rfl

/-! ### State.draw -/

@[simp] theorem State.draw_status (n : Nat) : (s.draw n).status = s.status := rfl
@[simp] theorem State.draw_faultCode (n : Nat) : (s.draw n).faultCode = s.faultCode := rfl
@[simp] theorem State.draw_cancelReq (n : Nat) : (s.draw n).cancelReq = s.cancelReq := rfl
@[simp] theorem State.draw_tol (n : Nat) : (s.draw n).tol = s.tol := rfl
@[simp] theorem State.draw_cfg (n : Nat) : (s.draw n).cfg = s.cfg := rfl
@[simp] theorem State.draw_link (n : Nat) : (s.draw n).link = s.link := rfl
@[simp] theorem State.draw_cur (n : Nat) : (s.draw n).cur = s.cur := rfl
@[simp] theorem State.draw_asm (n : Nat) : (s.draw n).asm = s.asm := rfl
@[simp] theorem State.draw_pending (n : Nat) : (s.draw n).pending = s.pending := rfl
@[simp] theorem State.draw_log (n : Nat) : (s.draw n).log = s.log := rfl
@[simp] theorem State.draw_streams (n : Nat) : (s.draw n).streams = s.streams := rfl
@[simp] theorem State.draw_params (n : Nat) : (s.draw n).params = s.params := rfl
@[simp] theorem State.draw_turns (n : Nat) : (s.draw n).turns = s.turns := rfl
@[simp] theorem State.draw_port (n : Nat) : (s.draw n).port = s.port := rfl
@[simp] theorem State.draw_inFlight (n : Nat) : (s.draw n).inFlight = s.inFlight := rfl
@[simp] theorem State.draw_resp (n : Nat) : (s.draw n).resp = s.resp := rfl
@[simp] theorem State.draw_hostOut (n : Nat) : (s.draw n).hostOut = s.hostOut := rfl
@[simp] theorem State.draw_draws (n : Nat) : (s.draw n).draws = s.draws + n := rfl
@[simp] theorem State.draw_pos (n : Nat) (c : Role) : (s.draw n).pos c = s.pos c := rfl
@[simp] theorem State.draw_lvl (n : Nat) (c : Role) : (s.draw n).lvl c = s.lvl c := rfl
@[simp] theorem State.draw_sample (n : Nat) (c : Role) (i : Nat) : (s.draw n).sample c i = s.sample c i := rfl
@[simp] theorem State.draw_avail (n : Nat) (c : Role) : (s.draw n).avail c = s.avail c := rfl
@[simp] theorem State.draw_ended (n : Nat) (c : Role) : (s.draw n).ended c = s.ended c := rfl
@[simp] theorem State.draw_trans (n : Nat) (c : Role) (i : Nat) : (s.draw n).trans c i = s.trans c i := rfl

/-! ### State.answer -/

@[simp] theorem State.answer_status (r : Response) : (s.answer r).status = s.status := rfl
@[simp] theorem State.answer_faultCode (r : Response) : (s.answer r).faultCode = s.faultCode := rfl
@[simp] theorem State.answer_cancelReq (r : Response) : (s.answer r).cancelReq = s.cancelReq := rfl
@[simp] theorem State.answer_tol (r : Response) : (s.answer r).tol = s.tol := rfl
@[simp] theorem State.answer_cfg (r : Response) : (s.answer r).cfg = s.cfg := rfl
@[simp] theorem State.answer_link (r : Response) : (s.answer r).link = s.link := rfl
@[simp] theorem State.answer_cur (r : Response) : (s.answer r).cur = s.cur := rfl
@[simp] theorem State.answer_asm (r : Response) : (s.answer r).asm = s.asm := rfl
@[simp] theorem State.answer_pending (r : Response) : (s.answer r).pending = s.pending := rfl
@[simp] theorem State.answer_log (r : Response) : (s.answer r).log = s.log := rfl
@[simp] theorem State.answer_streams (r : Response) : (s.answer r).streams = s.streams := rfl
@[simp] theorem State.answer_params (r : Response) : (s.answer r).params = s.params := rfl
@[simp] theorem State.answer_turns (r : Response) : (s.answer r).turns = s.turns := rfl
@[simp] theorem State.answer_port (r : Response) : (s.answer r).port = s.port := rfl
@[simp] theorem State.answer_inFlight (r : Response) : (s.answer r).inFlight = s.inFlight := rfl
@[simp] theorem State.answer_resp (r : Response) : (s.answer r).resp = r := rfl
@[simp] theorem State.answer_hostOut (r : Response) : (s.answer r).hostOut = s.hostOut := rfl
@[simp] theorem State.answer_draws (r : Response) : (s.answer r).draws = s.draws := rfl
@[simp] theorem State.answer_pos (r : Response) (c : Role) : (s.answer r).pos c = s.pos c := rfl
@[simp] theorem State.answer_lvl (r : Response) (c : Role) : (s.answer r).lvl c = s.lvl c := rfl
@[simp] theorem State.answer_sample (r : Response) (c : Role) (i : Nat) : (s.answer r).sample c i = s.sample c i := rfl
@[simp] theorem State.answer_avail (r : Response) (c : Role) : (s.answer r).avail c = s.avail c := rfl
@[simp] theorem State.answer_ended (r : Response) (c : Role) : (s.answer r).ended c = s.ended c := rfl
@[simp] theorem State.answer_trans (r : Response) (c : Role) (i : Nat) : (s.answer r).trans c i = s.trans c i := rfl

/-! ### faultEntry -/

@[simp] theorem faultEntry_status (code : FaultCode) : (faultEntry code s).status = .faulted := rfl
@[simp] theorem faultEntry_faultCode (code : FaultCode) : (faultEntry code s).faultCode = code := rfl
@[simp] theorem faultEntry_cancelReq (code : FaultCode) : (faultEntry code s).cancelReq = s.cancelReq := rfl
@[simp] theorem faultEntry_tol (code : FaultCode) : (faultEntry code s).tol = s.tol := rfl
@[simp] theorem faultEntry_cfg (code : FaultCode) : (faultEntry code s).cfg = s.cfg := rfl
@[simp] theorem faultEntry_link (code : FaultCode) : (faultEntry code s).link = s.link := rfl
@[simp] theorem faultEntry_cur (code : FaultCode) : (faultEntry code s).cur = s.cur := rfl
@[simp] theorem faultEntry_asm (code : FaultCode) : (faultEntry code s).asm = s.asm := rfl
@[simp] theorem faultEntry_pending (code : FaultCode) : (faultEntry code s).pending = [] := rfl
@[simp] theorem faultEntry_log (code : FaultCode) : (faultEntry code s).log = s.log := rfl
@[simp] theorem faultEntry_streams (code : FaultCode) : (faultEntry code s).streams = s.streams := rfl
@[simp] theorem faultEntry_params (code : FaultCode) : (faultEntry code s).params = s.params := rfl
@[simp] theorem faultEntry_turns (code : FaultCode) : (faultEntry code s).turns = s.turns := rfl
@[simp] theorem faultEntry_port (code : FaultCode) : (faultEntry code s).port = s.port := rfl
@[simp] theorem faultEntry_inFlight (code : FaultCode) : (faultEntry code s).inFlight = s.inFlight := rfl
@[simp] theorem faultEntry_resp (code : FaultCode) : (faultEntry code s).resp = s.resp := rfl
@[simp] theorem faultEntry_hostOut (code : FaultCode) : (faultEntry code s).hostOut = s.hostOut := rfl
@[simp] theorem faultEntry_draws (code : FaultCode) : (faultEntry code s).draws = s.draws := rfl
@[simp] theorem faultEntry_pos (code : FaultCode) (c : Role) : (faultEntry code s).pos c = s.pos c := rfl
@[simp] theorem faultEntry_lvl (code : FaultCode) (c : Role) : (faultEntry code s).lvl c = s.lvl c := rfl
@[simp] theorem faultEntry_sample (code : FaultCode) (c : Role) (i : Nat) : (faultEntry code s).sample c i = s.sample c i := rfl
@[simp] theorem faultEntry_avail (code : FaultCode) (c : Role) : (faultEntry code s).avail c = s.avail c := rfl
@[simp] theorem faultEntry_ended (code : FaultCode) (c : Role) : (faultEntry code s).ended c = s.ended c := rfl
@[simp] theorem faultEntry_trans (code : FaultCode) (c : Role) (i : Nat) : (faultEntry code s).trans c i = s.trans c i := rfl

/-! ### cancelEntry -/

@[simp] theorem cancelEntry_status : (cancelEntry s).status = .cancelled := rfl
@[simp] theorem cancelEntry_faultCode : (cancelEntry s).faultCode = s.faultCode := rfl
@[simp] theorem cancelEntry_cancelReq : (cancelEntry s).cancelReq = s.cancelReq := rfl
@[simp] theorem cancelEntry_tol : (cancelEntry s).tol = s.tol := rfl
@[simp] theorem cancelEntry_cfg : (cancelEntry s).cfg = s.cfg := rfl
@[simp] theorem cancelEntry_link : (cancelEntry s).link = s.link := rfl
@[simp] theorem cancelEntry_cur : (cancelEntry s).cur = s.cur := rfl
@[simp] theorem cancelEntry_asm : (cancelEntry s).asm = s.asm := rfl
@[simp] theorem cancelEntry_pending : (cancelEntry s).pending = [] := rfl
@[simp] theorem cancelEntry_log : (cancelEntry s).log = s.log := rfl
@[simp] theorem cancelEntry_streams : (cancelEntry s).streams = s.streams := rfl
@[simp] theorem cancelEntry_params : (cancelEntry s).params = s.params := rfl
@[simp] theorem cancelEntry_turns : (cancelEntry s).turns = s.turns := rfl
@[simp] theorem cancelEntry_port : (cancelEntry s).port = s.port := rfl
@[simp] theorem cancelEntry_inFlight : (cancelEntry s).inFlight = s.inFlight := rfl
@[simp] theorem cancelEntry_resp : (cancelEntry s).resp = s.resp := rfl
@[simp] theorem cancelEntry_hostOut : (cancelEntry s).hostOut = s.hostOut := rfl
@[simp] theorem cancelEntry_draws : (cancelEntry s).draws = s.draws := rfl
@[simp] theorem cancelEntry_pos  (c : Role) : (cancelEntry s).pos c = s.pos c := rfl
@[simp] theorem cancelEntry_lvl  (c : Role) : (cancelEntry s).lvl c = s.lvl c := rfl
@[simp] theorem cancelEntry_sample  (c : Role) (i : Nat) : (cancelEntry s).sample c i = s.sample c i := rfl
@[simp] theorem cancelEntry_avail  (c : Role) : (cancelEntry s).avail c = s.avail c := rfl
@[simp] theorem cancelEntry_ended  (c : Role) : (cancelEntry s).ended c = s.ended c := rfl
@[simp] theorem cancelEntry_trans  (c : Role) (i : Nat) : (cancelEntry s).trans c i = s.trans c i := rfl

end Sys2Proof.Machine
end

