-- ==== Sys2Proof/Laws/Roles.lean ====
section
/-! SUPPORT. Selection by role: a cursor read after a cursor written, and the list of the seven roles. -/

namespace Sys2Proof

variable {α : Type}

@[simp] theorem RoleMap.get_set_same (m : RoleMap α) (c : Role) (v : α) : (m.set c v).get c = v := by
  cases c <;> rfl

theorem RoleMap.get_set_other (m : RoleMap α) (c d : Role) (v : α) (h : d ≠ c) : (m.set c v).get d = m.get d := by
  cases c <;> cases d <;> first | rfl | exact absurd rfl h

theorem RoleMap.get_set (m : RoleMap α) (c d : Role) (v : α) :
    (m.set c v).get d = if d = c then v else m.get d := by
  split
  · next h => subst h; exact m.get_set_same d v
  · next h => exact m.get_set_other c d v h

@[simp] theorem RoleMap.get_ofRoles (f : Role → α) (c : Role) : (RoleMap.ofRoles f).get c = f c := by
  cases c <;> rfl

theorem RoleMap.ext_get {m n : RoleMap α} (h : ∀ c, m.get c = n.get c) : m = n := by
  have h0 := h .dataIn
  have h1 := h .dataOut
  have h2 := h .clock
  have h3 := h .hardReset
  have h4 := h .softReset
  have h5 := h .modeSelect0
  have h6 := h .modeSelect1
  cases m
  cases n
  simp only [RoleMap.get] at *
  simp [*]

@[simp] theorem Role.mem_all (c : Role) : c ∈ Role.all := by cases c <;> decide

theorem Role.all_all (p : Role → Bool) : Role.all.all p = true ↔ ∀ c, p c = true := by
  simp [List.all_eq_true]

theorem Role.all_any (p : Role → Bool) : Role.all.any p = true ↔ ∃ c, p c = true := by
  simp [List.any_eq_true]

@[simp] theorem Role.ofCode_code (c : Role) : Role.ofCode c.code = some c := by cases c <;> decide

namespace Machine

variable (s : State)

@[simp] theorem State.place_pos_same (c : Role) (q : Nat) : (s.place c q).pos c = q := by
  simp [State.pos]

@[simp] theorem State.place_lvl_same (c : Role) (q : Nat) : (s.place c q).lvl c = s.sample c q := by
  simp [State.lvl]

theorem State.place_pos_other (c d : Role) (q : Nat) (h : d ≠ c) : (s.place c q).pos d = s.pos d := by
  simp [State.pos, RoleMap.get_set_other _ _ _ _ h]

theorem State.place_lvl_other (c d : Role) (q : Nat) (h : d ≠ c) : (s.place c q).lvl d = s.lvl d := by
  simp [State.lvl, RoleMap.get_set_other _ _ _ _ h]

@[simp] theorem State.placeAll_pos (c : Role) (q : Nat) : (s.placeAll q).pos c = q := by
  simp [State.pos]

@[simp] theorem State.placeAll_lvl (c : Role) (q : Nat) : (s.placeAll q).lvl c = s.sample c q := by
  simp [State.lvl]

end Machine
end Sys2Proof
end

