-- ==== Sys2Proof/Laws/Outcome.lean ====
section
/-! SUPPORT. The outcomes of an operation (R17): what a sequence can come to, and what issuing an operation can come to. -/

namespace Sys2Proof.Machine

variable {α β : Type}

@[simp] theorem Result.andThen_done (a : α) (s : State) (k : α → State → Result β) :
    (Result.done a s).andThen k = k a s := rfl

@[simp] theorem Result.andThen_held (b : Bool) (k : α → State → Result β) :
    (Result.held b : Result α).andThen k = .held b := rfl

@[simp] theorem Result.andThen_raised (c : FaultCode) (k : α → State → Result β) :
    (Result.raised c : Result α).andThen k = .raised c := rfl

theorem Result.andThen_eq_done {r : Result α} {k : α → State → Result β} {b : β} {t : State} :
    r.andThen k = .done b t ↔ ∃ a u, r = .done a u ∧ k a u = .done b t := by
  cases r <;> simp [Result.andThen]

theorem Result.andThen_eq_held {r : Result α} {k : α → State → Result β} {b : Bool} :
    r.andThen k = .held b ↔ r = .held b ∨ ∃ a u, r = .done a u ∧ k a u = .held b := by
  cases r <;> simp [Result.andThen]

theorem Result.andThen_eq_raised {r : Result α} {k : α → State → Result β} {c : FaultCode} :
    r.andThen k = .raised c ↔ r = .raised c ∨ ∃ a u, r = .done a u ∧ k a u = .raised c := by
  cases r <;> simp [Result.andThen]

theorem silent_eq_done {op : State → Result Unit} {s t : State} {v : Option Value} :
    silent op s = .done v t ↔ v = none ∧ op s = .done () t := by
  unfold silent
  rw [Result.andThen_eq_done]
  constructor
  · rintro ⟨⟨⟩, u, hu, h⟩
    cases h
    exact ⟨rfl, hu⟩
  · rintro ⟨rfl, h⟩
    exact ⟨(), t, h, rfl⟩

theorem silent_eq_held {op : State → Result Unit} {s : State} {b : Bool} :
    silent op s = .held b ↔ op s = .held b := by
  unfold silent
  rw [Result.andThen_eq_held]
  simp

theorem silent_eq_raised {op : State → Result Unit} {s : State} {c : FaultCode} :
    silent op s = .raised c ↔ op s = .raised c := by
  unfold silent
  rw [Result.andThen_eq_raised]
  simp

/-- Everything issuing an operation can do (R17, R218, R222). -/
theorem issueIn_cases {e : Status} {op : State → Result (Option Value)} {s : State}
    {o : Host.Outcome State Fault Refusal} (h : issueIn e op s = o) :
    (s.status ≠ e ∧ o = .next (s.answer .refused)) ∨
      (s.status = e ∧
        ((∃ v t, op s = .done v t ∧ o = .next (t.answer (.completed v))) ∨
          (∃ b, op s = .held b ∧ o = .next (s.answer (.held b))) ∨
            ∃ code, op s = .raised code ∧ o = .next ((faultEntry code s).answer .faulted))) := by
  unfold issueIn at h
  split at h
  · next he =>
    refine .inr ⟨he, ?_⟩
    cases hop : op s with
    | done v t => exact .inl ⟨v, t, rfl, by simpa [hop] using h.symm⟩
    | held b => exact .inr (.inl ⟨b, rfl, by simpa [hop] using h.symm⟩)
    | raised code => exact .inr (.inr ⟨code, rfl, by simpa [hop] using h.symm⟩)
  · next he => exact .inl ⟨he, h.symm⟩

theorem issueIn_done {e : Status} {op : State → Result (Option Value)} {s t : State} {v : Option Value}
    (he : s.status = e) (h : op s = .done v t) : issueIn e op s = .next (t.answer (.completed v)) := by
  simp [issueIn, he, h]

theorem issueIn_held {e : Status} {op : State → Result (Option Value)} {s : State} {b : Bool}
    (he : s.status = e) (h : op s = .held b) : issueIn e op s = .next (s.answer (.held b)) := by
  simp [issueIn, he, h]

theorem issueIn_raised {e : Status} {op : State → Result (Option Value)} {s : State} {code : FaultCode}
    (he : s.status = e) (h : op s = .raised code) :
    issueIn e op s = .next ((faultEntry code s).answer .faulted) := by
  simp [issueIn, he, h]

theorem issueIn_refused {e : Status} {op : State → Result (Option Value)} {s : State} (he : s.status ≠ e) :
    issueIn e op s = .next (s.answer .refused) := by
  simp [issueIn, he]

end Sys2Proof.Machine
end

