-- ==== Sys2Proof/Laws/Cursor.lean ====
section
/-! SUPPORT. The cursor primitives: for each, everything it can do. -/

namespace Sys2Proof.Machine

theorem need_cases (c : Role) (i : Nat) (s : State) :
    (i < s.avail c ∧ need c i s = .done () s) ∨ (s.avail c ≤ i ∧ need c i s = .held (s.ended c)) := by
  unfold need
  split
  · next h => exact .inl ⟨h, rfl⟩
  · next h => exact .inr ⟨Nat.not_lt.1 h, rfl⟩

theorem need_done {c : Role} {i : Nat} {s : State} (h : i < s.avail c) : need c i s = .done () s := by
  simp [need, h]

theorem need_held {c : Role} {i : Nat} {s : State} (h : s.avail c ≤ i) : need c i s = .held (s.ended c) := by
  simp [need, Nat.not_lt.2 h]

theorem needAll_done {i : Nat} {s : State} (h : ∀ c, i < s.avail c) : needAll i s = .done () s := by
  unfold needAll
  rw [if_pos]
  simpa [Role.all_all] using h

theorem needAll_cases (i : Nat) (s : State) :
    ((∀ c, i < s.avail c) ∧ needAll i s = .done () s) ∨
      ∃ c, s.avail c ≤ i ∧ ∃ b, needAll i s = .held b ∧ (b = true ↔ ∃ d, s.avail d ≤ i ∧ s.ended d = true) := by
  by_cases h : ∀ c, i < s.avail c
  · exact .inl ⟨h, needAll_done h⟩
  · have h' : ∃ c, s.avail c ≤ i := by
      by_contra hn
      exact h fun c => Nat.not_le.1 fun hc => hn ⟨c, hc⟩
    obtain ⟨c, hc⟩ := h'
    refine .inr ⟨c, hc, Role.all.any fun c => decide (s.avail c ≤ i) && s.ended c, ?_, ?_⟩
    · unfold needAll
      rw [if_neg]
      simpa [Role.all_all] using ⟨c, hc⟩
    · simp

theorem advance_done {c : Role} {n : Nat} {s : State} (h : s.pos c + n < s.avail c) :
    advance c n s = .done () (s.place c (s.pos c + n)) := by
  simp [advance, need_done h]

theorem advance_cases (c : Role) (n : Nat) (s : State) :
    (s.pos c + n < s.avail c ∧ advance c n s = .done () (s.place c (s.pos c + n))) ∨
      (s.avail c ≤ s.pos c + n ∧ advance c n s = .held (s.ended c)) := by
  rcases need_cases c (s.pos c + n) s with ⟨h, hn⟩ | ⟨h, hn⟩
  · exact .inl ⟨h, by simp [advance, hn]⟩
  · exact .inr ⟨h, by simp [advance, hn]⟩

/-- The next edge is the least produced index above the cursor whose sample is not the cursor's level (R118). -/
theorem nextEdge_eq_some {c : Role} {s : State} {e : Nat} :
    nextEdge c s = some e ↔
      s.pos c < e ∧ e < s.avail c ∧ s.sample c e ≠ s.lvl c ∧ ∀ i, s.pos c < i → i < e → s.sample c i = s.lvl c := by
  unfold nextEdge
  rw [List.find?_range'_eq_some]
  simp only [bne_iff_ne, List.mem_range'_1, Bool.not_eq_true', bne_eq_false_iff_eq]
  constructor
  · rintro ⟨h1, h2, h3⟩
    exact ⟨by omega, by omega, h1, fun i hi hie => h3 i (by omega) hie⟩
  · rintro ⟨h1, h2, h3, h4⟩
    exact ⟨h3, by omega, fun i hi hie => h4 i (by omega) hie⟩

theorem nextEdge_eq_none {c : Role} {s : State} :
    nextEdge c s = none ↔ ∀ i, s.pos c < i → i < s.avail c → s.sample c i = s.lvl c := by
  unfold nextEdge
  rw [List.find?_range'_eq_none]
  simp only [Bool.not_eq_true', bne_eq_false_iff_eq]
  constructor
  · intro h i hi hie
    exact h i (by omega) (by omega)
  · intro h i hi hie
    exact h i (by omega) (by omega)

theorem advanceToEdge_done {c : Role} {s : State} {e : Nat} (h1 : s.pos c < e) (h2 : e < s.avail c)
    (h3 : s.sample c e ≠ s.lvl c) (h4 : ∀ i, s.pos c < i → i < e → s.sample c i = s.lvl c) :
    advanceToEdge c s = .done () (s.place c e) := by
  have he : nextEdge c s = some e := nextEdge_eq_some.2 ⟨h1, h2, h3, h4⟩
  have hl : (!s.lvl c) = s.sample c e := by
    cases hx : s.sample c e <;> cases hy : s.lvl c <;> simp_all
  simp only [advanceToEdge, he, State.place, hl]

theorem advanceToEdge_cases (c : Role) (s : State) :
    (∃ e, s.pos c < e ∧ e < s.avail c ∧ s.sample c e ≠ s.lvl c ∧
        (∀ i, s.pos c < i → i < e → s.sample c i = s.lvl c) ∧ advanceToEdge c s = .done () (s.place c e)) ∨
      ((∀ i, s.pos c < i → i < s.avail c → s.sample c i = s.lvl c) ∧ advanceToEdge c s = .held (s.ended c)) := by
  cases he : nextEdge c s with
  | none => exact .inr ⟨nextEdge_eq_none.1 he, by simp [advanceToEdge, he]⟩
  | some e =>
    obtain ⟨h1, h2, h3, h4⟩ := nextEdge_eq_some.1 he
    exact .inl ⟨e, h1, h2, h3, h4, advanceToEdge_done h1 h2 h3 h4⟩

theorem advanceTo_cases (c : Role) (q : Nat) (s : State) :
    (q < s.pos c ∧ advanceTo c q s = .raised .streamPositionViolation) ∨
      (s.pos c ≤ q ∧ q < s.avail c ∧ advanceTo c q s = .done () (s.place c q)) ∨
        (s.pos c ≤ q ∧ s.avail c ≤ q ∧ advanceTo c q s = .held (s.ended c)) := by
  unfold advanceTo
  split
  · next h => exact .inl ⟨h, rfl⟩
  · next h =>
    rcases need_cases c q s with ⟨h', hn⟩ | ⟨h', hn⟩
    · exact .inr (.inl ⟨Nat.not_lt.1 h, h', by simp [hn]⟩)
    · exact .inr (.inr ⟨Nat.not_lt.1 h, h', by simp [hn]⟩)

theorem transitionWithin_iff (c : Role) (n : Nat) (s : State) :
    transitionWithin c n s = true ↔ ∃ i, s.pos c < i ∧ i < s.pos c + n ∧ s.trans c i = true := by
  unfold transitionWithin
  simp only [List.any_eq_true, List.mem_range'_1]
  constructor
  · rintro ⟨i, ⟨h1, h2⟩, h3⟩
    exact ⟨i, by omega, by omega, h3⟩
  · rintro ⟨i, h1, h2, h3⟩
    exact ⟨i, ⟨by omega, by omega⟩, h3⟩

theorem wouldTransition_cases (c : Role) (n : Nat) (s : State) :
    ((2 ≤ n → s.pos c + n - 1 < s.avail c) ∧ wouldTransition c n s = .done (transitionWithin c n s) s) ∨
      (2 ≤ n ∧ s.avail c ≤ s.pos c + n - 1 ∧ wouldTransition c n s = .held (s.ended c)) := by
  unfold wouldTransition
  split
  · next hn =>
    rcases need_cases c (s.pos c + n - 1) s with ⟨h, hd⟩ | ⟨h, hd⟩
    · exact .inl ⟨fun _ => h, by simp [hd]⟩
    · exact .inr ⟨hn, h, by simp [hd]⟩
  · next hn =>
    refine .inl ⟨fun h => absurd h hn, ?_⟩
    have : transitionWithin c n s = false := by
      have h0 : n - 1 = 0 := by omega
      simp [transitionWithin, h0]
    rw [this]

theorem resync_done {q : Nat} {s : State} (hp : ∀ c, s.pos c ≤ q) (ha : ∀ c, q < s.avail c) :
    resync q s = .done () (s.placeAll q) := by
  unfold resync
  rw [if_neg, needAll_done ha]
  · rfl
  · simp only [Role.all_any, decide_eq_true_eq, not_exists, Nat.not_lt]
    exact hp

theorem resync_raised {q : Nat} {s : State} {c : Role} (h : q < s.pos c) :
    resync q s = .raised .streamPositionViolation := by
  unfold resync
  rw [if_pos]
  simp only [Role.all_any, decide_eq_true_eq]
  exact ⟨c, h⟩

theorem resync_cases (q : Nat) (s : State) :
    ((∃ c, q < s.pos c) ∧ resync q s = .raised .streamPositionViolation) ∨
      ((∀ c, s.pos c ≤ q) ∧ (∀ c, q < s.avail c) ∧ resync q s = .done () (s.placeAll q)) ∨
        ((∀ c, s.pos c ≤ q) ∧ ∃ c, s.avail c ≤ q ∧
          ∃ b, resync q s = .held b ∧ (b = true ↔ ∃ d, s.avail d ≤ q ∧ s.ended d = true)) := by
  by_cases h : ∃ c, q < s.pos c
  · obtain ⟨c, hc⟩ := h
    exact .inl ⟨⟨c, hc⟩, resync_raised hc⟩
  · have hp : ∀ c, s.pos c ≤ q := fun c => Nat.not_lt.1 fun hc => h ⟨c, hc⟩
    rcases needAll_cases q s with ⟨ha, -⟩ | ⟨c, hc, b, hb, hi⟩
    · exact .inr (.inl ⟨hp, ha, resync_done hp ha⟩)
    · refine .inr (.inr ⟨hp, c, hc, b, ?_, hi⟩)
      unfold resync
      rw [if_neg, hb]
      · rfl
      · simpa [Role.all_any] using hp

/-- RDBIT reads: it never moves a cursor, and it never faults (R144, R146, R149). -/
theorem readBit_cases (c : Role) (s : State) :
    (∃ b, readBit c s = .done b s) ∨ readBit c s = .held (s.ended c) := by
  unfold readBit
  split
  · unfold readBitConfirm
    rcases wouldTransition_cases c (s.tol + 2) s with ⟨-, h⟩ | ⟨-, -, h⟩
    · rcases need_cases c (s.pos c + s.tol + 2) s with ⟨-, h'⟩ | ⟨-, h'⟩
      · exact .inl ⟨_, by simp [h, h']; rfl⟩
      · exact .inr (by simp [h, h'])
    · exact .inr (by simp [h])
  · unfold readBitDefault
    rcases wouldTransition_cases c s.tol s with ⟨-, h⟩ | ⟨-, -, h⟩
    · rcases wouldTransition_cases c (s.tol + 2) s with ⟨-, h'⟩ | ⟨-, -, h'⟩
      · exact .inl ⟨_, by simp [h, h']; rfl⟩
      · exact .inr (by simp [h, h'])
    · exact .inr (by simp [h])

end Sys2Proof.Machine
end

