-- ==== Sys2Proof/Laws/Exec.lean ====
section
/-! SUPPORT. `exec`, said once for all instructions: each is issued in one status with one contract. -/

namespace Sys2Proof.Machine

/-- The status that enables an instruction (R42): Init for CFGCHK, Running for every other. -/
def enabledIn : Instr → Status
  | .cfgchk => .init
  | _ => .running

/-- An instruction's contract. -/
def contract : Instr → State → Result (Option Value)
  | .lvl c => returnsBit (readLevel c)
  | .adv c n => silent (advance c n)
  | .adve c => silent (advanceToEdge c)
  | .adva c q => silent (advanceTo c q)
  | .wtw c n => returnsBit (wouldTransition c n)
  | .pos c => returnsNat (readPosition c)
  | .rsync q => silent (resync q)
  | .rdbit c => returnsBit (readBit c)
  | .cfgchk => silent checkConfig
  | .canchk => silent fun t => .done () (cancelCheck t)
  | .step => silent loopIteration
  | .boot => silent bootAction
  | .crdy => silent alignAction
  | .pstart => silent packetAction
  | .inert => silent inertAction
  | .cycle => silent captureCycle
  | .pbit => silent preambleBit
  | .period => silent bitPeriod
  | .lensel => silent fun t => .done () (lengthSelect t)
  | .dbit => silent payloadBit
  | .emit => silent fun t => .done () (emitBatch t)
  | .reservedLvlCh7 => illegalOperation
  | .reservedAdvCh7 => illegalOperation
  | .reservedAdveCh7 => illegalOperation
  | .reservedAdvaCh7 => illegalOperation
  | .reservedWtwCh7 => illegalOperation
  | .reservedPosCh7 => illegalOperation
  | .reservedRdbitCh7 => illegalOperation
  | .reservedRsyncCh _ => illegalOperation
  | .reservedCfgchkCh _ => illegalOperation
  | .reservedCanchkCh _ => illegalOperation
  | .reservedStepCh _ => illegalOperation
  | .reservedBootCh _ => illegalOperation
  | .reservedCrdyCh _ => illegalOperation
  | .reservedPstartCh _ => illegalOperation
  | .reservedInertCh _ => illegalOperation
  | .reservedCycleCh _ => illegalOperation
  | .reservedPbitCh _ => illegalOperation
  | .reservedPeriodCh _ => illegalOperation
  | .reservedLenselCh _ => illegalOperation
  | .reservedDbitCh _ => illegalOperation
  | .reservedEmitCh _ => illegalOperation
  | .reservedOpcode15 _ => illegalOperation
  | .reservedOpcode16 _ => illegalOperation
  | .reservedOpcode17 _ => illegalOperation
  | .reservedOpcode18 _ => illegalOperation
  | .reservedOpcode19 _ => illegalOperation
  | .reservedOpcode1A _ => illegalOperation
  | .reservedOpcode1B _ => illegalOperation
  | .reservedOpcode1C _ => illegalOperation
  | .reservedOpcode1D _ => illegalOperation
  | .reservedOpcode1E _ => illegalOperation
  | .reservedOpcode1F _ => illegalOperation
  | .bdmFrame mc st ow iw => silent (receiveFrame mc st ow iw)
  | .marker c p k => silent fun t => .done () (putMarker c p k t)
  | .frame k a b v f => silent fun t => .done () (putFrame k a b v f t)
  | .outViewInView m c i s1 s2 d => silent fun t => .done () (putViews m c i s1 s2 d t)
  | .commit => silent fun t => .done () t.commitBatch

/-- Everything `exec` does. -/
theorem exec_eq_issueIn (i : Instr) (s : State) : exec i s = issueIn (enabledIn i) (contract i) s := by
  cases i <;> rfl

/-- Every instruction answers a next state: none ends in a fault or a refusal of the model. -/
theorem exec_next (i : Instr) (s : State) : ∃ t, exec i s = .next t := by
  rw [exec_eq_issueIn]
  rcases issueIn_cases (e := enabledIn i) (op := contract i) (s := s) rfl with
    ⟨-, h⟩ | ⟨-, ⟨_, _, -, h⟩ | ⟨_, -, h⟩ | ⟨_, -, h⟩⟩
  all_goals exact ⟨_, h⟩

/-- The four outcomes of an instruction (R17). -/
theorem exec_cases {i : Instr} {s t : State} (h : exec i s = .next t) :
    (s.status ≠ enabledIn i ∧ t = s.answer .refused) ∨
      (s.status = enabledIn i ∧
        ((∃ v u, contract i s = .done v u ∧ t = u.answer (.completed v)) ∨
          (∃ b, contract i s = .held b ∧ t = s.answer (.held b)) ∨
            ∃ code, contract i s = .raised code ∧ t = (faultEntry code s).answer .faulted)) := by
  rw [exec_eq_issueIn] at h
  rcases issueIn_cases h with ⟨he, h⟩ | ⟨he, ⟨v, u, hu, h⟩ | ⟨b, hb, h⟩ | ⟨code, hc, h⟩⟩
  · exact .inl ⟨he, by injection h⟩
  · exact .inr ⟨he, .inl ⟨v, u, hu, by injection h⟩⟩
  · exact .inr ⟨he, .inr (.inl ⟨b, hb, by injection h⟩)⟩
  · exact .inr ⟨he, .inr (.inr ⟨code, hc, by injection h⟩)⟩

end Sys2Proof.Machine
end

