-- ==== Sys2Proof/Laws/Frame.lean ====
section
/-! SUPPORT. What no operation changes: the environment, the configuration, the parameters, the model's bookkeeping; and
the log only grows. Proved once for every contract. -/

namespace Sys2Proof.Machine

/-- `t` comes from `s` by an operation that completed: what every operation leaves as it was, and the log appended to. -/
structure Keeps (s t : State) : Prop where
  cfg : t.cfg = s.cfg
  streams : t.streams = s.streams
  params : t.params = s.params
  turns : t.turns = s.turns
  port : t.port = s.port
  inFlight : t.inFlight = s.inFlight
  hostOut : t.hostOut = s.hostOut
  cancelReq : t.cancelReq = s.cancelReq
  faultCode : t.faultCode = s.faultCode
  log : s.log <+: t.log

theorem Keeps.refl (s : State) : Keeps s s :=
  ⟨rfl, rfl, rfl, rfl, rfl, rfl, rfl, rfl, rfl, List.prefix_rfl⟩

theorem Keeps.trans {s t u : State} (h : Keeps s t) (g : Keeps t u) : Keeps s u :=
  ⟨g.cfg.trans h.cfg, g.streams.trans h.streams, g.params.trans h.params, g.turns.trans h.turns, g.port.trans h.port,
    g.inFlight.trans h.inFlight, g.hostOut.trans h.hostOut, g.cancelReq.trans h.cancelReq,
    g.faultCode.trans h.faultCode, h.log.trans g.log⟩

/-- The samples an operation sees are those of the state it started from. -/
theorem Keeps.sample {s t : State} (h : Keeps s t) (c : Role) (i : Nat) : t.sample c i = s.sample c i := by
  simp [State.sample, State.bound, h.cfg, h.streams]

theorem Keeps.avail {s t : State} (h : Keeps s t) (c : Role) : t.avail c = s.avail c := by
  simp [State.avail, State.stream, State.bound, h.cfg, h.streams]

theorem Keeps.ended {s t : State} (h : Keeps s t) (c : Role) : t.ended c = s.ended c := by
  simp [State.ended, State.stream, State.bound, h.cfg, h.streams]

theorem Keeps.samplesTrans {s t : State} (h : Keeps s t) (c : Role) (i : Nat) : t.trans c i = s.trans c i := by
  simp [State.trans, h.sample]

/-- An operation whose completions keep. -/
def KeepsDone {α : Type} (op : State → Result α) : Prop := ∀ s a t, op s = .done a t → Keeps s t

theorem KeepsDone.andThen {α β : Type} {f : State → Result α} {g : α → State → Result β} (hf : KeepsDone f)
    (hg : ∀ a, KeepsDone (g a)) : KeepsDone fun s => (f s).andThen g := by
  intro s b t h
  obtain ⟨a, u, h1, h2⟩ := Result.andThen_eq_done.1 h
  exact (hf s a u h1).trans (hg a u b t h2)

theorem KeepsDone.pure {α : Type} (a : α) {f : State → State} (hf : ∀ s, Keeps s (f s)) :
    KeepsDone fun s => Result.done a (f s) := by
  intro s b t h
  cases h
  exact hf s

theorem KeepsDone.silent {op : State → Result Unit} (h : KeepsDone op) : KeepsDone (silent op) :=
  h.andThen fun _ => KeepsDone.pure _ Keeps.refl

theorem KeepsDone.returnsBit {op : State → Result Bit} (h : KeepsDone op) : KeepsDone (returnsBit op) :=
  h.andThen fun b => KeepsDone.pure (some (Value.bit b)) Keeps.refl

theorem KeepsDone.returnsNat {op : State → Result Nat} (h : KeepsDone op) : KeepsDone (returnsNat op) :=
  h.andThen fun n => KeepsDone.pure (some (Value.nat n)) Keeps.refl

theorem keeps_readPosition (c : Role) : KeepsDone (readPosition c) := fun s _ _ h => by
  cases h
  exact Keeps.refl s

theorem keeps_place (s : State) (c : Role) (q : Nat) : Keeps s (s.place c q) := ⟨rfl, rfl, rfl, rfl, rfl, rfl, rfl, rfl, rfl, List.prefix_rfl⟩
theorem keeps_placeAll (s : State) (q : Nat) : Keeps s (s.placeAll q) := ⟨rfl, rfl, rfl, rfl, rfl, rfl, rfl, rfl, rfl, List.prefix_rfl⟩
theorem keeps_emit (s : State) (e : Event) : Keeps s (s.emit e) := ⟨rfl, rfl, rfl, rfl, rfl, rfl, rfl, rfl, rfl, List.prefix_append _ _⟩
theorem keeps_pend (s : State) (e : Event) : Keeps s (s.pend e) := ⟨rfl, rfl, rfl, rfl, rfl, rfl, rfl, rfl, rfl, List.prefix_rfl⟩
theorem keeps_setLink (s : State) (l : LinkState) : Keeps s (s.setLink l) := ⟨rfl, rfl, rfl, rfl, rfl, rfl, rfl, rfl, rfl, List.prefix_rfl⟩
theorem keeps_setAsm (s : State) (a : Assembler) : Keeps s (s.setAsm a) := ⟨rfl, rfl, rfl, rfl, rfl, rfl, rfl, rfl, rfl, List.prefix_rfl⟩
theorem keeps_draw (s : State) (n : Nat) : Keeps s (s.draw n) := ⟨rfl, rfl, rfl, rfl, rfl, rfl, rfl, rfl, rfl, List.prefix_rfl⟩
theorem keeps_cancelEntry (s : State) : Keeps s (cancelEntry s) := ⟨rfl, rfl, rfl, rfl, rfl, rfl, rfl, rfl, rfl, List.prefix_rfl⟩

theorem keeps_commitBatch (s : State) : Keeps s s.commitBatch :=
  ⟨rfl, rfl, rfl, rfl, rfl, rfl, rfl, rfl, rfl, by simp [List.append_assoc]⟩

theorem keeps_putMarker (c : Role) (p : Nat) (k : MarkerKind) (s : State) : Keeps s (putMarker c p k s) := by
  cases k
  · exact keeps_pend s _
  · exact keeps_emit s _

theorem keeps_putBitMarkers (s : State) : Keeps s (putBitMarkers s) :=
  (keeps_putMarker _ _ _ s).trans (keeps_putMarker _ _ _ _)

theorem keeps_putViews (m c : Bit) (i : Bytes4) (s1 s2 : Bit) (d : Bytes4) (s : State) :
    Keeps s (putViews m c i s1 s2 d s) :=
  (keeps_pend s _).trans (keeps_pend _ _)

theorem keeps_emitBatch (s : State) : Keeps s (emitBatch s) :=
  ((((((keeps_pend s _).trans (keeps_pend _ _)).trans (keeps_pend _ _)).trans (keeps_pend _ _)).trans
    (keeps_putViews _ _ _ _ _ _ _)).trans (keeps_commitBatch _)).trans (keeps_draw _ _)

theorem keeps_beginCycle (s : State) : Keeps s (beginCycle s) := ⟨rfl, rfl, rfl, rfl, rfl, rfl, rfl, rfl, rfl, List.prefix_rfl⟩

theorem keeps_beginPayload (s : State) : Keeps s (beginPayload s) := ⟨rfl, rfl, rfl, rfl, rfl, rfl, rfl, rfl, rfl, List.prefix_rfl⟩

theorem keeps_endCycle (s : State) : Keeps s (endCycle s) := (keeps_setAsm s _).trans (keeps_emitBatch _)

theorem keeps_need (c : Role) (i : Nat) : KeepsDone (need c i) := by
  intro s a t h
  rcases need_cases c i s with ⟨-, h'⟩ | ⟨-, h'⟩ <;> rw [h'] at h <;> cases h
  exact Keeps.refl s

theorem keeps_advance (c : Role) (n : Nat) : KeepsDone (advance c n) := by
  intro s a t h
  rcases advance_cases c n s with ⟨-, h'⟩ | ⟨-, h'⟩ <;> rw [h'] at h <;> cases h
  exact keeps_place s _ _

theorem keeps_advanceToEdge (c : Role) : KeepsDone (advanceToEdge c) := by
  intro s a t h
  rcases advanceToEdge_cases c s with ⟨e, -, -, -, -, h'⟩ | ⟨-, h'⟩ <;> rw [h'] at h <;> cases h
  exact keeps_place s _ _

theorem keeps_advanceTo (c : Role) (q : Nat) : KeepsDone (advanceTo c q) := by
  intro s a t h
  rcases advanceTo_cases c q s with ⟨-, h'⟩ | ⟨-, -, h'⟩ | ⟨-, -, h'⟩ <;> rw [h'] at h <;> cases h
  exact keeps_place s _ _

theorem keeps_resync (q : Nat) : KeepsDone (resync q) := by
  intro s a t h
  rcases resync_cases q s with ⟨-, h'⟩ | ⟨-, -, h'⟩ | ⟨-, _, -, _, h', -⟩ <;> rw [h'] at h <;> cases h
  exact keeps_placeAll s _

theorem keeps_readLevel (c : Role) : KeepsDone (readLevel c) := by
  intro s a t h
  cases h
  exact Keeps.refl s

theorem keeps_wouldTransition (c : Role) (n : Nat) : KeepsDone (wouldTransition c n) := by
  intro s a t h
  rcases wouldTransition_cases c n s with ⟨-, h'⟩ | ⟨-, -, h'⟩ <;> rw [h'] at h <;> cases h
  exact Keeps.refl s

theorem keeps_readBit (c : Role) : KeepsDone (readBit c) := by
  intro s a t h
  rcases readBit_cases c s with ⟨b, h'⟩ | h' <;> rw [h'] at h <;> cases h
  exact Keeps.refl s

theorem keeps_bitPeriod : KeepsDone bitPeriod :=
  (keeps_advanceToEdge _).andThen fun _ => (keeps_advanceToEdge _).andThen fun _ s a t h =>
    KeepsDone.andThen (keeps_resync (s.pos .clock))
      (fun _ u b v hv =>
        KeepsDone.andThen (keeps_advance .dataIn u.tol) (fun _ w d x hx => keeps_advance .dataOut w.tol w d x hx) u b v hv)
      s a t h

theorem keeps_pushPreamble (bo bi : Bit) (s : State) : Keeps s (pushPreamble bo bi s) := keeps_setAsm s _
theorem keeps_pushPayload (bo bi : Bit) (s : State) : Keeps s (pushPayload bo bi s) := keeps_setAsm s _

theorem keeps_takeBits {push : Bit → Bit → State → State} (hp : ∀ bo bi s, Keeps s (push bo bi s)) (bo bi : Bit) :
    KeepsDone (takeBits push bo bi) := fun s a t h =>
  ((keeps_putBitMarkers s).trans (hp bo bi _)).trans (keeps_bitPeriod _ a t h)

theorem keeps_preambleBit : KeepsDone preambleBit :=
  (keeps_readBit _).andThen fun _ => (keeps_readBit _).andThen fun _ => keeps_takeBits keeps_pushPreamble _ _

theorem keeps_payloadBit : KeepsDone payloadBit :=
  (keeps_readLevel _).andThen fun _ => (keeps_readLevel _).andThen fun _ => keeps_takeBits keeps_pushPayload _ _

theorem keeps_repeatOp {op : State → Result Unit} (h : KeepsDone op) (n : Nat) : KeepsDone (repeatOp n op) := by
  induction n with
  | zero => exact KeepsDone.pure () Keeps.refl
  | succ n ih => exact h.andThen fun _ => ih

theorem keeps_takeAll {push : Bit → Bit → State → State} (hp : ∀ bo bi s, Keeps s (push bo bi s))
    (bits : List (Bit × Bit)) : KeepsDone (takeAll push bits) := by
  induction bits with
  | nil => exact KeepsDone.pure () Keeps.refl
  | cons b bits ih => exact (keeps_takeBits hp b.1 b.2).andThen fun _ => ih

theorem keeps_capture {preamble payload : State → Result Unit} (h1 : KeepsDone preamble) (h2 : KeepsDone payload) :
    KeepsDone (capture preamble payload) := by
  intro s a t h
  obtain ⟨_, u, hu, h⟩ := Result.andThen_eq_done.1 h
  obtain ⟨_, v, hv, h⟩ := Result.andThen_eq_done.1 h
  cases h
  exact (((keeps_beginCycle s).trans (h1 _ _ _ hu)).trans ((keeps_beginPayload u).trans (h2 _ _ _ hv))).trans
    (keeps_endCycle v)

theorem keeps_captureCycle : KeepsDone captureCycle :=
  keeps_capture (keeps_repeatOp keeps_preambleBit 3) fun s a t h => keeps_repeatOp keeps_payloadBit _ s a t h

theorem keeps_receiveFrame (mc st : BitVec 3) (ow iw : BitVec 32) : KeepsDone (receiveFrame mc st ow iw) :=
  keeps_capture (keeps_takeAll keeps_pushPreamble _) fun s a t h => keeps_takeAll keeps_pushPayload _ s a t h

theorem keeps_cancelCheck (s : State) : Keeps s (cancelCheck s) := by
  unfold cancelCheck
  split
  · exact keeps_cancelEntry s
  · exact Keeps.refl s

theorem keeps_startSession (s : State) : Keeps s (startSession s) :=
  ⟨rfl, rfl, rfl, rfl, rfl, rfl, rfl, rfl, rfl, List.prefix_rfl⟩

theorem keeps_checkConfig : KeepsDone checkConfig := by
  intro s a t h
  unfold checkConfig at h
  split at h
  · cases h
  · rcases needAll_cases s.params.startPos s with ⟨-, hn⟩ | ⟨_, -, _, hn, -⟩ <;> rw [hn] at h <;> cases h
    exact keeps_startSession s

theorem keeps_bootAction : KeepsDone bootAction := by
  refine (keeps_advanceToEdge _).andThen fun _ => ?_
  intro s a t h
  obtain ⟨_, u, hu, h⟩ := Result.andThen_eq_done.1 h
  obtain ⟨_, v, hv, h⟩ := Result.andThen_eq_done.1 h
  cases h
  refine Keeps.trans ?_ ((keeps_resync _ _ _ _ hv).trans (keeps_setLink v _))
  split at hu
  · exact keeps_advanceToEdge _ _ _ _ hu
  · cases hu
    exact Keeps.refl _

theorem keeps_alignAction : KeepsDone alignAction := by
  intro s a t h
  obtain ⟨_, s1, h1, h⟩ := Result.andThen_eq_done.1 h
  obtain ⟨_, s2, h2, h⟩ := Result.andThen_eq_done.1 h
  obtain ⟨_, s3, h3, h⟩ := Result.andThen_eq_done.1 h
  obtain ⟨_, s4, h4, h⟩ := Result.andThen_eq_done.1 h
  cases h
  refine ((keeps_advanceToEdge _ _ _ _ h1).trans (keeps_advance _ _ _ _ _ h2)).trans (Keeps.trans ?_
    (((keeps_putMarker _ _ _ s3).trans (keeps_resync _ _ _ _ h4)).trans (keeps_setLink s4 _)))
  split at h3
  · exact keeps_advanceToEdge _ _ _ _ h3
  · cases h3
    exact Keeps.refl _

theorem keeps_packetAction : KeepsDone packetAction := by
  intro s a t h
  unfold packetAction at h
  split at h
  · obtain ⟨_, u, hu, h⟩ := Result.andThen_eq_done.1 h
    cases h
    exact (keeps_captureCycle _ _ _ hu).trans (keeps_setLink u _)
  · cases h
    exact keeps_setLink s _

theorem keeps_inertAction : KeepsDone inertAction := KeepsDone.pure () Keeps.refl

theorem keeps_linkAction : KeepsDone linkAction := by
  intro s a t h
  unfold linkAction at h
  split at h
  · exact keeps_bootAction _ _ _ h
  · exact keeps_inertAction _ _ _ h
  · exact keeps_inertAction _ _ _ h
  · exact keeps_inertAction _ _ _ h
  · exact keeps_inertAction _ _ _ h
  · exact keeps_alignAction _ _ _ h
  · exact keeps_packetAction _ _ _ h

theorem keeps_loopIteration : KeepsDone loopIteration := by
  intro s a t h
  unfold loopIteration at h
  dsimp only at h
  split at h
  · cases h
    exact keeps_cancelCheck s
  · exact (keeps_cancelCheck s).trans (keeps_linkAction _ _ _ h)

theorem keeps_illegalOperation : KeepsDone illegalOperation := fun _ _ _ h => by cases h

/-- What every instruction that completes leaves as it was. -/
theorem contract_keeps (i : Instr) : KeepsDone (contract i) := by
  cases i
  case lvl c => exact (keeps_readLevel c).returnsBit
  case adv c n => exact (keeps_advance c n).silent
  case adve c => exact (keeps_advanceToEdge c).silent
  case adva c q => exact (keeps_advanceTo c q).silent
  case wtw c n => exact (keeps_wouldTransition c n).returnsBit
  case pos c => exact (keeps_readPosition c).returnsNat
  case rsync q => exact (keeps_resync q).silent
  case rdbit c => exact (keeps_readBit c).returnsBit
  case cfgchk => exact keeps_checkConfig.silent
  case canchk => exact (KeepsDone.pure () keeps_cancelCheck).silent
  case step => exact keeps_loopIteration.silent
  case boot => exact keeps_bootAction.silent
  case crdy => exact keeps_alignAction.silent
  case pstart => exact keeps_packetAction.silent
  case inert => exact keeps_inertAction.silent
  case cycle => exact keeps_captureCycle.silent
  case pbit => exact keeps_preambleBit.silent
  case period => exact keeps_bitPeriod.silent
  case lensel => exact (KeepsDone.pure () fun s => keeps_setAsm s _).silent
  case dbit => exact keeps_payloadBit.silent
  case emit => exact (KeepsDone.pure () keeps_emitBatch).silent
  case bdmFrame mc st ow iw => exact (keeps_receiveFrame mc st ow iw).silent
  case marker c p k => exact (KeepsDone.pure () (keeps_putMarker c p k)).silent
  case frame k a b v f => exact (KeepsDone.pure () fun s => keeps_pend s _).silent
  case outViewInView m c j s1 s2 d => exact (KeepsDone.pure () (keeps_putViews m c j s1 s2 d)).silent
  case commit => exact (KeepsDone.pure () keeps_commitBatch).silent
  all_goals exact keeps_illegalOperation

end Sys2Proof.Machine
end

