-- ==== Sys2Proof/Laws/Period.lean ====
section
/-! SUPPORT. The edges and the classifier in the terms of Safety.lean, one bit period, and the loop of a capture cycle: the
state after `k` bits. -/

namespace Sys2Proof.Machine

theorem State.trans_iff (s : State) (c : Role) (i : Nat) :
    s.trans c i = true ↔ 1 ≤ i ∧ s.sample c i ≠ s.sample c (i - 1) := by
  simp [State.trans]

/-- No transition in a stretch of samples: its level is the one it starts with. -/
theorem sample_eq_of_no_trans (s : State) (c : Role) (p k : Nat)
    (h : ∀ j, 1 ≤ j → j ≤ k → s.trans c (p + j) = false) : s.sample c (p + k) = s.sample c p := by
  induction k with
  | zero => rfl
  | succ k ih =>
    have h1 := h (k + 1) (by omega) (by omega)
    have h2 : s.sample c (p + (k + 1)) = s.sample c (p + k) := by
      by_contra hne
      have : s.trans c (p + (k + 1)) = true := (s.trans_iff c _).2 ⟨by omega, by
        rwa [show p + (k + 1) - 1 = p + k from by omega]⟩
      rw [this] at h1
      cases h1
    rw [h2, ih fun j hj hk => h j hj (by omega)]

theorem transitionWithin_iff_near (s : State) (c : Role) :
    transitionWithin c (s.tol + 2) s = true ↔ TransitionNear s c (s.pos c) := by
  rw [transitionWithin_iff]
  constructor
  · rintro ⟨i, h1, h2, h3⟩
    exact ⟨i - s.pos c, by omega, by omega, by rwa [show s.pos c + (i - s.pos c) = i from by omega]⟩
  · rintro ⟨k, h1, h2, h3⟩
    exact ⟨s.pos c + k, by omega, by omega, h3⟩

/-- A transition the narrow window sees is one the wide window sees (R145). -/
theorem transitionWithin_mono (s : State) (c : Role) {m n : Nat} (hmn : m ≤ n)
    (h : transitionWithin c m s = true) : transitionWithin c n s = true := by
  obtain ⟨i, h1, h2, h3⟩ := (transitionWithin_iff c m s).1 h
  exact (transitionWithin_iff c n s).2 ⟨i, h1, by omega, h3⟩

theorem classifyDefault_eq (l w1 w2 : Bit) (h : w1 = true → w2 = true) :
    classifyDefault l w1 w2 = if w2 = true then !l else l := by
  cases w1 <;> cases w2 <;> simp_all [classifyDefault]

/-- Everything RDBIT answers once its window is produced (R144 to R146). -/
theorem readBit_classified (s : State) (c : Role) (hc : s.lvl c = s.sample c (s.pos c))
    (h : s.pos c + classifierReach s < s.avail c) : readBit c s = .done (classifiedAt s c (s.pos c)) s := by
  have hn : ∀ n, n ≤ s.tol + 2 → wouldTransition c n s = .done (transitionWithin c n s) s := by
    intro n hle
    rcases wouldTransition_cases c n s with ⟨-, h'⟩ | ⟨h2, h', -⟩
    · exact h'
    · exfalso
      unfold classifierReach at h
      split at h <;> omega
  unfold readBit classifiedAt
  split
  · next hg =>
    have hfar : s.pos c + s.tol + 2 < s.avail c := by
      rw [classifierReach, if_pos hg] at h
      omega
    simp only [readBitConfirm, hn (s.tol + 2) (Nat.le_refl _), Result.andThen_done, need_done hfar, classifyConfirm,
      transitionWithin_iff_near, hc]
  · next hg =>
    simp only [readBitDefault, hn s.tol (by omega), hn (s.tol + 2) (Nat.le_refl _), Result.andThen_done]
    rw [classifyDefault_eq _ _ _ (transitionWithin_mono s c (by omega))]
    simp only [transitionWithin_iff_near, hc]

theorem readBit_held_of_short (s : State) (c : Role) (h : s.avail c ≤ s.pos c + classifierReach s) :
    readBit c s = .held (s.ended c) := by
  unfold readBit
  unfold classifierReach at h
  split
  · next hg =>
    rw [if_pos hg] at h
    unfold readBitConfirm
    rcases wouldTransition_cases c (s.tol + 2) s with ⟨-, h'⟩ | ⟨-, -, h'⟩
    · simp [h', need_held (c := c) (i := s.pos c + s.tol + 2) (by omega)]
    · simp [h']
  · next hg =>
    rw [if_neg hg] at h
    unfold readBitDefault
    have hw : wouldTransition c (s.tol + 2) s = .held (s.ended c) := by
      rcases wouldTransition_cases c (s.tol + 2) s with ⟨h1, -⟩ | ⟨-, -, h'⟩
      · have := h1 (by omega)
        omega
      · exact h'
    rcases wouldTransition_cases c s.tol s with ⟨-, h'⟩ | ⟨-, -, h'⟩
    · simp [h', hw]
    · simp [h']

theorem advanceToEdge_edgeAt {s : State} {c : Role} {e : Nat} (hc : s.lvl c = s.sample c (s.pos c))
    (he : EdgeAt s c (s.pos c) e) (ha : e < s.avail c) : advanceToEdge c s = .done () (s.place c e) :=
  advanceToEdge_done he.1 ha (by rw [hc]; exact he.2.1) fun i h1 h2 => by rw [hc]; exact he.2.2 i h2 h1

/-- The cursors seen through their accessors decide a state's cursor file. -/
theorem State.cur_ext {s : State} {m : RoleMap Cursor}
    (h : ∀ c, s.pos c = (m.get c).pos ∧ s.lvl c = (m.get c).lvl) : s.cur = m := by
  apply RoleMap.ext_get
  intro c
  obtain ⟨h1, h2⟩ := h c
  cases hs : s.cur.get c
  cases hm : m.get c
  simp_all [State.pos, State.lvl]

/-- Everything PERIOD does once its clock edges and its samples are there (R179). -/
theorem bitPeriod_done {s : State} {e : Nat} (hc : s.lvl .clock = s.sample .clock (s.pos .clock))
    (hp : ClockPeriod s (s.pos .clock) e) (hle : ∀ c, s.pos c ≤ e) (ha : ∀ c, e < s.avail c)
    (hi : e + s.tol < s.avail .dataIn) (ho : e + s.tol < s.avail .dataOut) :
    bitPeriod s = .done () { s with cur := periodCursors s e } := by
  obtain ⟨m, hm, h1, h2⟩ := hp
  have e1 := advanceToEdge_edgeAt hc h1 (Nat.lt_trans hm (ha .clock))
  have e2 : advanceToEdge .clock (s.place .clock m) = .done () ((s.place .clock m).place .clock e) :=
    advanceToEdge_edgeAt (by simp) (by simpa [EdgeAt] using h2) (by simpa using ha .clock)
  have e3 : resync e ((s.place .clock m).place .clock e) =
      .done () (((s.place .clock m).place .clock e).placeAll e) := by
    refine resync_done (fun c => ?_) (fun c => by simpa using ha c)
    by_cases hcc : c = .clock
    · subst hcc; simp
    · rw [State.place_pos_other _ _ _ _ hcc, State.place_pos_other _ _ _ _ hcc]; exact hle c
  have e4 : advance .dataIn s.tol (((s.place .clock m).place .clock e).placeAll e) =
      .done () ((((s.place .clock m).place .clock e).placeAll e).place .dataIn (e + s.tol)) := by
    simpa using advance_done (c := .dataIn) (n := s.tol) (s := ((s.place .clock m).place .clock e).placeAll e)
      (by simpa using hi)
  have e5 : advance .dataOut s.tol ((((s.place .clock m).place .clock e).placeAll e).place .dataIn (e + s.tol)) =
      .done () (((((s.place .clock m).place .clock e).placeAll e).place .dataIn (e + s.tol)).place .dataOut
        (e + s.tol)) := by
    have hd : (((((s.place .clock m).place .clock e).placeAll e).place .dataIn (e + s.tol))).pos .dataOut = e := by
      rw [State.place_pos_other _ _ _ _ (by decide)]; simp
    have := advance_done (c := .dataOut) (n := s.tol)
      (s := (((s.place .clock m).place .clock e).placeAll e).place .dataIn (e + s.tol)) (by rw [hd]; simpa using ho)
    rwa [hd] at this
  unfold bitPeriod
  rw [e1, Result.andThen_done, e2, Result.andThen_done, State.place_pos_same, e3, Result.andThen_done]
  simp only [State.placeAll_tol, State.place_tol]
  rw [e4, Result.andThen_done]
  simp only [State.placeAll_tol, State.place_tol]
  rw [e5]
  rfl

/-- PERIOD with a cursor past the clock's new position (R179). -/
theorem bitPeriod_raised {s : State} {e : Nat} {c : Role} (hc : s.lvl .clock = s.sample .clock (s.pos .clock))
    (hp : ClockPeriod s (s.pos .clock) e) (ha : e < s.avail .clock) (hb : e < s.pos c) :
    bitPeriod s = .raised .streamPositionViolation := by
  obtain ⟨m, hm, h1, h2⟩ := hp
  have e1 := advanceToEdge_edgeAt hc h1 (Nat.lt_trans hm ha)
  have e2 : advanceToEdge .clock (s.place .clock m) = .done () ((s.place .clock m).place .clock e) :=
    advanceToEdge_edgeAt (by simp) (by simpa [EdgeAt] using h2) (by simpa using ha)
  have hne : c ≠ .clock := by
    rintro rfl
    have := h1.1
    omega
  have e3 : resync e ((s.place .clock m).place .clock e) = .raised .streamPositionViolation := by
    refine resync_raised (c := c) ?_
    rw [State.place_pos_other _ _ _ _ hne, State.place_pos_other _ _ _ _ hne]
    exact hb
  unfold bitPeriod
  rw [e1, Result.andThen_done, e2, Result.andThen_done, State.place_pos_same, e3]
  rfl

end Sys2Proof.Machine
end

