-- ==== Sys2Proof/Laws/Actions.lean ====
section
/-! SUPPORT. What the operations made of others come to when they complete: EMIT, PERIOD, CFGCHK, the actions of the Link
States and STEP. -/

namespace Sys2Proof.Machine

/-- Everything EMIT does (R183). -/
theorem emitBatch_eq (s : State) :
    emitBatch s = { s with
      pending := []
      log := s.log ++ s.pending ++ batchRecords s.asm s.draws ++ [.commit]
      draws := s.draws + 4 } := by
  simp [emitBatch, putFrame, putViews, State.pend, State.commitBatch, State.draw, batchRecords, modeBit, controlBit,
    status1Bit, status2Bit]

/-- A PERIOD that completes (R179). -/
theorem bitPeriod_eq_done {s t : State} (h : bitPeriod s = .done () t) :
    ∃ e, s.pos .clock < e ∧ t = { s with cur := periodCursors s e } := by
  obtain ⟨_, s1, h1, h⟩ := Result.andThen_eq_done.1 h
  obtain ⟨_, s2, h2, h⟩ := Result.andThen_eq_done.1 h
  obtain ⟨_, s3, h3, h⟩ := Result.andThen_eq_done.1 h
  obtain ⟨_, s4, h4, h⟩ := Result.andThen_eq_done.1 h
  rcases advanceToEdge_cases .clock s with ⟨e, h5, -, -, -, g⟩ | ⟨-, g⟩ <;> rw [g] at h1 <;> cases h1
  rcases advanceToEdge_cases .clock (s.place .clock e) with ⟨f, h6, -, -, -, g⟩ | ⟨-, g⟩ <;> rw [g] at h2 <;> cases h2
  rw [State.place_pos_same] at h3
  rcases resync_cases f ((s.place .clock e).place .clock f) with ⟨-, g⟩ | ⟨-, -, g⟩ | ⟨-, _, -, b, g, -⟩ <;>
    rw [g] at h3 <;> cases h3
  generalize hz : ((s.place .clock e).place .clock f).placeAll f = z at *
  have hz' : z = { s with cur := (s.placeAll f).cur } := by
    rw [← hz]
    rfl
  rcases advance_cases .dataIn z.tol z with ⟨-, g⟩ | ⟨-, g⟩ <;> rw [g] at h4 <;> cases h4
  rcases advance_cases .dataOut _ (z.place .dataIn (z.pos .dataIn + z.tol)) with ⟨-, g⟩ | ⟨-, g⟩ <;> rw [g] at h <;>
    cases h
  rw [State.place_pos_same] at h6
  refine ⟨f, by omega, ?_⟩
  subst hz'
  have h7 : ({ s with cur := (s.placeAll f).cur } : State).pos .dataIn = f := by simp [State.pos, State.placeAll]
  have h8 : (State.place { s with cur := (s.placeAll f).cur } .dataIn (f + s.tol)).pos .dataOut = f := by
    rw [State.place_pos_other _ _ _ _ (by decide)]
    simp [State.pos, State.placeAll]
  simp only [h7]
  simp only [h8]
  rfl

/-- A CFGCHK that completes (R236). -/
theorem checkConfig_eq_done {s t : State} (h : checkConfig s = .done () t) :
    configInvalid s.cfg = false ∧ (∀ c, s.params.startPos < s.avail c) ∧ t = startSession s := by
  unfold checkConfig at h
  split at h
  · cases h
  · next hc =>
    rcases needAll_cases s.params.startPos s with ⟨ha, g⟩ | ⟨_, -, b, g, -⟩ <;> rw [g] at h <;> cases h
    exact ⟨by simpa using hc, ha, rfl⟩

/-- A BOOT that completes: the cursors at one position past the clock's, and LINK (R157). -/
theorem bootAction_eq_done {s t : State} (h : bootAction s = .done () t) :
    ∃ q, s.pos .clock < q ∧ (∀ c, s.pos c ≤ q) ∧ (∀ c, q < s.avail c) ∧ t = (s.placeAll q).setLink .coreReady := by
  obtain ⟨_, s1, h1, h⟩ := Result.andThen_eq_done.1 h
  obtain ⟨_, s2, h2, h⟩ := Result.andThen_eq_done.1 h
  obtain ⟨_, s3, h3, h⟩ := Result.andThen_eq_done.1 h
  cases h
  rcases advanceToEdge_cases .clock s with ⟨e, h4, -, -, -, g⟩ | ⟨-, g⟩ <;> rw [g] at h1 <;> cases h1
  have h5 : s.pos .clock < s2.pos .clock ∧ (∀ c, c ≠ .clock → s2.pos c = s.pos c) ∧ s2 = { s with cur := s2.cur } := by
    split at h2
    · rcases advanceToEdge_cases .clock (s.place .clock e) with ⟨f, h6, -, -, -, g⟩ | ⟨-, g⟩ <;> rw [g] at h2 <;>
        cases h2
      rw [State.place_pos_same] at h6
      exact ⟨by simpa using by omega, fun c hc => by simp [State.place_pos_other _ _ _ _ hc], rfl⟩
    · cases h2
      exact ⟨by simpa using h4, fun c hc => by simp [State.place_pos_other _ _ _ _ hc], rfl⟩
  obtain ⟨h5, h6, h7⟩ := h5
  rcases resync_cases (s2.pos .clock) s2 with ⟨-, g⟩ | ⟨h8, h9, g⟩ | ⟨-, _, -, b, g, -⟩ <;> rw [g] at h3 <;> cases h3
  generalize s2.pos .clock = q at *
  generalize s2.cur = m at *
  subst h7
  refine ⟨q, h5, fun c => ?_, h9, rfl⟩
  by_cases hc : c = .clock
  · subst hc
    exact Nat.le_of_lt h5
  · rw [← h6 c hc]
    exact h8 c

/-- A CRDY that completes: the cursors at one position, past the aligned line's and with that line high there, the marker,
and LINK (R158). -/
theorem alignAction_eq_done {s t : State} (h : alignAction s = .done () t) :
    ∃ q, s.pos s.alignRole < q ∧ (∀ c, s.pos c ≤ q) ∧ (∀ c, q < s.avail c) ∧ s.sample s.alignRole q = true ∧
      t = ((putMarker s.alignRole q .captureStart s).placeAll q).setLink .packetStart := by
  unfold alignAction at h
  dsimp only at h
  generalize s.alignRole = a at *
  obtain ⟨_, s1, h1, h⟩ := Result.andThen_eq_done.1 h
  obtain ⟨_, s2, h2, h⟩ := Result.andThen_eq_done.1 h
  obtain ⟨_, s3, h3, h⟩ := Result.andThen_eq_done.1 h
  obtain ⟨_, s4, h4, h⟩ := Result.andThen_eq_done.1 h
  cases h
  rcases advanceToEdge_cases a s with ⟨e, h5, -, -, -, g⟩ | ⟨-, g⟩ <;> rw [g] at h1 <;> cases h1
  rcases advance_cases a (s.place a e).params.deadInterval (s.place a e) with ⟨-, g⟩ | ⟨-, g⟩ <;> rw [g] at h2 <;>
    cases h2
  have h6 : s.pos a < s3.pos a ∧ s.sample a (s3.pos a) = true ∧ (∀ c, c ≠ a → s3.pos c = s.pos c) ∧
      s3 = { s with cur := s3.cur } := by
    split at h3
    · next hl =>
      rcases advanceToEdge_cases a
        ((s.place a e).place a ((s.place a e).pos a + (s.place a e).params.deadInterval)) with
        ⟨f, h7, -, h8, -, g⟩ | ⟨-, g⟩ <;> rw [g] at h3 <;> cases h3
      simp only [stillLow, beq_iff_eq] at hl
      rw [hl] at h8
      rw [State.place_pos_same, State.place_pos_same] at h7
      refine ⟨by simpa using by omega, ?_, fun c hc => by simp [State.place_pos_other _ _ _ _ hc], rfl⟩
      rw [State.place_pos_same]
      simpa using h8
    · next hl =>
      cases h3
      simp only [stillLow, beq_iff_eq, Bool.not_eq_false] at hl
      refine ⟨by simpa using by omega, ?_, fun c hc => by simp [State.place_pos_other _ _ _ _ hc], rfl⟩
      simpa [stillLow] using hl
  obtain ⟨h6, h7, h8, h9⟩ := h6
  rcases resync_cases (s3.pos a) (putMarker a (s3.pos a) .captureStart s3) with
    ⟨-, g⟩ | ⟨h10, h11, g⟩ | ⟨-, _, -, b, g, -⟩ <;> rw [g] at h4 <;> cases h4
  have h12 : ∀ c, (putMarker a (s3.pos a) .captureStart s3).pos c = s3.pos c := fun c => rfl
  generalize s3.pos a = q at *
  refine ⟨q, h6, fun c => ?_, fun c => ?_, h7, ?_⟩
  · by_cases hc : c = a
    · subst hc
      exact Nat.le_of_lt h6
    · rw [← h8 c hc, ← h12]
      exact h10 c
  · have := h11 c
    rw [h9] at this
    exact this
  · generalize s3.cur = m at h9
    subst h9
    rfl

/-- A PSTART that completes (R159). -/
theorem packetAction_eq_done {s t : State} (h : packetAction s = .done () t) :
    ∃ u, t = u.setLink .coreReady ∧
      ((s.lvl .dataOut = true ∧ u = s) ∨ (s.lvl .dataOut = false ∧ captureCycle s = .done () u)) := by
  unfold packetAction targetReady at h
  split at h
  · next hl =>
    obtain ⟨_, u, hu, h⟩ := Result.andThen_eq_done.1 h
    cases h
    exact ⟨u, rfl, .inr ⟨by simpa using hl, hu⟩⟩
  · next hl =>
    cases h
    exact ⟨s, rfl, .inl ⟨by simpa using hl, rfl⟩⟩

/-- An action of a Link State that completes (R155). -/
theorem linkAction_eq_done {s t : State} (h : linkAction s = .done () t) :
    (s.link = .boot ∧ bootAction s = .done () t) ∨ (s.link = .coreReady ∧ alignAction s = .done () t) ∨
      (s.link = .packetStart ∧ packetAction s = .done () t) ∨ t = s := by
  unfold linkAction at h
  split at h
  · next hl => exact .inl ⟨hl, h⟩
  · cases h; exact .inr (.inr (.inr rfl))
  · cases h; exact .inr (.inr (.inr rfl))
  · cases h; exact .inr (.inr (.inr rfl))
  · cases h; exact .inr (.inr (.inr rfl))
  · next hl => exact .inr (.inl ⟨hl, h⟩)
  · next hl => exact .inr (.inr (.inl ⟨hl, h⟩))

/-- STEP in Running (R155, R156). -/
theorem loopIteration_running {s : State} (h : s.status = .running) :
    loopIteration s = if s.cancelReq = true then .done () (cancelEntry s) else linkAction s := by
  unfold loopIteration cancelCheck
  split
  · simp [cancelEntry]
  · simp [h]

end Sys2Proof.Machine
end

