-- ==== Sys2Proof/Laws/Bits.lean ====
section
/-! SUPPORT. MSB-first accumulation (R89) and the wire's order of a field's bits (R88): each undoes the other. -/

namespace Sys2Proof

/-- A bit of the accumulator after a run of shifts: one of the bits shifted in, or a bit that was there before. -/
theorem getLsbD_foldl_shiftIn {w : Nat} (bits : List Bit) (acc : BitVec w) (i : Nat) (hi : i < w) :
    (bits.foldl shiftIn acc).getLsbD i =
      if h : i < bits.length then bits[bits.length - 1 - i] else acc.getLsbD (i - bits.length) := by
  induction bits generalizing acc with
  | nil => simp
  | cons b bs ih =>
    rw [List.foldl_cons, ih]
    simp only [List.length_cons]
    by_cases h : i < bs.length
    · rw [dif_pos h, dif_pos (by omega), List.getElem_cons, dif_neg (by omega)]
      congr 1
      omega
    · rw [dif_neg h]
      by_cases h' : i = bs.length
      · subst h'
        rw [dif_pos (by omega)]
        simp [shiftIn]
        omega
      · rw [dif_neg (by omega)]
        have h1 : i - bs.length < w := by omega
        have h2 : ¬ i - bs.length < 1 := by omega
        have h3 : decide (i - bs.length = 0) = false := by
          simp
          omega
        simp only [shiftIn, BitVec.getLsbD_or, BitVec.getLsbD_shiftLeft, BitVec.getLsbD_setWidth]
        simp [h1, h2, h3]
        congr 1

@[simp] theorem length_wireBits {w n : Nat} (v : BitVec w) : (wireBits n v).length = n := by simp [wireBits]

/-- A field read from the wire is the field put on it. -/
theorem assemble_wireBits {w n : Nat} (v : BitVec w) (hv : v.toNat < 2 ^ n) : assemble (wireBits n v) = v := by
  apply BitVec.eq_of_getLsbD_eq
  intro i hi
  unfold assemble
  rw [getLsbD_foldl_shiftIn _ _ _ hi]
  simp only [wireBits, List.length_map, List.length_range]
  split
  · simp only [List.getElem_map, List.getElem_range]
    congr 1
    omega
  · next h =>
    have : v.getLsbD i = false :=
      Nat.testBit_lt_two_pow (Nat.lt_of_lt_of_le hv (Nat.pow_le_pow_right (by omega) (by omega)))
    simp [this]

/-- A field put on the wire is the bits it was read from. -/
theorem wireBits_assemble {w : Nat} (bits : List Bit) (h : bits.length ≤ w) :
    wireBits bits.length (assemble bits : BitVec w) = bits := by
  apply List.ext_getElem (by simp)
  intro i h1 h2
  simp only [wireBits, List.getElem_map, List.getElem_range]
  unfold assemble
  rw [getLsbD_foldl_shiftIn _ _ _ (by omega), dif_pos (by omega)]
  congr 1
  omega

end Sys2Proof
end

