-- ==== Sys2Proof/Laws/Cycle.lean ====
section
/-! SUPPORT. The loop of a capture cycle: the state after `k` bits, and what each bit does to it. -/

namespace Sys2Proof.Machine

/-- The state of a cycle after `k` bits, with the assembler registers `a`. -/
def cycleMid (s : State) (ck : Nat → Nat) (k : Nat) (a : Assembler) : State :=
  { s with
    cur := if k = 0 then s.cur else periodCursors s (ck k)
    asm := a
    pending := cycleMarkers s ck k }

variable {s : State} {ck : Nat → Nat} {n k : Nat} {a : Assembler}

@[simp] theorem cycleMid_sample (c : Role) (i : Nat) : (cycleMid s ck k a).sample c i = s.sample c i := rfl
@[simp] theorem cycleMid_avail (c : Role) : (cycleMid s ck k a).avail c = s.avail c := rfl
@[simp] theorem cycleMid_tol : (cycleMid s ck k a).tol = s.tol := rfl
@[simp] theorem cycleMid_asm : (cycleMid s ck k a).asm = a := rfl

theorem periodCursors_get (e : Nat) (c : Role) :
    (periodCursors s e).get c =
      if c = .dataIn ∨ c = .dataOut then ⟨e + s.tol, s.sample c (e + s.tol)⟩ else ⟨e, s.sample c e⟩ := by
  simp [periodCursors]

/-- The data cursors of the state after `k` bits are where bit `k` is read (R189). -/
theorem cycleMid_pos_data (c : Role) (hc : c = .dataIn ∨ c = .dataOut) :
    (cycleMid s ck k a).pos c = readAt s ck c k := by
  unfold readAt
  split
  · next h => subst h; rfl
  · next h => simp [State.pos, cycleMid, h, periodCursors_get, hc]

theorem cycleMid_pos_clock (h0 : ck 0 = s.pos .clock) : (cycleMid s ck k a).pos .clock = ck k := by
  by_cases h : k = 0
  · subst h; exact h0.symm
  · simp [State.pos, cycleMid, h, periodCursors_get]

theorem cycleMid_consistent (hs : s.Consistent) : (cycleMid s ck k a).Consistent := by
  intro c
  by_cases h : k = 0
  · subst h; exact hs c
  · simp only [State.lvl, State.pos, cycleMid, h, if_false, periodCursors_get]
    split <;> rfl

theorem cycleMid_pos_le (hck : CycleClock s ck n) (hk : k < n) (c : Role) :
    (cycleMid s ck k a).pos c ≤ ck (k + 1) := by
  by_cases h : k = 0
  · subst h; exact hck.entry c
  · have h1 := hck.nudge k (by omega) hk
    simp only [State.pos, cycleMid, h, if_false, periodCursors_get]
    split <;> simp only <;> omega

theorem CycleClock.step_lt (hck : CycleClock s ck n) (hk : k < n) : ck k < ck (k + 1) := by
  obtain ⟨m, -, h1, h2⟩ := hck.periods k hk
  exact Nat.lt_trans h1.1 h2.1

theorem CycleClock.le_last (hck : CycleClock s ck n) (j : Nat) (hj : k + j ≤ n) : ck k ≤ ck (k + j) := by
  induction j with
  | zero => exact Nat.le_refl _
  | succ j ih =>
    have := hck.step_lt (k := k + j) (by omega)
    exact Nat.le_trans (ih (by omega)) (Nat.le_of_lt this)

theorem CycleClock.le_end (hck : CycleClock s ck n) (hk : k ≤ n) : ck k ≤ ck n := by
  have := hck.le_last (k := k) (n - k) (by omega)
  rwa [show k + (n - k) = n from by omega] at this

/-- The nudge after bit period `k + 1` reads produced samples. -/
theorem CycleClock.nudge_produced (hck : CycleClock s ck n) (hk : k < n) :
    ck (k + 1) + s.tol < s.avail .dataIn ∧ ck (k + 1) + s.tol < s.avail .dataOut := by
  have hi := hck.producedIn
  have ho := hck.producedOut
  by_cases h : k + 1 < n
  · have h1 := hck.nudge (k + 1) (by omega) h
    have h2 := hck.le_end (k := k + 1 + 1) (by omega)
    omega
  · have : k + 1 = n := by omega
    subst this
    exact ⟨hi, ho⟩

theorem cycleMarkers_succ (s : State) (ck : Nat → Nat) (k : Nat) :
    cycleMarkers s ck (k + 1) = cycleMarkers s ck k ++
      [.marker .dataIn (readAt s ck .dataIn k) .bitSample, .marker .dataOut (readAt s ck .dataOut k) .bitSample] := by
  simp [cycleMarkers, List.range_succ]

/-- One bit of each line taken: from the state after `k` bits to the state after `k + 1` (R178, R182). -/
theorem takeBits_cycleMid {push : Bit → Bit → State → State} {f : Bit → Bit → Assembler → Assembler}
    (hpush : ∀ bo bi t, push bo bi t = t.setAsm (f bo bi t.asm)) (hs : s.Consistent) (hck : CycleClock s ck n)
    (hk : k < n) (bo bi : Bit) :
    takeBits push bo bi (cycleMid s ck k a) = .done () (cycleMid s ck (k + 1) (f bo bi a)) := by
  have hu : push bo bi (putBitMarkers (cycleMid s ck k a)) =
      { cycleMid s ck k (f bo bi a) with pending := cycleMarkers s ck (k + 1) } := by
    rw [hpush, cycleMarkers_succ]
    simp only [putBitMarkers, putMarker, cycleMid_pos_data .dataIn (.inl rfl),
      cycleMid_pos_data .dataOut (.inr rfl)]
    simp [State.setAsm, State.pend, cycleMid, List.append_assoc]
  unfold takeBits
  rw [hu]
  obtain ⟨hi, ho⟩ := hck.nudge_produced hk
  have h := bitPeriod_done (s := { cycleMid s ck k (f bo bi a) with pending := cycleMarkers s ck (k + 1) })
    (e := ck (k + 1)) (cycleMid_consistent (a := f bo bi a) hs .clock)
    (by
      have h1 := hck.periods k hk
      have h2 : ({ cycleMid s ck k (f bo bi a) with pending := cycleMarkers s ck (k + 1) } : State).pos .clock = ck k :=
        cycleMid_pos_clock (a := f bo bi a) hck.start
      rw [h2]
      exact h1)
    (fun c => cycleMid_pos_le (a := f bo bi a) hck hk c)
    (fun c => Nat.lt_of_le_of_lt (hck.le_end (by omega)) (hck.produced c)) hi ho
  rw [h]
  simp [cycleMid, periodCursors, State.sample, State.bound]

/-- The registers after one preamble bit. -/
def asmPreamble (bo bi : Bit) (a : Assembler) : Assembler :=
  { a with mc := shiftIn a.mc bo, st := shiftIn a.st bi }

/-- The registers after one payload bit. -/
def asmPayload (bo bi : Bit) (a : Assembler) : Assembler :=
  { a with ow := shiftIn a.ow bo, iw := shiftIn a.iw bi }

theorem classifiedAt_cycleMid (c : Role) (p : Nat) : classifiedAt (cycleMid s ck k a) c p = classifiedAt s c p := rfl

/-- One preamble bit of a cycle (R178). -/
theorem preambleBit_cycleMid (hs : s.Consistent) (hck : CycleClock s ck n) (hk : k < n)
    (hp : readAt s ck .dataIn k + classifierReach s < s.avail .dataIn ∧
      readAt s ck .dataOut k + classifierReach s < s.avail .dataOut) :
    preambleBit (cycleMid s ck k a) = .done () (cycleMid s ck (k + 1)
      (asmPreamble (classifiedAt s .dataIn (readAt s ck .dataIn k))
        (classifiedAt s .dataOut (readAt s ck .dataOut k)) a)) := by
  have h1 := readBit_classified (cycleMid s ck k a) .dataIn (cycleMid_consistent hs _)
    (by rw [cycleMid_pos_data _ (.inl rfl)]; exact hp.1)
  have h2 := readBit_classified (cycleMid s ck k a) .dataOut (cycleMid_consistent hs _)
    (by rw [cycleMid_pos_data _ (.inr rfl)]; exact hp.2)
  rw [cycleMid_pos_data _ (.inl rfl), classifiedAt_cycleMid] at h1
  rw [cycleMid_pos_data _ (.inr rfl), classifiedAt_cycleMid] at h2
  unfold preambleBit
  rw [h1, Result.andThen_done, h2, Result.andThen_done]
  exact takeBits_cycleMid (f := asmPreamble) (fun _ _ _ => rfl) hs hck hk _ _

/-- One payload bit of a cycle (R182). -/
theorem payloadBit_cycleMid (hs : s.Consistent) (hck : CycleClock s ck n) (hk : k < n) :
    payloadBit (cycleMid s ck k a) = .done () (cycleMid s ck (k + 1)
      (asmPayload (s.sample .dataIn (readAt s ck .dataIn k)) (s.sample .dataOut (readAt s ck .dataOut k)) a)) := by
  have h1 : (cycleMid s ck k a).lvl .dataIn = s.sample .dataIn (readAt s ck .dataIn k) := by
    rw [cycleMid_consistent hs, cycleMid_pos_data _ (.inl rfl), cycleMid_sample]
  have h2 : (cycleMid s ck k a).lvl .dataOut = s.sample .dataOut (readAt s ck .dataOut k) := by
    rw [cycleMid_consistent hs, cycleMid_pos_data _ (.inr rfl), cycleMid_sample]
  unfold payloadBit readLevel
  rw [Result.andThen_done, Result.andThen_done, h1, h2]
  exact takeBits_cycleMid (f := asmPayload) (fun _ _ _ => rfl) hs hck hk _ _

/-- `n` steps of an operation that each take the state after `k` bits to the state after `k + 1`. -/
theorem repeatOp_chain {op : State → Result Unit} {m : Nat → State} {j : Nat} (k : Nat)
    (h : ∀ i, k ≤ i → i < k + j → op (m i) = .done () (m (i + 1))) : repeatOp j op (m k) = .done () (m (k + j)) := by
  induction j generalizing k with
  | zero => rfl
  | succ j ih =>
    rw [repeatOp, h k (Nat.le_refl _) (by omega), Result.andThen_done,
      ih (k + 1) fun i h1 h2 => h i (by omega) (by omega)]
    congr 2
    omega

/-- The bits of both lines taken, each from the state after `k` bits to the state after `k + 1`. -/
theorem takeAll_chain {push : Bit → Bit → State → State} {m : Nat → State} (bits : List (Bit × Bit)) (k : Nat)
    (h : ∀ i (hi : i < bits.length), takeBits push (bits[i]).1 (bits[i]).2 (m (k + i)) = .done () (m (k + i + 1))) :
    takeAll push bits (m k) = .done () (m (k + bits.length)) := by
  induction bits generalizing k with
  | nil => rfl
  | cons b bits ih =>
    have h0 := h 0 (by simp)
    simp only [List.getElem_cons_zero, Nat.add_zero] at h0
    rw [takeAll, h0, Result.andThen_done, ih (k + 1)]
    · simp only [List.length_cons]
      congr 2
      omega
    · intro i hi
      have h1 := h (i + 1) (by simpa using hi)
      simp only [List.getElem_cons_succ] at h1
      rwa [show k + (i + 1) = k + 1 + i from by omega] at h1

/-- The preamble phase: three bits of each line. -/
theorem preamble_cycleMid (hs : s.Consistent) (hck : CycleClock s ck n) (hn : 3 ≤ n) (hp : PreambleProduced s ck) :
    repeatOp 3 preambleBit (cycleMid s ck 0 a) = .done () (cycleMid s ck 3 { a with
      mc := ((List.range 3).map fun k => classifiedAt s .dataIn (readAt s ck .dataIn k)).foldl shiftIn a.mc
      st := ((List.range 3).map fun k => classifiedAt s .dataOut (readAt s ck .dataOut k)).foldl shiftIn a.st }) :=
  repeatOp_chain (op := preambleBit) (j := 3) (m := fun k => cycleMid s ck k { a with
      mc := ((List.range k).map fun k => classifiedAt s .dataIn (readAt s ck .dataIn k)).foldl shiftIn a.mc
      st := ((List.range k).map fun k => classifiedAt s .dataOut (readAt s ck .dataOut k)).foldl shiftIn a.st }) 0
    fun i _ hi => by
      rw [preambleBit_cycleMid hs hck (by omega) (hp i (by omega))]
      simp [asmPreamble, List.range_succ]

/-- The payload phase: `m` bits of each line. -/
theorem payload_cycleMid {m : Nat} (hs : s.Consistent) (hck : CycleClock s ck n) (hm : 3 + m ≤ n) :
    repeatOp m payloadBit (cycleMid s ck 3 a) = .done () (cycleMid s ck (3 + m) { a with
      ow := ((List.range m).map fun j => s.sample .dataIn (readAt s ck .dataIn (3 + j))).foldl shiftIn a.ow
      iw := ((List.range m).map fun j => s.sample .dataOut (readAt s ck .dataOut (3 + j))).foldl shiftIn a.iw }) := by
  have h := repeatOp_chain (op := payloadBit) (j := m) (m := fun k => cycleMid s ck k { a with
      ow := ((List.range (k - 3)).map fun j => s.sample .dataIn (readAt s ck .dataIn (3 + j))).foldl shiftIn a.ow
      iw := ((List.range (k - 3)).map fun j => s.sample .dataOut (readAt s ck .dataOut (3 + j))).foldl shiftIn a.iw }) 3
    fun i h1 hi => by
      rw [payloadBit_cycleMid hs hck (by omega), show i + 1 - 3 = i - 3 + 1 from by omega]
      simp [asmPayload, List.range_succ, show 3 + (i - 3) = i from by omega]
  simpa using h

theorem beginCycle_eq_cycleMid (s : State) (ck : Nat → Nat) :
    beginCycle s =
      cycleMid s ck 0 { s.asm with mc := 0, st := 0, ow := 0, iw := 0, preStart := s.pos .dataIn } := by
  simp [beginCycle, cycleMid, cycleMarkers]

theorem beginPayload_cycleMid (h0 : ck 0 = s.pos .clock) :
    beginPayload (cycleMid s ck 3 a) =
      cycleMid s ck 3 { a with preEnd := ck 3, len := selectLen a.mc, payStart := ck 3 + s.tol } := by
  unfold beginPayload
  rw [cycleMid_pos_clock h0]
  simp [lengthSelect, State.setAsm, cycleMid, State.pos, periodCursors]

theorem endCycle_cycleMid (h0 : ck 0 = s.pos .clock) (hn : 0 < n) :
    endCycle (cycleMid s ck n a) = { s with
      cur := periodCursors s (ck n)
      asm := { a with payEnd := ck n }
      pending := []
      log := s.log ++ cycleMarkers s ck n ++ batchRecords { a with payEnd := ck n } s.draws ++ [.commit]
      draws := s.draws + 4 } := by
  unfold endCycle
  rw [cycleMid_pos_clock h0, emitBatch_eq]
  simp [cycleMid, State.setAsm, show n ≠ 0 from by omega]

end Sys2Proof.Machine
end

