-- ==== Sys2Proof/Laws/Forward.lean ====
section
/-! SUPPORT. The operations that only move cursors forward and write the assembler and the sink: everything else they
leave. -/

namespace Sys2Proof.Machine

variable {α β : Type}

/-- `t` comes from `s` by moving cursors forward to produced samples, with nothing of the session's other registers
changed. -/
structure Forward (s t : State) : Prop where
  keeps : Keeps s t
  pos : ∀ c, s.pos c ≤ t.pos c
  tol : t.tol = s.tol
  link : t.link = s.link
  status : t.status = s.status
  cursor : ∀ c, s.pos c < s.avail c ∧ s.lvl c = s.sample c (s.pos c) →
    t.pos c < s.avail c ∧ t.lvl c = s.sample c (t.pos c)

theorem Forward.refl (s : State) : Forward s s := ⟨Keeps.refl s, fun _ => Nat.le_refl _, rfl, rfl, rfl, fun _ h => h⟩

theorem Forward.trans {s t u : State} (h : Forward s t) (g : Forward t u) : Forward s u where
  keeps := h.keeps.trans g.keeps
  pos := fun c => Nat.le_trans (h.pos c) (g.pos c)
  tol := g.tol.trans h.tol
  link := g.link.trans h.link
  status := g.status.trans h.status
  cursor := fun c hc => by
    have := g.cursor c (by rw [h.keeps.avail, h.keeps.sample]; exact h.cursor c hc)
    rwa [h.keeps.avail, h.keeps.sample] at this

/-- A change of the assembler, the sink and the draws alone. -/
theorem Forward.write {s t : State} (h : Keeps s t) (a : Assembler) (p l : List Event) (d : Nat)
    (ht : t = { s with asm := a, pending := p, log := l, draws := d }) : Forward s t := by
  subst ht
  exact ⟨h, fun _ => Nat.le_refl _, rfl, rfl, rfl, fun _ hc => hc⟩

theorem forward_place (s : State) (c : Role) (q : Nat) (h : s.pos c ≤ q) (ha : q < s.avail c) :
    Forward s (s.place c q) where
  keeps := keeps_place s c q
  pos := fun d => by
    by_cases hd : d = c
    · subst hd; simpa using h
    · rw [State.place_pos_other _ _ _ _ hd]
  tol := rfl
  link := rfl
  status := rfl
  cursor := fun d hc => by
    by_cases hd : d = c
    · subst hd; simpa using ha
    · rw [State.place_pos_other _ _ _ _ hd, State.place_lvl_other _ _ _ _ hd]; exact hc

theorem forward_placeAll (s : State) (q : Nat) (h : ∀ c, s.pos c ≤ q) (ha : ∀ c, q < s.avail c) :
    Forward s (s.placeAll q) :=
  ⟨keeps_placeAll s q, fun c => by simpa using h c, rfl, rfl, rfl, fun c _ => by simpa using ha c⟩

/-- An operation whose completions go forward. -/
def ForwardDone (op : State → Result α) : Prop := ∀ s a t, op s = .done a t → Forward s t

namespace ForwardDone

theorem andThen {f : State → Result α} {g : α → State → Result β} (hf : ForwardDone f) (hg : ∀ a, ForwardDone (g a)) :
    ForwardDone fun s => (f s).andThen g := by
  intro s b t h
  obtain ⟨a, u, h1, h2⟩ := Result.andThen_eq_done.1 h
  exact (hf s a u h1).trans (hg a u b t h2)

theorem pure (a : α) {f : State → State} (hf : ∀ s, Forward s (f s)) : ForwardDone fun s => Result.done a (f s) := by
  intro s b t h
  cases h
  exact hf s

theorem after {f : State → Result α} (hf : ForwardDone f) {m : State → State} (hm : ∀ s, Forward s (m s)) :
    ForwardDone fun s => f (m s) := fun s a t h => (hm s).trans (hf _ a t h)

theorem ofPart {γ : Type} (part : State → γ) {op : γ → State → Result α} (h : ∀ x, ForwardDone (op x)) :
    ForwardDone fun s => op (part s) s := fun s a t ht => h _ s a t ht

theorem silent {op : State → Result Unit} (h : ForwardDone op) : ForwardDone (Machine.silent op) :=
  h.andThen fun _ => pure _ Forward.refl

theorem returnsBit {op : State → Result Bit} (h : ForwardDone op) : ForwardDone (Machine.returnsBit op) :=
  h.andThen fun b => pure (some (Value.bit b)) Forward.refl

theorem returnsNat {op : State → Result Nat} (h : ForwardDone op) : ForwardDone (Machine.returnsNat op) :=
  h.andThen fun n => pure (some (Value.nat n)) Forward.refl

end ForwardDone

theorem forward_readLevel (c : Role) : ForwardDone (readLevel c) := fun s _ _ h => by cases h; exact Forward.refl s

theorem forward_readPosition (c : Role) : ForwardDone (readPosition c) := fun s _ _ h => by cases h; exact Forward.refl s

theorem forward_advance (c : Role) (n : Nat) : ForwardDone (advance c n) := by
  intro s a t h
  rcases advance_cases c n s with ⟨ha, g⟩ | ⟨-, g⟩ <;> rw [g] at h <;> cases h
  exact forward_place s c _ (by omega) ha

theorem forward_advanceToEdge (c : Role) : ForwardDone (advanceToEdge c) := by
  intro s a t h
  rcases advanceToEdge_cases c s with ⟨e, hp, ha, -, -, g⟩ | ⟨-, g⟩ <;> rw [g] at h <;> cases h
  exact forward_place s c e (by omega) ha

theorem forward_advanceTo (c : Role) (q : Nat) : ForwardDone (advanceTo c q) := by
  intro s a t h
  rcases advanceTo_cases c q s with ⟨-, g⟩ | ⟨hp, ha, g⟩ | ⟨-, -, g⟩ <;> rw [g] at h <;> cases h
  exact forward_place s c q hp ha

theorem forward_resync (q : Nat) : ForwardDone (resync q) := by
  intro s a t h
  rcases resync_cases q s with ⟨-, g⟩ | ⟨hp, ha, g⟩ | ⟨-, _, -, b, g, -⟩ <;> rw [g] at h <;> cases h
  exact forward_placeAll s q hp ha

theorem forward_wouldTransition (c : Role) (n : Nat) : ForwardDone (wouldTransition c n) := by
  intro s a t h
  rcases wouldTransition_cases c n s with ⟨-, g⟩ | ⟨-, -, g⟩ <;> rw [g] at h <;> cases h
  exact Forward.refl s

theorem forward_readBit (c : Role) : ForwardDone (readBit c) := by
  intro s a t h
  rcases readBit_cases c s with ⟨b, g⟩ | g <;> rw [g] at h <;> cases h
  exact Forward.refl s

theorem forward_bitPeriod : ForwardDone bitPeriod :=
  (forward_advanceToEdge _).andThen fun _ => (forward_advanceToEdge _).andThen fun _ =>
    (ForwardDone.ofPart (fun s => s.pos .clock) forward_resync).andThen fun _ =>
      (ForwardDone.ofPart State.tol (forward_advance .dataIn)).andThen fun _ =>
        ForwardDone.ofPart State.tol (forward_advance .dataOut)

theorem forward_putBitMarkers (s : State) : Forward s (putBitMarkers s) :=
  .write (keeps_putBitMarkers s) _ _ _ _ rfl

theorem forward_pushPreamble (bo bi : Bit) (s : State) : Forward s (pushPreamble bo bi s) :=
  .write (keeps_pushPreamble bo bi s) _ _ _ _ rfl

theorem forward_pushPayload (bo bi : Bit) (s : State) : Forward s (pushPayload bo bi s) :=
  .write (keeps_pushPayload bo bi s) _ _ _ _ rfl

theorem forward_emitBatch (s : State) : Forward s (emitBatch s) :=
  .write (keeps_emitBatch s) _ _ _ _ (emitBatch_eq s)

theorem forward_beginCycle (s : State) : Forward s (beginCycle s) := .write (keeps_beginCycle s) _ _ _ _ rfl

theorem forward_beginPayload (s : State) : Forward s (beginPayload s) := .write (keeps_beginPayload s) _ _ _ _ rfl

theorem forward_endCycle (s : State) : Forward s (endCycle s) :=
  .write (keeps_endCycle s) _ _ _ _ (emitBatch_eq _)

theorem forward_takeBits {push : Bit → Bit → State → State} (hp : ∀ bo bi s, Forward s (push bo bi s)) (bo bi : Bit) :
    ForwardDone (takeBits push bo bi) :=
  forward_bitPeriod.after (m := fun s => push bo bi (putBitMarkers s)) fun s =>
    (forward_putBitMarkers s).trans (hp bo bi _)

theorem forward_preambleBit : ForwardDone preambleBit :=
  (forward_readBit _).andThen fun _ => (forward_readBit _).andThen fun _ => forward_takeBits forward_pushPreamble _ _

theorem forward_payloadBit : ForwardDone payloadBit :=
  (forward_readLevel _).andThen fun _ => (forward_readLevel _).andThen fun _ => forward_takeBits forward_pushPayload _ _

theorem forward_repeatOp {op : State → Result Unit} (h : ForwardDone op) (n : Nat) : ForwardDone (repeatOp n op) := by
  induction n with
  | zero => exact .pure () Forward.refl
  | succ n ih => exact h.andThen fun _ => ih

theorem forward_takeAll {push : Bit → Bit → State → State} (hp : ∀ bo bi s, Forward s (push bo bi s))
    (bits : List (Bit × Bit)) : ForwardDone (takeAll push bits) := by
  induction bits with
  | nil => exact .pure () Forward.refl
  | cons b bits ih => exact (forward_takeBits hp b.1 b.2).andThen fun _ => ih

theorem forward_capture {preamble payload : State → Result Unit} (h1 : ForwardDone preamble)
    (h2 : ForwardDone payload) : ForwardDone (capture preamble payload) :=
  (h1.after forward_beginCycle).andThen fun _ => (h2.after forward_beginPayload).andThen fun _ =>
    .pure () forward_endCycle

theorem forward_captureCycle : ForwardDone captureCycle :=
  forward_capture (forward_repeatOp forward_preambleBit 3)
    (.ofPart (fun s => s.asm.len.bits) (forward_repeatOp forward_payloadBit))

theorem forward_receiveFrame (mc st : BitVec 3) (ow iw : BitVec 32) : ForwardDone (receiveFrame mc st ow iw) :=
  forward_capture (forward_takeAll forward_pushPreamble _)
    (.ofPart (fun s => (wireBits s.asm.len.bits ow).zip (wireBits s.asm.len.bits iw))
      (forward_takeAll forward_pushPayload))

end Sys2Proof.Machine
end

