-- ==== Sys2Proof/Laws/Memory.lean ====
section
/-! SUPPORT. The sample spaces: a produced sample never changes (R7), a stream's change touches no other stream (R62), and
every operation keeps the canonical form. -/

namespace Sys2Proof.Machine

theorem Memory.get_nil (k : Nat) : Memory.get [] k = Stream.empty := rfl

theorem Memory.get_put_same (m : Memory) (k : Nat) (st : Stream) : Memory.get (Memory.put m k st) k = st := by
  induction m, k using Memory.put.induct with
  | case1 => rfl
  | case2 k ih => simpa [Memory.put, Memory.get] using ih
  | case3 x ms => rfl
  | case4 x ms k ih => simpa [Memory.put, Memory.get] using ih

theorem Memory.get_put_other (m : Memory) (k j : Nat) (st : Stream) (h : j ≠ k) :
    Memory.get (Memory.put m k st) j = Memory.get m j := by
  induction m, k using Memory.put.induct generalizing j with
  | case1 => cases j <;> simp_all [Memory.put, Memory.get]
  | case2 k ih =>
    cases j with
    | zero => rfl
    | succ j => simpa [Memory.put, Memory.get] using ih j (by omega)
  | case3 x ms => cases j <;> simp_all [Memory.put, Memory.get]
  | case4 x ms k ih =>
    cases j with
    | zero => rfl
    | succ j => simpa [Memory.put, Memory.get] using ih j (by omega)

/-- Everything a change of one stream does. -/
theorem Memory.get_update (m : Memory) (k j : Nat) (f : Stream → Stream) :
    Memory.get (Memory.update m k f) j = if j = k then f (Memory.get m k) else Memory.get m j := by
  unfold Memory.update
  split
  · next h => split <;> simp_all
  · split
    · next h => subst h; exact Memory.get_put_same m j _
    · next h => exact Memory.get_put_other m k j _ h

theorem Memory.put_mem (m : Memory) (k : Nat) (st x : Stream) (h : x ∈ Memory.put m k st) :
    x ∈ m ∨ x = st ∨ x = Stream.empty := by
  induction m, k using Memory.put.induct with
  | case1 => simp_all [Memory.put]
  | case2 k ih => simp only [Memory.put, List.mem_cons] at h; rcases h with h | h <;> simp_all
  | case3 y ms => simp only [Memory.put, List.mem_cons] at h; rcases h with h | h <;> simp_all
  | case4 y ms k ih =>
    simp only [Memory.put, List.mem_cons] at h
    rcases h with h | h
    · simp_all
    · rcases ih h with h | h | h <;> simp_all

theorem Memory.put_ne_nil (m : Memory) (k : Nat) (st : Stream) : Memory.put m k st ≠ [] := by
  cases m <;> cases k <;> simp [Memory.put]

theorem Memory.getLast?_put (m : Memory) (k : Nat) (st : Stream) (hm : m.getLast? ≠ some Stream.empty)
    (hst : st ≠ Stream.empty) : (Memory.put m k st).getLast? ≠ some Stream.empty := by
  induction m, k using Memory.put.induct with
  | case1 => simpa [Memory.put] using hst
  | case2 k ih =>
    rw [Memory.put, List.getLast?_cons_of_ne_nil (Memory.put_ne_nil _ _ _)]
    exact ih (by simp)
  | case3 x ms =>
    cases ms with
    | nil => simpa [Memory.put] using hst
    | cons y ys =>
      rw [Memory.put, List.getLast?_cons_of_ne_nil (by simp)]
      rwa [List.getLast?_cons_of_ne_nil (by simp)] at hm
  | case4 x ms k ih =>
    rw [Memory.put, List.getLast?_cons_of_ne_nil (Memory.put_ne_nil _ _ _)]
    refine ih ?_
    cases ms with
    | nil => simp
    | cons y ys => rwa [List.getLast?_cons_of_ne_nil (by simp)] at hm

theorem Stream.empty_wf : Stream.empty.wf := by simp [Stream.empty, Stream.wf]

theorem Memory.get_wf (m : Memory) (h : Memory.wf m) (k : Nat) : (Memory.get m k).wf := by
  unfold Memory.get
  rw [List.getD_eq_getElem?_getD]
  cases hk : m[k]? with
  | none => exact Stream.empty_wf
  | some st => exact h.1 st (List.mem_of_getElem? hk)

theorem Stream.produce_wf (st : Stream) (l : Bit) (n : Nat) (h : st.wf) : (st.produce l n).wf := by
  unfold Stream.produce
  split
  · exact h
  · next hn =>
    obtain ⟨hc, hb⟩ := h
    split
    · exact ⟨hc, fun e he => Nat.lt_of_lt_of_le (hb e he) (Nat.le_add_right _ _)⟩
    · next hl =>
      refine ⟨?_, ?_⟩
      · rw [List.isChain_append]
        refine ⟨hc, by simp, ?_⟩
        intro x hx y hy
        simp only [List.head?_cons, Option.mem_def, Option.some.injEq] at hy
        subst hy
        refine ⟨hb x (List.mem_of_getLast? hx), ?_⟩
        intro he
        apply hl
        rw [Option.mem_def] at hx
        simp [hx, he]
      · intro e he
        rcases List.mem_append.1 he with he | he
        · exact Nat.lt_of_lt_of_le (hb e he) (Nat.le_add_right _ _)
        · simp only [List.mem_singleton] at he
          subst he
          simp only
          omega

theorem Stream.produce_eq_empty (st : Stream) (l : Bit) (n : Nat) (h : st.produce l n = Stream.empty) :
    st.produce l n = st := by
  unfold Stream.produce at *
  split
  · rfl
  · next hn =>
    rw [if_neg hn] at h
    have := congrArg Stream.avail h
    simp only [Stream.empty] at this
    omega

/-- A stream changed to a canonical one, that is not empty unless it is unchanged, leaves the whole canonical. -/
theorem Memory.update_wf (m : Memory) (k : Nat) (f : Stream → Stream) (h : Memory.wf m)
    (hf : (f (Memory.get m k)).wf) (he : f (Memory.get m k) = Stream.empty → f (Memory.get m k) = Memory.get m k) :
    Memory.wf (Memory.update m k f) := by
  unfold Memory.update
  split
  · exact h
  · next hne =>
    refine ⟨?_, Memory.getLast?_put m k _ h.2 fun e => hne (he e)⟩
    intro st hst
    rcases Memory.put_mem m k _ st hst with h' | h' | h'
    · exact h.1 st h'
    · exact h' ▸ hf
    · exact h' ▸ Stream.empty_wf

theorem Memory.produce_wf (m : Memory) (k : Nat) (l : Bit) (n : Nat) (h : Memory.wf m) :
    Memory.wf (Memory.produce m k l n) :=
  Memory.update_wf m k _ h (Stream.produce_wf _ l n (Memory.get_wf m h k)) (Stream.produce_eq_empty _ l n)

theorem Memory.endStream_wf (m : Memory) (k : Nat) (h : Memory.wf m) : Memory.wf (Memory.endStream m k) := by
  refine Memory.update_wf m k _ h (Memory.get_wf m h k) ?_
  intro he
  have := congrArg Stream.ended he
  simp [Stream.empty] at this

theorem Memory.empty_wf : Memory.wf ([] : Memory) := by simp [Memory.wf]

/-! ## Produced samples never change -/

theorem levelAt_append (es : List (Nat × Bit)) (a : Nat) (l d : Bit) (i : Nat) (hi : i < a) :
    levelAt (es ++ [(a, l)]) d i = levelAt es d i := by
  induction es generalizing d with
  | nil => simp [levelAt, Nat.not_le.2 hi]
  | cons e es ih => simp [levelAt, ih]

theorem Stream.produce_level (st : Stream) (l d : Bit) (n i : Nat) (hi : i < st.avail) :
    levelAt (st.produce l n).events d i = levelAt st.events d i := by
  unfold Stream.produce
  split
  · rfl
  · dsimp only
    split
    · rfl
    · exact levelAt_append _ _ _ _ _ hi

theorem Memory.sample_produce (m : Memory) (k j : Nat) (l : Bit) (n i : Nat) (hi : i < (Memory.get m j).avail) :
    Memory.sample (Memory.produce m k l n) j i = Memory.sample m j i := by
  unfold Memory.sample Memory.produce
  rw [Memory.get_update]
  split
  · next h => subst h; exact Stream.produce_level _ l _ n i hi
  · rfl

theorem Stream.avail_le_produce (st : Stream) (l : Bit) (n : Nat) : st.avail ≤ (st.produce l n).avail := by
  unfold Stream.produce
  split <;> simp

theorem Memory.avail_le_produce (m : Memory) (k j : Nat) (l : Bit) (n : Nat) :
    (Memory.get m j).avail ≤ (Memory.get (Memory.produce m k l n) j).avail := by
  unfold Memory.produce
  rw [Memory.get_update]
  split
  · next h => subst h; exact Stream.avail_le_produce _ l n
  · exact Nat.le_refl _

/-- The samples produced read back as the level they were produced at. -/
theorem levelAt_append_ge (es : List (Nat × Bit)) (a : Nat) (l d : Bit) (i : Nat) (hb : ∀ e ∈ es, e.1 < a)
    (hi : a ≤ i) : levelAt (es ++ [(a, l)]) d i = l := by
  induction es generalizing d with
  | nil => simp [levelAt, hi]
  | cons e es ih =>
    have he : e.1 ≤ i := Nat.le_trans (Nat.le_of_lt (hb e (by simp))) hi
    simp only [List.cons_append, levelAt, he, if_true]
    exact ih e.2 fun x hx => hb x (by simp [hx])

end Sys2Proof.Machine
end

