-- ==== Sys2Proof/Laws/PerInstr.lean ====
section
/-! SUPPORT. The encoder held against the opcode table, row by row: a family of laws, one for each instruction. -/

namespace Sys2Proof.Laws.TableRow

/-- The mask and the match of an instruction's row in the opcode table; of a row that the table gives only in words (R104),
those of its opcode. The wire frame and the records are no operation word. -/
def pattern : Instr → Option (Nat × Nat)
  | .lvl _ => some (0xF8, 0x00)
  | .adv _ _ => some (0xF8, 0x08)
  | .adve _ => some (0xF8, 0x10)
  | .adva _ _ => some (0xF8, 0x18)
  | .wtw _ _ => some (0xF8, 0x20)
  | .pos _ => some (0xF8, 0x28)
  | .rsync _ => some (0xFF, 0x30)
  | .rdbit _ => some (0xF8, 0x38)
  | .cfgchk => some (0xFF, 0x40)
  | .canchk => some (0xFF, 0x48)
  | .step => some (0xFF, 0x50)
  | .boot => some (0xFF, 0x58)
  | .crdy => some (0xFF, 0x60)
  | .pstart => some (0xFF, 0x68)
  | .inert => some (0xFF, 0x70)
  | .cycle => some (0xFF, 0x78)
  | .pbit => some (0xFF, 0x80)
  | .period => some (0xFF, 0x88)
  | .lensel => some (0xFF, 0x90)
  | .dbit => some (0xFF, 0x98)
  | .emit => some (0xFF, 0xA0)
  | .reservedLvlCh7 => some (0xFF, 0x07)
  | .reservedAdvCh7 => some (0xFF, 0x0F)
  | .reservedAdveCh7 => some (0xFF, 0x17)
  | .reservedAdvaCh7 => some (0xFF, 0x1F)
  | .reservedWtwCh7 => some (0xFF, 0x27)
  | .reservedPosCh7 => some (0xFF, 0x2F)
  | .reservedRdbitCh7 => some (0xFF, 0x3F)
  | .reservedRsyncCh _ => some (0xF8, 0x30)
  | .reservedCfgchkCh _ => some (0xF8, 0x40)
  | .reservedCanchkCh _ => some (0xF8, 0x48)
  | .reservedStepCh _ => some (0xF8, 0x50)
  | .reservedBootCh _ => some (0xF8, 0x58)
  | .reservedCrdyCh _ => some (0xF8, 0x60)
  | .reservedPstartCh _ => some (0xF8, 0x68)
  | .reservedInertCh _ => some (0xF8, 0x70)
  | .reservedCycleCh _ => some (0xF8, 0x78)
  | .reservedPbitCh _ => some (0xF8, 0x80)
  | .reservedPeriodCh _ => some (0xF8, 0x88)
  | .reservedLenselCh _ => some (0xF8, 0x90)
  | .reservedDbitCh _ => some (0xF8, 0x98)
  | .reservedEmitCh _ => some (0xF8, 0xA0)
  | .reservedOpcode15 _ => some (0xF8, 0xA8)
  | .reservedOpcode16 _ => some (0xF8, 0xB0)
  | .reservedOpcode17 _ => some (0xF8, 0xB8)
  | .reservedOpcode18 _ => some (0xF8, 0xC0)
  | .reservedOpcode19 _ => some (0xF8, 0xC8)
  | .reservedOpcode1A _ => some (0xF8, 0xD0)
  | .reservedOpcode1B _ => some (0xF8, 0xD8)
  | .reservedOpcode1C _ => some (0xF8, 0xE0)
  | .reservedOpcode1D _ => some (0xF8, 0xE8)
  | .reservedOpcode1E _ => some (0xF8, 0xF0)
  | .reservedOpcode1F _ => some (0xF8, 0xF8)
  | .bdmFrame _ _ _ _ => none
  | .marker _ _ _ => none
  | .frame _ _ _ _ _ => none
  | .outViewInView _ _ _ _ _ _ => none
  | .commit => none

/-- The word of an instruction is its row's: under the row's mask it is the row's match. -/
def Statement (i : Instr) : Prop :=
  ∀ w a m p, encode i = .op w a → pattern i = some (m, p) → w.toNat &&& m = p

theorem row_of_word {i : Instr} {w : OpWord} {a m p : Nat} (he : encode i = .op w a) (hp : pattern i = some (m, p))
    (h : w.toNat &&& m = p) : Statement i := by
  intro w' a' m' p' he' hp'
  rw [he] at he'
  rw [hp] at hp'
  cases he'
  cases hp'
  exact h

theorem row_of_none {i : Instr} (hp : pattern i = none) : Statement i := by
  intro w a m p _ hp'
  rw [hp] at hp'
  cases hp'

theorem lvl (c : Role) : Statement (.lvl c) := by
  cases c <;> exact row_of_word rfl rfl (by decide)

theorem adv (c : Role) (n : Nat) : Statement (.adv c n) := by
  cases c <;> exact row_of_word rfl rfl (by decide)

theorem adve (c : Role) : Statement (.adve c) := by
  cases c <;> exact row_of_word rfl rfl (by decide)

theorem adva (c : Role) (q : Nat) : Statement (.adva c q) := by
  cases c <;> exact row_of_word rfl rfl (by decide)

theorem wtw (c : Role) (n : Nat) : Statement (.wtw c n) := by
  cases c <;> exact row_of_word rfl rfl (by decide)

theorem pos (c : Role) : Statement (.pos c) := by
  cases c <;> exact row_of_word rfl rfl (by decide)

theorem rsync (q : Nat) : Statement (.rsync q) := row_of_word rfl rfl (by decide)

theorem rdbit (c : Role) : Statement (.rdbit c) := by
  cases c <;> exact row_of_word rfl rfl (by decide)

theorem cfgchk : Statement .cfgchk := row_of_word rfl rfl (by decide)

theorem canchk : Statement .canchk := row_of_word rfl rfl (by decide)

theorem step : Statement .step := row_of_word rfl rfl (by decide)

theorem boot : Statement .boot := row_of_word rfl rfl (by decide)

theorem crdy : Statement .crdy := row_of_word rfl rfl (by decide)

theorem pstart : Statement .pstart := row_of_word rfl rfl (by decide)

theorem inert : Statement .inert := row_of_word rfl rfl (by decide)

theorem cycle : Statement .cycle := row_of_word rfl rfl (by decide)

theorem pbit : Statement .pbit := row_of_word rfl rfl (by decide)

theorem period : Statement .period := row_of_word rfl rfl (by decide)

theorem lensel : Statement .lensel := row_of_word rfl rfl (by decide)

theorem dbit : Statement .dbit := row_of_word rfl rfl (by decide)

theorem emit : Statement .emit := row_of_word rfl rfl (by decide)

theorem reservedLvlCh7 : Statement .reservedLvlCh7 := row_of_word rfl rfl (by decide)

theorem reservedAdvCh7 : Statement .reservedAdvCh7 := row_of_word rfl rfl (by decide)

theorem reservedAdveCh7 : Statement .reservedAdveCh7 := row_of_word rfl rfl (by decide)

theorem reservedAdvaCh7 : Statement .reservedAdvaCh7 := row_of_word rfl rfl (by decide)

theorem reservedWtwCh7 : Statement .reservedWtwCh7 := row_of_word rfl rfl (by decide)

theorem reservedPosCh7 : Statement .reservedPosCh7 := row_of_word rfl rfl (by decide)

theorem reservedRdbitCh7 : Statement .reservedRdbitCh7 := row_of_word rfl rfl (by decide)

theorem reservedRsyncCh (c : BitVec 3) : Statement (.reservedRsyncCh c) := row_of_word rfl rfl (by revert c; decide)

theorem reservedCfgchkCh (c : BitVec 3) : Statement (.reservedCfgchkCh c) := row_of_word rfl rfl (by revert c; decide)

theorem reservedCanchkCh (c : BitVec 3) : Statement (.reservedCanchkCh c) := row_of_word rfl rfl (by revert c; decide)

theorem reservedStepCh (c : BitVec 3) : Statement (.reservedStepCh c) := row_of_word rfl rfl (by revert c; decide)

theorem reservedBootCh (c : BitVec 3) : Statement (.reservedBootCh c) := row_of_word rfl rfl (by revert c; decide)

theorem reservedCrdyCh (c : BitVec 3) : Statement (.reservedCrdyCh c) := row_of_word rfl rfl (by revert c; decide)

theorem reservedPstartCh (c : BitVec 3) : Statement (.reservedPstartCh c) := row_of_word rfl rfl (by revert c; decide)

theorem reservedInertCh (c : BitVec 3) : Statement (.reservedInertCh c) := row_of_word rfl rfl (by revert c; decide)

theorem reservedCycleCh (c : BitVec 3) : Statement (.reservedCycleCh c) := row_of_word rfl rfl (by revert c; decide)

theorem reservedPbitCh (c : BitVec 3) : Statement (.reservedPbitCh c) := row_of_word rfl rfl (by revert c; decide)

theorem reservedPeriodCh (c : BitVec 3) : Statement (.reservedPeriodCh c) := row_of_word rfl rfl (by revert c; decide)

theorem reservedLenselCh (c : BitVec 3) : Statement (.reservedLenselCh c) := row_of_word rfl rfl (by revert c; decide)

theorem reservedDbitCh (c : BitVec 3) : Statement (.reservedDbitCh c) := row_of_word rfl rfl (by revert c; decide)

theorem reservedEmitCh (c : BitVec 3) : Statement (.reservedEmitCh c) := row_of_word rfl rfl (by revert c; decide)

theorem reservedOpcode15 (c : BitVec 3) : Statement (.reservedOpcode15 c) := row_of_word rfl rfl (by revert c; decide)

theorem reservedOpcode16 (c : BitVec 3) : Statement (.reservedOpcode16 c) := row_of_word rfl rfl (by revert c; decide)

theorem reservedOpcode17 (c : BitVec 3) : Statement (.reservedOpcode17 c) := row_of_word rfl rfl (by revert c; decide)

theorem reservedOpcode18 (c : BitVec 3) : Statement (.reservedOpcode18 c) := row_of_word rfl rfl (by revert c; decide)

theorem reservedOpcode19 (c : BitVec 3) : Statement (.reservedOpcode19 c) := row_of_word rfl rfl (by revert c; decide)

theorem reservedOpcode1A (c : BitVec 3) : Statement (.reservedOpcode1A c) := row_of_word rfl rfl (by revert c; decide)

theorem reservedOpcode1B (c : BitVec 3) : Statement (.reservedOpcode1B c) := row_of_word rfl rfl (by revert c; decide)

theorem reservedOpcode1C (c : BitVec 3) : Statement (.reservedOpcode1C c) := row_of_word rfl rfl (by revert c; decide)

theorem reservedOpcode1D (c : BitVec 3) : Statement (.reservedOpcode1D c) := row_of_word rfl rfl (by revert c; decide)

theorem reservedOpcode1E (c : BitVec 3) : Statement (.reservedOpcode1E c) := row_of_word rfl rfl (by revert c; decide)

theorem reservedOpcode1F (c : BitVec 3) : Statement (.reservedOpcode1F c) := row_of_word rfl rfl (by revert c; decide)

theorem bdmFrame (mc st : BitVec 3) (ow iw : BitVec 32) : Statement (.bdmFrame mc st ow iw) := row_of_none rfl

theorem marker (channel : Role) (at_ : Nat) (kind : MarkerKind) : Statement (.marker channel at_ kind) := row_of_none rfl

theorem frame (kind : FrameKind) (first last value : Nat) (flags : Byte) : Statement (.frame kind first last value flags) := row_of_none rfl

theorem outViewInView (mode control : Bit) (instruction : Bytes4) (status1 status2 : Bit) (data : Bytes4) : Statement (.outViewInView mode control instruction status1 status2 data) := row_of_none rfl

theorem commit : Statement .commit := row_of_none rfl

end Sys2Proof.Laws.TableRow
end

