-- ==== Sys2Proof/Laws/Stops.lean ====
section
/-! SUPPORT. How an operation can stop short of completing: the cursor operations and all that is made of them raise only
StreamPositionViolation (R210), and hold for ever only on a stream that has ended (R64). -/

namespace Sys2Proof.Machine

variable {α β : Type}

/-- An operation made of cursor operations: what it keeps, what it raises, when its hold never lifts. -/
structure CursorOp (op : State → Result α) : Prop where
  keeps : KeepsDone op
  raises : ∀ s code, op s = .raised code → code = .streamPositionViolation
  holds : ∀ s, op s = .held true → ∃ c, s.ended c = true

namespace CursorOp

theorem andThen {f : State → Result α} {g : α → State → Result β} (hf : CursorOp f) (hg : ∀ a, CursorOp (g a)) :
    CursorOp fun s => (f s).andThen g where
  keeps := hf.keeps.andThen fun a => (hg a).keeps
  raises := fun s code h => by
    rcases Result.andThen_eq_raised.1 h with h | ⟨a, u, -, h⟩
    · exact hf.raises s code h
    · exact (hg a).raises u code h
  holds := fun s h => by
    rcases Result.andThen_eq_held.1 h with h | ⟨a, u, hu, h⟩
    · exact hf.holds s h
    · obtain ⟨c, hc⟩ := (hg a).holds u h
      exact ⟨c, by rw [← (hf.keeps s a u hu).ended]; exact hc⟩

/-- A change of state that always completes. -/
theorem pure (a : α) {f : State → State} (h : ∀ s, Keeps s (f s)) : CursorOp fun s => Result.done a (f s) where
  keeps := KeepsDone.pure a h
  raises := fun _ _ h => by cases h
  holds := fun _ h => by cases h

/-- An operation after a change of state. -/
theorem after {f : State → Result α} (hf : CursorOp f) {m : State → State} (hm : ∀ s, Keeps s (m s)) :
    CursorOp fun s => f (m s) where
  keeps := fun s a t h => (hm s).trans (hf.keeps _ _ _ h)
  raises := fun _ code h => hf.raises _ code h
  holds := fun s h => by
    obtain ⟨c, hc⟩ := hf.holds _ h
    exact ⟨c, by rw [← (hm s).ended]; exact hc⟩

theorem ite (p : State → Prop) [DecidablePred p] {f g : State → Result α} (hf : CursorOp f) (hg : CursorOp g) :
    CursorOp fun s => if p s then f s else g s := by
  refine ⟨fun s a t h => ?_, fun s code h => ?_, fun s h => ?_⟩ <;> split at h
  · exact hf.keeps _ _ _ h
  · exact hg.keeps _ _ _ h
  · exact hf.raises _ _ h
  · exact hg.raises _ _ h
  · exact hf.holds _ h
  · exact hg.holds _ h

/-- An operation chosen by a part of the state. -/
theorem ofPart {γ : Type} (part : State → γ) {op : γ → State → Result α} (h : ∀ x, CursorOp (op x)) :
    CursorOp fun s => op (part s) s where
  keeps := fun s a t ht => (h _).keeps s a t ht
  raises := fun s code hs => (h _).raises s code hs
  holds := fun s hs => (h _).holds s hs

theorem silent {op : State → Result Unit} (h : CursorOp op) : CursorOp (Machine.silent op) :=
  h.andThen fun _ => pure _ Keeps.refl

theorem returnsBit {op : State → Result Bit} (h : CursorOp op) : CursorOp (Machine.returnsBit op) :=
  h.andThen fun b => pure (some (Value.bit b)) Keeps.refl

theorem returnsNat {op : State → Result Nat} (h : CursorOp op) : CursorOp (Machine.returnsNat op) :=
  h.andThen fun n => pure (some (Value.nat n)) Keeps.refl

end CursorOp

theorem cursorOp_readLevel (c : Role) : CursorOp (readLevel c) :=
  ⟨keeps_readLevel c, fun _ _ h => (by cases h), fun _ h => (by cases h)⟩

theorem cursorOp_readPosition (c : Role) : CursorOp (readPosition c) :=
  ⟨keeps_readPosition c, fun _ _ h => (by cases h), fun _ h => (by cases h)⟩

theorem cursorOp_advance (c : Role) (n : Nat) : CursorOp (advance c n) := by
  refine ⟨keeps_advance c n, fun s code h => ?_, fun s h => ?_⟩ <;>
    rcases advance_cases c n s with ⟨-, h'⟩ | ⟨-, h'⟩ <;> rw [h'] at h
  · cases h
  · cases h
  · cases h
  · exact ⟨c, by simpa using h⟩

theorem cursorOp_advanceToEdge (c : Role) : CursorOp (advanceToEdge c) := by
  refine ⟨keeps_advanceToEdge c, fun s code h => ?_, fun s h => ?_⟩ <;>
    rcases advanceToEdge_cases c s with ⟨_, -, -, -, -, h'⟩ | ⟨-, h'⟩ <;> rw [h'] at h
  · cases h
  · cases h
  · cases h
  · exact ⟨c, by simpa using h⟩

theorem cursorOp_advanceTo (c : Role) (q : Nat) : CursorOp (advanceTo c q) := by
  refine ⟨keeps_advanceTo c q, fun s code h => ?_, fun s h => ?_⟩ <;>
    rcases advanceTo_cases c q s with ⟨-, h'⟩ | ⟨-, -, h'⟩ | ⟨-, -, h'⟩ <;> rw [h'] at h
  · simpa using h.symm
  · cases h
  · cases h
  · cases h
  · cases h
  · exact ⟨c, by simpa using h⟩

theorem cursorOp_resync (q : Nat) : CursorOp (resync q) := by
  refine ⟨keeps_resync q, fun s code h => ?_, fun s h => ?_⟩ <;>
    rcases resync_cases q s with ⟨-, h'⟩ | ⟨-, -, h'⟩ | ⟨-, _, -, b, h', hb⟩ <;> rw [h'] at h
  · simpa using h.symm
  · cases h
  · cases h
  · cases h
  · cases h
  · obtain ⟨d, -, hd⟩ := hb.1 (by simpa using h)
    exact ⟨d, hd⟩

theorem cursorOp_wouldTransition (c : Role) (n : Nat) : CursorOp (wouldTransition c n) := by
  refine ⟨keeps_wouldTransition c n, fun s code h => ?_, fun s h => ?_⟩ <;>
    rcases wouldTransition_cases c n s with ⟨-, h'⟩ | ⟨-, -, h'⟩ <;> rw [h'] at h
  · cases h
  · cases h
  · cases h
  · exact ⟨c, by simpa using h⟩

theorem cursorOp_readBit (c : Role) : CursorOp (readBit c) := by
  refine ⟨keeps_readBit c, fun s code h => ?_, fun s h => ?_⟩ <;>
    rcases readBit_cases c s with ⟨_, h'⟩ | h' <;> rw [h'] at h
  · cases h
  · cases h
  · cases h
  · exact ⟨c, by simpa using h⟩

theorem cursorOp_bitPeriod : CursorOp bitPeriod :=
  (cursorOp_advanceToEdge _).andThen fun _ => (cursorOp_advanceToEdge _).andThen fun _ =>
    (CursorOp.ofPart (fun s => s.pos .clock) cursorOp_resync).andThen fun _ =>
      (CursorOp.ofPart State.tol (cursorOp_advance .dataIn)).andThen fun _ =>
        CursorOp.ofPart State.tol (cursorOp_advance .dataOut)

theorem cursorOp_takeBits {push : Bit → Bit → State → State} (hp : ∀ bo bi s, Keeps s (push bo bi s)) (bo bi : Bit) :
    CursorOp (takeBits push bo bi) :=
  cursorOp_bitPeriod.after (m := fun s => push bo bi (putBitMarkers s)) fun s =>
    (keeps_putBitMarkers s).trans (hp bo bi _)

theorem cursorOp_preambleBit : CursorOp preambleBit :=
  (cursorOp_readBit _).andThen fun _ => (cursorOp_readBit _).andThen fun _ => cursorOp_takeBits keeps_pushPreamble _ _

theorem cursorOp_payloadBit : CursorOp payloadBit :=
  (cursorOp_readLevel _).andThen fun _ => (cursorOp_readLevel _).andThen fun _ =>
    cursorOp_takeBits keeps_pushPayload _ _

theorem cursorOp_repeatOp {op : State → Result Unit} (h : CursorOp op) (n : Nat) : CursorOp (repeatOp n op) := by
  induction n with
  | zero => exact .pure () Keeps.refl
  | succ n ih => exact h.andThen fun _ => ih

theorem cursorOp_takeAll {push : Bit → Bit → State → State} (hp : ∀ bo bi s, Keeps s (push bo bi s))
    (bits : List (Bit × Bit)) : CursorOp (takeAll push bits) := by
  induction bits with
  | nil => exact .pure () Keeps.refl
  | cons b bits ih => exact (cursorOp_takeBits hp b.1 b.2).andThen fun _ => ih

theorem cursorOp_capture {preamble payload : State → Result Unit} (h1 : CursorOp preamble) (h2 : CursorOp payload) :
    CursorOp (capture preamble payload) :=
  (h1.after keeps_beginCycle).andThen fun _ => (h2.after keeps_beginPayload).andThen fun _ => .pure () keeps_endCycle

theorem cursorOp_captureCycle : CursorOp captureCycle :=
  cursorOp_capture (cursorOp_repeatOp cursorOp_preambleBit 3)
    (.ofPart (fun s => s.asm.len.bits) (cursorOp_repeatOp cursorOp_payloadBit))

theorem cursorOp_receiveFrame (mc st : BitVec 3) (ow iw : BitVec 32) : CursorOp (receiveFrame mc st ow iw) :=
  cursorOp_capture (cursorOp_takeAll keeps_pushPreamble _)
    (.ofPart (fun s => (wireBits s.asm.len.bits ow).zip (wireBits s.asm.len.bits iw))
      (cursorOp_takeAll keeps_pushPayload))

theorem cursorOp_bootAction : CursorOp bootAction :=
  (cursorOp_advanceToEdge _).andThen fun _ =>
    (CursorOp.ite (fun s => s.lvl .clock = true) (cursorOp_advanceToEdge _) (.pure () Keeps.refl)).andThen fun _ =>
      (CursorOp.ofPart (fun s => s.pos .clock) cursorOp_resync).andThen fun _ => .pure () fun s => keeps_setLink s _

theorem cursorOp_alignAction : CursorOp alignAction :=
  .ofPart State.alignRole (op := fun a s => (advanceToEdge a s).andThen fun _ s1 =>
    (advance a s1.params.deadInterval s1).andThen fun _ s2 =>
      (if stillLow s2 a then advanceToEdge a s2 else .done () s2).andThen fun _ s3 =>
        (resync (s3.pos a) (putMarker a (s3.pos a) .captureStart s3)).andThen fun _ s4 =>
          .done () (s4.setLink .packetStart)) fun a =>
    (cursorOp_advanceToEdge a).andThen fun _ =>
      (CursorOp.ofPart (fun s => s.params.deadInterval) (cursorOp_advance a)).andThen fun _ =>
        (CursorOp.ite (fun s => stillLow s a = true) (cursorOp_advanceToEdge a) (.pure () Keeps.refl)).andThen fun _ =>
          (CursorOp.ofPart (fun s => s.pos a) (op := fun t s => resync t (putMarker a t .captureStart s)) fun t =>
            (cursorOp_resync t).after fun s => keeps_putMarker _ _ _ s).andThen fun _ =>
              .pure () fun s => keeps_setLink s _

theorem cursorOp_packetAction : CursorOp packetAction :=
  .ite (fun s => targetReady s = true)
    (cursorOp_captureCycle.andThen fun _ => .pure () fun s => keeps_setLink s _) (.pure () fun s => keeps_setLink s _)

theorem cursorOp_inertAction : CursorOp inertAction := .pure () Keeps.refl

theorem cursorOp_linkAction : CursorOp linkAction :=
  .ofPart State.link (op := fun l s =>
    match l with
    | .boot => bootAction s
    | .clockSelectHold => inertAction s
    | .coreBootHold => inertAction s
    | .debugModeSet => inertAction s
    | .coreReadyHold => inertAction s
    | .coreReady => alignAction s
    | .packetStart => packetAction s) fun l => by
    cases l
    · exact cursorOp_bootAction
    · exact cursorOp_inertAction
    · exact cursorOp_inertAction
    · exact cursorOp_inertAction
    · exact cursorOp_inertAction
    · exact cursorOp_alignAction
    · exact cursorOp_packetAction

theorem cursorOp_loopIteration : CursorOp loopIteration :=
  CursorOp.after (f := fun t => if t.status = .cancelled then .done () t else linkAction t)
    (.ite (fun t => t.status = .cancelled) (.pure () Keeps.refl) cursorOp_linkAction) keeps_cancelCheck

end Sys2Proof.Machine
end

