-- ==== Sys2Proof/Laws/Step.lean ====
section
/-! SUPPORT. What a step does around `exec`. -/

namespace Sys2Proof.Machine

/-- Everything the retry's bookkeeping does. -/
theorem keepIfHeld_eq (i : Instr) (t : State) :
    keepIfHeld i t = { t with
      inFlight := match t.resp with
        | .held _ => some i
        | _ => none } := by
  unfold keepIfHeld
  split <;> simp_all

theorem mapNext_eq_next {f : State → State} {o : Host.Outcome State Fault Refusal} {t : State}
    (h : mapNext f o = .next t) : ∃ u, o = .next u ∧ t = f u := by
  cases o <;> simp only [mapNext, Host.Outcome.next.injEq, reduceCtorEq] at h
  exact ⟨_, rfl, h.symm⟩

/-- A first attempt never stops the machine. -/
theorem attempt_eq (i : Instr) (s : State) : ∃ t, exec i s = .next t ∧ attempt i s = .next (keepIfHeld i t) := by
  obtain ⟨t, ht⟩ := exec_next i s
  exact ⟨t, ht, by simp [attempt, ht, mapNext]⟩

theorem execHeld_next (i : Instr) (s : State) : ∃ t, execHeld i s = .next t := by
  unfold execHeld
  split
  · rcases issueIn_cases (e := .running) (op := silent linkAction) (s := s) rfl with
      ⟨-, h⟩ | ⟨-, ⟨_, _, -, h⟩ | ⟨_, -, h⟩ | ⟨_, -, h⟩⟩
    all_goals exact ⟨_, h⟩
  · exact exec_next i s

/-- A block that holds never stops the machine. -/
theorem resumeHeld_next (i : Instr) (s : State) : ∃ t, resumeHeld i s = .next t := by
  unfold resumeHeld
  split
  · split
    · exact ⟨_, rfl⟩
    · obtain ⟨t, ht⟩ := execHeld_next i (s.draw 1)
      exact ⟨_, by rw [ht]; rfl⟩
  · obtain ⟨t, ht⟩ := execHeld_next i s
    exact ⟨_, by rw [ht]; rfl⟩

/-- A held instruction's re-attempt is `exec` of what it runs. -/
theorem execHeld_eq (i : Instr) (s : State) : execHeld i s = exec (heldInstr i s.link) s := by
  unfold execHeld heldInstr
  split
  · cases hl : s.link <;>
      simp only [linkInstr, exec, execBoot, execCrdy, execPstart, execInert, issueIn, silent, linkAction, hl]
  · rfl

theorem blockIdle_of_inFlight {s : State} {i : Instr} (h : s.inFlight = some i) : blockIdle s = false := by
  simp [blockIdle, h]

theorem blockIdle_of_port {s : State} {p : PortOp} {ps : List PortOp} (h : s.port = p :: ps) :
    blockIdle s = false := by
  simp [blockIdle, h]

theorem blockIdle_of_status {s : State} (h : s.status = .init ∨ s.status = .running) : blockIdle s = false := by
  rcases h with h | h <;> simp [blockIdle, sequencerOp, h]

/-- On the block's turn a step is its move, if it has one. -/
theorem step_block {s : State} {ts : List Turn} (h : BlockTurn s ts) (hb : blockIdle s = false) :
    step s = blockMove { s with turns := ts } := by
  rcases h with h | ⟨h, rfl⟩
  · simp only [step, machineMove, h, hb, Bool.false_eq_true, if_false]
  · rw [show ({ s with turns := [] } : State) = s by rw [← h]]
    simp only [step, machineMove, h]

/-- Everything a step can be: the block's move, a turn that finds it with none, or the outside's turn. -/
theorem step_cases (s : State) :
    (∃ ts, BlockTurn s ts ∧ step s = blockMove { s with turns := ts }) ∨
      (∃ ts, s.turns = .run :: ts ∧ blockIdle s = true ∧ step s = .next { s with turns := ts }) ∨
        ∃ t ts, t ≠ .run ∧ s.turns = t :: ts ∧ step s = .next (hostTurn t { s with turns := ts }) := by
  rcases ht : s.turns with _ | ⟨t, ts⟩
  · exact .inl ⟨[], .inr ⟨ht, rfl⟩, by
      rw [show ({ s with turns := [] } : State) = s by rw [← ht]]
      simp only [step, machineMove, ht]⟩
  · cases t
    case run =>
      cases hb : blockIdle s
      · exact .inl ⟨ts, .inl ht, step_block (.inl ht) hb⟩
      · exact .inr (.inl ⟨ts, rfl, rfl, by simp only [step, machineMove, ht, hb, if_true]⟩)
    all_goals
      exact .inr (.inr ⟨_, ts, by simp, rfl, by simp only [step, machineMove, ht]⟩)

/-- The end flag is all that ending a stream changes. -/
theorem Memory.get_endStream (m : Memory) (k j : Nat) :
    (Memory.get (Memory.endStream m k) j).avail = (Memory.get m j).avail ∧
      (Memory.get (Memory.endStream m k) j).events = (Memory.get m j).events := by
  unfold Memory.endStream
  rw [Memory.get_update]
  split
  · next h => subst h; exact ⟨rfl, rfl⟩
  · exact ⟨rfl, rfl⟩

end Sys2Proof.Machine
end

