-- ==== Sys2Proof/Tests/Slice0.lean ====
section
/-! SUPPORT. Tests: words written out from the spec's encodings, ill-formed terms, one step of each operation against the
tables and programs of spec/95_test_vectors.md, and for each statement with hypotheses a state that meets them. -/

set_option Elab.async false

namespace Sys2Proof.Tests

open Sys2Proof.Machine

/-! ## Ill-formed terms -/

/-- R104: the reserved row beside a non-channel operation has a nonzero channel field. -/
theorem test_reserved_channel_zero_refused :
    (Instr.reservedRsyncCh 0).wf = false ∧ (Instr.reservedCfgchkCh 0).wf = false ∧
      (Instr.reservedCanchkCh 0).wf = false ∧ (Instr.reservedStepCh 0).wf = false ∧
      (Instr.reservedBootCh 0).wf = false ∧ (Instr.reservedCrdyCh 0).wf = false ∧
      (Instr.reservedPstartCh 0).wf = false ∧ (Instr.reservedInertCh 0).wf = false ∧
      (Instr.reservedCycleCh 0).wf = false ∧ (Instr.reservedPbitCh 0).wf = false ∧
      (Instr.reservedPeriodCh 0).wf = false ∧ (Instr.reservedLenselCh 0).wf = false ∧
      (Instr.reservedDbitCh 0).wf = false ∧ (Instr.reservedEmitCh 0).wf = false := by decide

/-- R88: a payload word of a 7-bit frame has no bit above bit 6. -/
theorem test_frame_payload_refused :
    (Instr.bdmFrame 2 0 0x80 0).wf = false ∧ (Instr.bdmFrame 2 0 0 0x80).wf = false ∧
      (Instr.bdmFrame 2 0 0x7F 0x7F).wf = true ∧ (Instr.bdmFrame 0 0 0xFFFFFFFF 0x80).wf = true := by decide

/-- R93: a framed record's value fits its kind. -/
theorem test_frame_value_refused :
    (Instr.frame .modeControl 0 0 8 0).wf = false ∧ (Instr.frame .status 0 0 8 0).wf = false ∧
      (Instr.frame .instruction 0 0 (2 ^ 32) 0).wf = false ∧ (Instr.frame .data 0 0 (2 ^ 32) 0).wf = false ∧
      (Instr.frame .status 0 0 7 0).wf = true ∧ (Instr.frame .data 0 0 (2 ^ 32 - 1) 0).wf = true := by decide

/-! ## Words written out from R97, R100 and R101 -/

theorem test_decode_channel_ops :
    decodeWord 0b00000000 0 = .lvl .dataIn ∧ decodeWord 0b00001001 3 = .adv .dataOut 3 ∧
      decodeWord 0b00010010 0 = .adve .clock ∧ decodeWord 0b00011011 9 = .adva .hardReset 9 ∧
      decodeWord 0b00100100 2 = .wtw .softReset 2 ∧ decodeWord 0b00101101 0 = .pos .modeSelect0 ∧
      decodeWord 0b00111110 0 = .rdbit .modeSelect1 := by decide

theorem test_decode_plain_ops :
    decodeWord 0b00110000 9 = .rsync 9 ∧ decodeWord 0b01000000 0 = .cfgchk ∧ decodeWord 0b01001000 0 = .canchk ∧
      decodeWord 0b01010000 0 = .step ∧ decodeWord 0b01011000 0 = .boot ∧ decodeWord 0b01100000 0 = .crdy ∧
      decodeWord 0b01101000 0 = .pstart ∧ decodeWord 0b01110000 0 = .inert ∧ decodeWord 0b01111000 0 = .cycle ∧
      decodeWord 0b10000000 0 = .pbit ∧ decodeWord 0b10001000 0 = .period ∧ decodeWord 0b10010000 0 = .lensel ∧
      decodeWord 0b10011000 0 = .dbit ∧ decodeWord 0b10100000 0 = .emit := by decide

theorem test_decode_reserved_channels :
    decodeWord 0b00000111 0 = .reservedLvlCh7 ∧ decodeWord 0b00001111 0 = .reservedAdvCh7 ∧
      decodeWord 0b00010111 0 = .reservedAdveCh7 ∧ decodeWord 0b00011111 0 = .reservedAdvaCh7 ∧
      decodeWord 0b00100111 0 = .reservedWtwCh7 ∧ decodeWord 0b00101111 0 = .reservedPosCh7 ∧
      decodeWord 0b00111111 0 = .reservedRdbitCh7 ∧ decodeWord 0b00110001 0 = .reservedRsyncCh 1 ∧
      decodeWord 0b01000010 0 = .reservedCfgchkCh 2 ∧ decodeWord 0b01001011 0 = .reservedCanchkCh 3 ∧
      decodeWord 0b01010100 0 = .reservedStepCh 4 ∧ decodeWord 0b01011101 0 = .reservedBootCh 5 ∧
      decodeWord 0b01100110 0 = .reservedCrdyCh 6 ∧ decodeWord 0b01101111 0 = .reservedPstartCh 7 ∧
      decodeWord 0b01110001 0 = .reservedInertCh 1 ∧ decodeWord 0b01111010 0 = .reservedCycleCh 2 ∧
      decodeWord 0b10000011 0 = .reservedPbitCh 3 ∧ decodeWord 0b10001100 0 = .reservedPeriodCh 4 ∧
      decodeWord 0b10010101 0 = .reservedLenselCh 5 ∧ decodeWord 0b10011110 0 = .reservedDbitCh 6 ∧
      decodeWord 0b10100111 0 = .reservedEmitCh 7 := by decide

theorem test_decode_reserved_opcodes :
    decodeWord 0b10101000 0 = .reservedOpcode15 0 ∧ decodeWord 0b10110001 0 = .reservedOpcode16 1 ∧
      decodeWord 0b10111010 0 = .reservedOpcode17 2 ∧ decodeWord 0b11000011 0 = .reservedOpcode18 3 ∧
      decodeWord 0b11001100 0 = .reservedOpcode19 4 ∧ decodeWord 0b11010101 0 = .reservedOpcode1A 5 ∧
      decodeWord 0b11011110 0 = .reservedOpcode1B 6 ∧ decodeWord 0b11100111 0 = .reservedOpcode1C 7 ∧
      decodeWord 0b11101000 0 = .reservedOpcode1D 0 ∧ decodeWord 0b11110001 0 = .reservedOpcode1E 1 ∧
      decodeWord 0b11111111 0 = .reservedOpcode1F 7 := by decide

/-- P1's frame, bit period by bit period: DataIn 1 1 0 then 0x53, DataOut 0 1 0 then 0x35 (R85). -/
def wireOfP1 : List (Bit × Bit) :=
  [(true, false), (true, true), (false, false), (true, false), (false, true), (true, true), (false, false),
    (false, true), (true, false), (true, true)]

theorem test_decode_wire :
    decode (.wire wireOfP1) = .ok (.bdmFrame 0b110 0b010 0x53 0x35) [] ∧
      decode (.wire (wireOfP1.take 2)) = .rejected .shortPreamble ∧
      decode (.wire (wireOfP1.take 9)) = .rejected .shortPayload ∧
      decode (.wire (wireOfP1 ++ [(true, true)])) = .rejected .trailingPeriods := by decide +kernel

/-- R92 to R95, R97. -/
theorem test_decode_records :
    decode (.record .marker [2, 23, 1]) = .ok (.marker .clock 23 .captureStart) [] ∧
      decode (.record .frame [1, 48, 102, 0x53, 7]) = .ok (.frame .instruction 48 102 0x53 7) [] ∧
      decode (.record .outViewInView [1, 0, 0, 0, 0, 0x53, 1, 0, 0, 0, 0, 0x35]) =
        .ok (.outViewInView true false ⟨0, 0, 0, 0x53⟩ true false ⟨0, 0, 0, 0x35⟩) [] ∧
      decode (.record .commit []) = .ok .commit [] := by decide

theorem test_decode_records_rejected :
    decode (.record .marker [7, 23, 1]) = .rejected .badRecord ∧
      decode (.record .marker [0, 23, 2]) = .rejected .badRecord ∧
      decode (.record .frame [0, 0, 0, 8, 0]) = .rejected .badRecord ∧
      decode (.record .frame [3, 0, 0, 0, 256]) = .rejected .badRecord ∧
      decode (.record .commit [0]) = .rejected .badRecord ∧ decodeBytes 0 [] = .rejected .noWord := by decide

/-- R107's spelling. -/
theorem test_asm :
    (Instr.adv .clock 5).asm = some "ADV clk, 5" ∧ (Instr.rsync 120).asm = some "RSYNC 120" ∧
      Instr.step.asm = some "STEP" := by decide

/-- R98, R105: code 7 is no Link State. -/
theorem test_link_codes :
    LinkState.ofCode 5 = some .coreReady ∧ LinkState.packetStart.code = 6 ∧ LinkState.ofCode 7 = none := by decide

/-! ## States of spec/95_test_vectors.md -/

/-- A stream from its event list, as far as it is produced: an event that repeats the level is no transition (R61). -/
def line (events : List (Nat × Bit)) (avail : Nat) : Stream :=
  ⟨(events.filter fun e => e.1 < avail).foldl (fun es e => if es.getLast?.map Prod.snd = some e.2 then es else es ++ [e]) [],
    avail, false⟩

/-- The P-clock (95_test_vectors.md section 2.4) up to its `n`-th rise. -/
def clockUpTo (n : Nat) : List (Nat × Bit) :=
  [(0, true), (10, false)] ++ (List.range n).flatMap fun m => [(14 + 8 * m, true), (18 + 8 * m, false)]

def pClock : List (Nat × Bit) := clockUpTo 12

/-- A session as its configuration leaves it, before CFGCHK: P1 to P5's configuration with override `t`. -/
def configured (t : Nat) (din dout clk : List (Nat × Bit)) (avail : Nat) : State :=
  { State.reset with
    cfg := ⟨8000000, 1000000, some t, ⟨0, 1, 2, 3, 3, 3, 3⟩⟩
    streams := [line din avail, line dout avail, line clk avail, line [(0, false)] avail]
    params := ⟨3, 0, .dataIn, false⟩ }

/-- A running session with every cursor at `p`. -/
def running (s : State) (t p : Nat) (l : LinkState) : State :=
  { s.placeAll p with status := .running, tol := t, link := l }

/-- Stream X on DataIn, the other streams constant 0 (section 2.1), the DataIn cursor at `p`, the others at 0. -/
def onX (p avail t : Nat) : State :=
  (running (configured t [(0, false), (3, true), (4, false), (9, true)] [(0, false)] [(0, false)] avail) t 0
    .boot).place .dataIn p

/-- The same with DataIn's stream ended. -/
def onXEnded (p avail t : Nat) : State := { onX p avail t with streams := Memory.endStream (onX p avail t).streams 0 }

/-- The same with the GLITCH_CONFIRM variant. -/
def onXConfirm (p avail t : Nat) : State := { onX p avail t with params := ⟨3, 0, .dataIn, true⟩ }

/-- P1's DataIn and DataOut (section 3). -/
def dinP1 : List (Nat × Bit) :=
  [(0, false), (20, true), (36, false), (44, true), (52, false), (60, true), (68, false), (76, false), (84, true),
    (92, true), (100, false)]

def doutP1 : List (Nat × Bit) :=
  [(0, true), (22, false), (28, true), (36, false), (44, false), (52, true), (60, true), (68, false), (76, true),
    (84, false), (92, true)]

/-- P1 before CFGCHK. -/
def p1Init : State := configured 2 dinP1 doutP1 pClock 110

/-- P1 with every cursor at `p`, tolerance `t`, in Link State `l`. -/
def p1At (t p : Nat) (l : LinkState) : State := running p1Init t p l

/-- P1 at the start of its cycle (section 3, step 4). -/
def p1Cycle : State := p1At 2 23 .packetStart

/-- P2's lines with every cursor at 10, in CoreReady (section 2.4, row 4). -/
def p2Ready : State :=
  running (configured 2 [(0, true), (15, false), (20, true), (24, false), (40, true), (48, false)] [(0, false)] pClock
    110) 2 10 .coreReady

/-- P2 at the start of its 32-bit cycle (section 3). -/
def p2Cycle : State :=
  running (configured 2 [(0, true), (15, false), (20, true), (24, false), (40, true), (48, false), (288, true), (296, false)]
    [(0, false)] (clockUpTo 48) 400) 2 20 .packetStart

/-- Section 2.5's PERIOD rows: the clock and its companions at 30, the data cursors `d` beyond. -/
def periodState (t d : Nat) : State :=
  ((p1At t 30 .packetStart).place .dataIn (30 + d)).place .dataOut (30 + d)

/-- A step's next state, asked a question. -/
def given (o : Host.Outcome State Fault Refusal) (p : State → Bool) : Bool :=
  match o with
  | .next t => p t
  | .fault _ => false
  | .refused _ => false

theorem reached {o : Host.Outcome State Fault Refusal} {P : State → Prop} [DecidablePred P]
    (h : given o (fun t => decide (P t)) = true) : ∃ t, o = .next t ∧ P t := by
  cases o with
  | next t => exact ⟨t, rfl, by simpa [given] using h⟩
  | fault r => cases h
  | refused r => cases h

/-- The samples strictly between two indices, for the interval that decides it. -/
theorem between {P : Nat → Prop} {a b : Nat} (h : ∀ i < b, a < i → P i) : ∀ i, a < i → i < b → P i :=
  fun i h1 h2 => h i h2 h1

/-! ## One step of each operation -/

/-- Section 2.1, rows 1 and 21. -/
theorem test_lvl_pos :
    given (exec (.lvl .dataIn) (onX 3 100 2)) (fun t => t.resp = .completed (some (.bit true))) = true ∧
      given (exec (.pos .dataIn) (onX 3 100 2)) (fun t => t.resp = .completed (some (.nat 3))) = true := by
  decide +kernel

/-- Section 2.1, rows 2, 3 and 5. -/
theorem test_adv :
    given (exec (.adv .dataIn 3) (onX 0 100 2)) (fun t => t.cur.dataIn = ⟨3, true⟩) = true ∧
      given (exec (.adv .dataIn 4) (onX 3 100 2)) (fun t => t.cur.dataIn = ⟨7, false⟩) = true ∧
      given (exec (.adv .dataIn 3) (onX 0 3 2)) (fun t => t.resp = .held false) = true := by decide +kernel

/-- Section 2.1, rows 6, 9, 10 and 13. -/
theorem test_adve :
    given (exec (.adve .dataIn) (onX 0 100 2)) (fun t => t.cur.dataIn = ⟨3, true⟩) = true ∧
      given (exec (.adve .dataIn) (onX 5 100 2)) (fun t => t.cur.dataIn = ⟨9, true⟩) = true ∧
      given (exec (.adve .dataIn) (onXEnded 9 100 2)) (fun t => t.resp = .held true) = true ∧
      given (exec (.adve .dataIn) (onX 4 9 2)) (fun t => t.resp = .held false) = true := by decide +kernel

/-- Section 2.1, rows 14, 15, 17 and 18. -/
theorem test_adva :
    given (exec (.adva .dataIn 5) (onX 3 100 2)) (fun t => t.cur.dataIn = ⟨5, false⟩) = true ∧
      given (exec (.adva .dataIn 3) (onX 3 100 2)) (fun t => t.cur.dataIn = ⟨3, true⟩) = true ∧
      given (exec (.adva .dataIn 2) (onX 3 100 2)) (fun t => t.faultCode = .streamPositionViolation) = true ∧
      given (exec (.adva .dataIn 2) (onX 3 4 2)) (fun t => t.status = .faulted) = true := by decide +kernel

/-- Section 2.1's WTW table, row p = 2, and rows 19 and 20. -/
theorem test_wtw :
    ((List.range 7).map fun n => given (exec (.wtw .dataIn n) (onX 2 100 2))
        fun t => t.resp = .completed (some (.bit true))) = [false, false, true, true, true, true, true] ∧
      given (exec (.wtw .dataIn 5) (onX 0 5 2)) (fun t => t.resp = .completed (some (.bit true))) = true ∧
      given (exec (.wtw .dataIn 6) (onX 0 5 2)) (fun t => t.resp = .held false) = true := by decide +kernel

/-- Section 2.2, rows 1 to 3. -/
theorem test_rsync :
    given (exec (.rsync 5) ((onX 3 100 2).place .dataOut 2))
        (fun t => t.cur = ⟨⟨5, false⟩, ⟨5, false⟩, ⟨5, false⟩, ⟨5, false⟩, ⟨5, false⟩, ⟨5, false⟩, ⟨5, false⟩⟩) = true ∧
      given (exec (.rsync 2) (onX 3 100 2)) (fun t => t.faultCode = .streamPositionViolation) = true ∧
      given (exec (.rsync 5) (onX 3 5 2)) (fun t => t.resp = .held false) = true := by decide +kernel

/-- Section 2.3, T = 2: the two rows of the table. -/
theorem test_rdbit :
    ((List.range 10).map fun p => given (exec (.rdbit .dataIn) (onX p 100 2))
        fun t => t.resp = .completed (some (.bit true))) =
      [true, true, true, false, false, false, true, true, true, true] ∧
    ((List.range 10).map fun p => given (exec (.rdbit .dataIn) (onXConfirm p 100 2))
        fun t => t.resp = .completed (some (.bit true))) =
      [false, false, false, false, false, false, true, true, true, true] := by decide +kernel

/-- Section 2.3's holds. -/
theorem test_rdbit_holds :
    given (exec (.rdbit .dataIn) (onX 0 3 2)) (fun t => t.resp = .held false) = true ∧
      given (exec (.rdbit .dataIn) (onX 0 4 2)) (fun t => t.resp = .completed (some (.bit true))) = true ∧
      given (exec (.rdbit .dataIn) (onXConfirm 0 4 2)) (fun t => t.resp = .held false) = true ∧
      given (exec (.rdbit .dataIn) (onXConfirm 0 5 2)) (fun t => t.resp = .completed (some (.bit false))) = true := by
  decide +kernel

/-- Section 2.6, rows 2, 4 and 5, and P1's step 1. -/
theorem test_cfgchk :
    given (exec .cfgchk { p1Init with cfg := { p1Init.cfg with sampleRate := 3999999 } })
        (fun t => t.faultCode = .configurationError ∧ t.log = []) = true ∧
      given (exec .cfgchk p1Init) (fun t => t.tol = 2 ∧ t.status = .running ∧ t.cur.dataOut = ⟨0, true⟩) = true ∧
      given (exec .cfgchk { p1Init with streams := p1Init.streams.take 2 }) (fun t => t.resp = .held false) = true := by
  decide +kernel

/-- Section 2.6, rows 6, 7 and 10. -/
theorem test_refused :
    given (exec .step p1Init) (fun t => t.resp = .refused ∧ t.status = .init) = true ∧
      given (exec .cfgchk p1Cycle) (fun t => t.resp = .refused ∧ t.status = .running) = true ∧
      given (exec (.reservedOpcode15 0) p1Init) (fun t => t.resp = .refused ∧ t.status = .init) = true := by decide +kernel

/-- Section 2.4, row 8. -/
theorem test_canchk :
    given (exec .canchk { p1Cycle with cancelReq := true, pending := [.commit] })
        (fun t => t.status = .cancelled ∧ t.pending = [] ∧ t.cur = p1Cycle.cur) = true ∧
      given (exec .step { p1Cycle with cancelReq := true }) (fun t => t.status = .cancelled ∧ t.log = []) = true := by
  decide +kernel

/-- Section 2.4, rows 1 and 2. -/
theorem test_boot :
    given (exec .boot (p1At 2 0 .boot)) (fun t => t.cur.clock = ⟨10, false⟩ ∧ t.cur.dataIn = ⟨10, false⟩ ∧
      t.link = .coreReady) = true ∧
    given (exec .boot (running (configured 2 dinP1 doutP1 [(0, false), (5, true), (10, false)] 110) 2 0 .boot))
      (fun t => t.cur.clock = ⟨10, false⟩ ∧ t.link = .coreReady) = true := by decide +kernel

/-- Section 2.4, rows 3 and 4. -/
theorem test_crdy :
    given (exec .crdy (p1At 2 10 .coreReady)) (fun t => t.cur.dataIn = ⟨23, true⟩ ∧ t.cur.dataOut = ⟨23, false⟩ ∧
      t.log = [.marker .dataIn 23 .captureStart] ∧ t.link = .packetStart) = true ∧
    given (exec .crdy p2Ready) (fun t => t.cur.dataIn = ⟨20, true⟩ ∧
      t.log = [.marker .dataIn 20 .captureStart]) = true := by decide +kernel

/-- Section 2.4, rows 6 and 7, and P1's step 4. -/
theorem test_pstart_inert :
    given (exec .pstart (p1Cycle.place .dataOut 28)) (fun t => t.link = .coreReady ∧ t.log = [] ∧
      t.cur.dataIn = ⟨23, true⟩) = true ∧
    given (exec .pstart p1Cycle) (fun t => t.link = .coreReady ∧ t.log.length = 27) = true ∧
    given (exec .inert p1Cycle) (fun t => t.cur = p1Cycle.cur ∧ t.link = p1Cycle.link) = true := by decide +kernel

/-- P1's cycle (section 3): its fields, its ranges and the cursors after it. -/
theorem test_cycle :
    given (exec .cycle p1Cycle) (fun t => t.asm = ⟨6, 2, 0x53, 0x35, .seven, 23, 46, 48, 102⟩ ∧
      t.cur.dataIn = ⟨104, false⟩ ∧ t.cur.dataOut = ⟨104, true⟩ ∧ t.cur.clock = ⟨102, true⟩ ∧
      t.cur.hardReset = ⟨102, false⟩ ∧ t.pending = []) = true := by decide +kernel

/-- P1's markers (section 3), the first and the last of the cycle. -/
theorem test_cycle_markers :
    given (exec .cycle p1Cycle) (fun t => t.log.take 4 = [.marker .dataIn 23 .bitSample, .marker .dataOut 23 .bitSample,
      .marker .dataIn 32 .bitSample, .marker .dataOut 32 .bitSample] ∧
      t.log[19]? = some (.marker .dataOut 96 .bitSample) ∧ t.log.getLast? = some .commit) = true := by decide +kernel

/-- P4 (section 3): the second PERIOD finds the data cursors past the clock. -/
theorem test_step_faults :
    given (exec .step (p1At 10 23 .packetStart))
      (fun t => t.status = .faulted ∧ t.faultCode = .streamPositionViolation ∧ t.log = [] ∧ t.pending = []) = true := by
  decide +kernel

/-- P1's bit 0, and its bit 3. -/
theorem test_pbit_dbit :
    given (exec .pbit p1Cycle) (fun t => t.asm.mc = 1 ∧ t.asm.st = 0 ∧ t.cur.dataIn = ⟨32, true⟩ ∧
      t.cur.clock = ⟨30, true⟩ ∧ t.pending = [.marker .dataIn 23 .bitSample, .marker .dataOut 23 .bitSample]) = true ∧
    given (exec .dbit (((p1At 2 46 .packetStart).place .dataIn 48).place .dataOut 48))
      (fun t => t.asm.ow = 1 ∧ t.asm.iw = 0 ∧ t.cur.clock.pos = 54 ∧ t.cur.dataOut.pos = 56) = true := by decide +kernel

/-- Section 2.5's PERIOD rows. -/
theorem test_period :
    given (exec .period p1Cycle) (fun t => t.cur.dataIn.pos = 32 ∧ t.cur.dataOut.pos = 32 ∧ t.cur.clock.pos = 30 ∧
      t.cur.hardReset.pos = 30) = true ∧
    given (exec .period (periodState 10 10)) (fun t => t.faultCode = .streamPositionViolation) = true := by decide +kernel

/-- Section 2.5's LENSEL table. -/
theorem test_lensel :
    ((List.range 8).map fun m => given (exec .lensel { p1Cycle with asm := { p1Cycle.asm with mc := BitVec.ofNat 3 m } })
      fun t => t.asm.len = .seven) = [false, false, true, true, false, false, true, true] := by decide +kernel

/-- P1's two views (section 3), by EMIT from its registers; PENDING goes first (R183). -/
theorem test_emit :
    given (exec .emit { p1Cycle with
        asm := ⟨6, 2, 0x53, 0x35, .seven, 23, 46, 48, 102⟩
        pending := [.marker .dataIn 23 .bitSample] })
      (fun t => t.log.length = 8 ∧ t.log[0]? = some (.marker .dataIn 23 .bitSample) ∧
        t.log.drop 5 = [.outView true false ⟨0, 0, 0, 0x53⟩, .inView true false ⟨0, 0, 0, 0x35⟩, .commit] ∧
        t.pending = []) = true := by decide +kernel

/-- P1's frame received whole (R85; log entry 14). -/
theorem test_bdm_frame :
    given (exec (.bdmFrame 6 2 0x53 0x35) p1Cycle) (fun t => t.asm = ⟨6, 2, 0x53, 0x35, .seven, 23, 46, 48, 102⟩ ∧
      t.cur.clock.pos = 102 ∧ t.log.length = 27) = true := by decide +kernel

/-- The records (R92 to R95; log entry 15). -/
theorem test_records :
    given (exec (.marker .clock 5 .bitSample) p1Cycle) (fun t => t.pending = [.marker .clock 5 .bitSample] ∧
      t.log = []) = true ∧
    given (exec (.marker .dataIn 23 .captureStart) p1Cycle) (fun t => t.log = [.marker .dataIn 23 .captureStart]) = true ∧
    given (exec (.frame .status 1 2 3 4) p1Cycle) (fun t => t.pending = [.frame .status 1 2 3 4]) = true ∧
    given (exec .commit { p1Cycle with pending := [.frame .status 1 2 3 4] })
      (fun t => t.log = [.frame .status 1 2 3 4, .commit] ∧ t.pending = []) = true := by decide +kernel

/-- The views (R94; log entry 15). -/
theorem test_views :
    given (exec (.outViewInView true false ⟨0, 0, 0, 1⟩ false true ⟨0, 0, 0, 2⟩) p1Cycle)
      (fun t => t.pending = [.outView true false ⟨0, 0, 0, 1⟩, .inView false true ⟨0, 0, 0, 2⟩]) = true := by
  decide +kernel

/-- Section 2.1, row 22, and section 2.6, rows 8 and 9. -/
theorem test_reserved :
    given (exec .reservedLvlCh7 p1Cycle) (fun t => t.faultCode = .illegalOperation) = true ∧
      given (exec (.reservedOpcode15 0) p1Cycle) (fun t => t.faultCode = .illegalOperation) = true ∧
      given (exec (.reservedCfgchkCh 1) p1Cycle) (fun t => t.status = .faulted) = true := by decide +kernel

/-- Section 2.5's rendering rows. -/
theorem test_be4 :
    be4 0x53 = ⟨0, 0, 0, 0x53⟩ ∧ be4 0x80000001 = ⟨0x80, 0, 0, 1⟩ ∧
      (assemble [true, true, false] : BitVec 3) = 6 ∧
      (assemble [true, false, true, false, false, true, true] : BitVec 32) = 0x53 := by decide

/-- The sequencer from Init: CFGCHK, then the first STEP (section 3, P1). -/
theorem test_sequencer :
    given (step p1Init) (fun t => t.status = .running ∧ t.inFlight = none) = true ∧
      given (step (p1At 2 0 .boot)) (fun t => t.link = .coreReady) = true := by decide +kernel

/-- Section 2.6, row 13: a STEP held in CRDY stays in flight. -/
theorem test_step_held :
    given (step (p1At 2 104 .coreReady)) (fun t => t.inFlight = some .step ∧ t.resp = .held false ∧
      t.cur = (p1At 2 104 .coreReady).cur) = true := by decide +kernel

/-- R237: samples appended, a stream ended, a cancel requested. -/
theorem test_host_turns :
    given (step { onX 0 3 2 with turns := [.produce 0 true 2] }) (fun t => t.avail .dataIn = 5 ∧
      t.sample .dataIn 3 = true ∧ t.sample .dataIn 2 = false) = true ∧
    given (step { onX 0 3 2 with turns := [.endStream 0] }) (fun t => t.ended .dataIn = true) = true ∧
    given (step { onX 0 3 2 with turns := [.requestCancel] }) (fun t => t.cancelReq = true) = true := by decide +kernel

/-- R37: what the host reads. -/
theorem test_host_read :
    given (step { p1Cycle with turns := [.read .status] }) (fun t => t.hostOut = some (.bits 1)) = true ∧
      given (step { p1Cycle with turns := [.read .tol] }) (fun t => t.hostOut = some (.nat 2)) = true := by decide +kernel

/-- The word 0x10 placed by the host runs ADVE din next. -/
theorem test_placed_word :
    given (step ((onX 0 100 2).withFetchWord 8 0x10)) (fun t => t.cur.dataIn = ⟨3, true⟩) = true := by decide +kernel

/-! ## Witnesses: for each statement with hypotheses, states and operands that meet them, at the ends of their ranges -/

/-- The clock positions of P1's cycle (section 3). -/
def p1Clock (k : Nat) : Nat := if k = 0 then 23 else 22 + 8 * k

theorem p1_consistent : p1Cycle.Consistent := by intro c; cases c <;> rfl

theorem p1_cycleClock : CycleClock p1Cycle p1Clock (framePeriods 6) where
  start := rfl
  periods := by decide +kernel
  entry := by intro c; cases c <;> decide +kernel
  nudge := by
    have h : ∀ k < framePeriods 6, 1 ≤ k → p1Clock k + p1Cycle.tol ≤ p1Clock (k + 1) := by decide +kernel
    exact fun k h1 h2 => h k h2 h1
  produced := by intro c; cases c <;> decide +kernel
  producedIn := by decide +kernel
  producedOut := by decide +kernel

theorem p1_preamble : PreambleProduced p1Cycle p1Clock := by unfold PreambleProduced; decide +kernel

theorem witness_LvlAndPosReadTheCursor : (onX 3 100 2).status = .running := rfl

theorem witness_AdvMovesExactly :
    (onX 0 3 2).status = .running ∧ (onX 0 3 2).pos .dataIn + 2 < (onX 0 3 2).avail .dataIn ∧
      (onX 0 3 2).avail .dataIn ≤ (onX 0 3 2).pos .dataIn + 3 := by decide +kernel

theorem witness_AdveMovesToTheNextEdge_edge :
    (onX 0 4 2).status = .running ∧ (onX 0 4 2).pos .dataIn < 3 ∧ 3 < (onX 0 4 2).avail .dataIn ∧
      (onX 0 4 2).sample .dataIn 3 ≠ (onX 0 4 2).lvl .dataIn ∧
      ∀ i, (onX 0 4 2).pos .dataIn < i → i < 3 → (onX 0 4 2).sample .dataIn i = (onX 0 4 2).lvl .dataIn :=
  ⟨rfl, by decide +kernel, by decide +kernel, by decide +kernel, between (by decide +kernel)⟩

theorem witness_AdveMovesToTheNextEdge_hold :
    ∀ i, (onX 4 9 2).pos .dataIn < i → i < (onX 4 9 2).avail .dataIn →
      (onX 4 9 2).sample .dataIn i = (onX 4 9 2).lvl .dataIn :=
  between (by decide +kernel)

theorem witness_AdvaMovesOrFaults :
    (onX 3 4 2).status = .running ∧ 2 < (onX 3 4 2).pos .dataIn ∧
      ((onX 3 4 2).pos .dataIn ≤ 3 ∧ 3 < (onX 3 4 2).avail .dataIn) ∧
      ((onX 3 4 2).pos .dataIn ≤ 4 ∧ (onX 3 4 2).avail .dataIn ≤ 4) := by decide +kernel

theorem witness_WtwLooksStrictlyInside :
    (onX 0 5 2).status = .running ∧ (2 ≤ 1 → (onX 0 5 2).pos .dataIn + 1 - 1 < (onX 0 5 2).avail .dataIn) ∧
      (2 ≤ 5 → (onX 0 5 2).pos .dataIn + 5 - 1 < (onX 0 5 2).avail .dataIn) ∧
      2 ≤ 6 ∧ (onX 0 5 2).avail .dataIn ≤ (onX 0 5 2).pos .dataIn + 6 - 1 := by decide +kernel

theorem witness_RsyncMovesAllOrNone :
    (onX 3 5 2).status = .running ∧ (∃ c, 2 < (onX 3 5 2).pos c) ∧
      (∀ c, (onX 3 5 2).pos c ≤ 3) ∧ (∀ c, 4 < (onX 3 5 2).avail c) ∧ (∃ c, (onX 3 5 2).avail c ≤ 5) :=
  ⟨rfl, ⟨.dataIn, by decide +kernel⟩, by intro c; cases c <;> decide +kernel,
    by intro c; cases c <;> decide +kernel, ⟨.clock, by decide +kernel⟩⟩

theorem witness_RsyncIsIdempotent :
    ∃ t, exec (.rsync 3) (onX 3 5 2) = .next t ∧ t.resp = .completed none := reached (by decide +kernel)

theorem witness_RdbitDefaultInvertsNearAnEdge_near :
    (onX 0 4 2).status = .running ∧ (onX 0 4 2).params.glitchConfirm = false ∧
      (onX 0 4 2).pos .dataIn + (onX 0 4 2).tol + 1 < (onX 0 4 2).avail .dataIn ∧
      1 ≤ 3 ∧ (onX 0 4 2).trans .dataIn ((onX 0 4 2).pos .dataIn + 3) = true ∧
      (∀ j, 1 ≤ j → j < 3 → (onX 0 4 2).trans .dataIn ((onX 0 4 2).pos .dataIn + j) = false) ∧
      (onX 0 3 2).avail .dataIn ≤ (onX 0 3 2).pos .dataIn + (onX 0 3 2).tol + 1 :=
  ⟨rfl, rfl, by decide +kernel, by decide, by decide +kernel, between (a := 0) (by decide +kernel), by decide +kernel⟩

theorem witness_RdbitDefaultInvertsNearAnEdge_far :
    (onX 4 9 2).pos .dataIn + (onX 4 9 2).tol + 1 < (onX 4 9 2).avail .dataIn ∧
      ∀ k, 1 ≤ k → k ≤ (onX 4 9 2).tol + 1 → (onX 4 9 2).trans .dataIn ((onX 4 9 2).pos .dataIn + k) = false :=
  ⟨by decide +kernel, fun k h1 h2 => between (a := 0) (b := 4)
    (P := fun k => (onX 4 9 2).trans .dataIn ((onX 4 9 2).pos .dataIn + k) = false) (by decide +kernel) k h1
      (Nat.lt_succ_of_le h2)⟩

theorem witness_RdbitVariantConfirmsTheEdge_confirmed :
    (onXConfirm 7 12 2).status = .running ∧ (onXConfirm 7 12 2).params.glitchConfirm = true ∧
      (onXConfirm 7 12 2).pos .dataIn + (onXConfirm 7 12 2).tol + 2 < (onXConfirm 7 12 2).avail .dataIn ∧
      (∃ k, 1 ≤ k ∧ k ≤ (onXConfirm 7 12 2).tol + 1 ∧
        (onXConfirm 7 12 2).trans .dataIn ((onXConfirm 7 12 2).pos .dataIn + k) = true) ∧
      (onXConfirm 7 12 2).sample .dataIn ((onXConfirm 7 12 2).pos .dataIn + (onXConfirm 7 12 2).tol + 2) ≠
        (onXConfirm 7 12 2).lvl .dataIn :=
  ⟨rfl, rfl, by decide +kernel, ⟨2, by decide +kernel⟩, by decide +kernel⟩

theorem witness_RdbitVariantConfirmsTheEdge_rejected :
    (onXConfirm 0 5 2).pos .dataIn + (onXConfirm 0 5 2).tol + 2 < (onXConfirm 0 5 2).avail .dataIn ∧
      (onXConfirm 0 5 2).sample .dataIn ((onXConfirm 0 5 2).pos .dataIn + (onXConfirm 0 5 2).tol + 2) =
        (onXConfirm 0 5 2).lvl .dataIn ∧
      (onXConfirm 0 4 2).avail .dataIn ≤ (onXConfirm 0 4 2).pos .dataIn + (onXConfirm 0 4 2).tol + 2 := by
  decide +kernel

/-- Section 2.6, rows 1 to 3 and 5. -/
theorem witness_CfgchkStartsOrRejectsTheSession :
    p1Init.status = .init ∧ State.reset.cfg.sampleRate = 0 ∧ 3999999 < 4 * 1000000 ∧ p1Init.cfg.sampleRate ≠ 0 ∧
      p1Init.cfg.bitRate ≠ 0 ∧ 4 * p1Init.cfg.bitRate ≤ p1Init.cfg.sampleRate ∧
      (∀ c, p1Init.params.startPos < p1Init.avail c) ∧
      ∃ c, ({ p1Init with streams := p1Init.streams.take 2 } : State).avail c ≤ p1Init.params.startPos :=
  ⟨rfl, rfl, by decide, by decide, by decide, by decide, by intro c; cases c <;> decide +kernel,
    ⟨.clock, by decide +kernel⟩⟩

theorem witness_CanchkCancelsOnRequest :
    p1Cycle.status = .running ∧ p1Cycle.cancelReq = false ∧
      ({ p1Cycle with cancelReq := true } : State).cancelReq = true := ⟨rfl, rfl, rfl⟩

theorem witness_StepRunsTheLinkAction :
    p1Cycle.status = .running ∧ p1Cycle.cancelReq = false ∧ (p1At 2 0 .boot).link = .boot ∧
      (p1At 2 10 .coreReady).link = .coreReady ∧ p1Cycle.link = .packetStart ∧
      (p1At 2 10 .debugModeSet).link = .debugModeSet := ⟨rfl, rfl, rfl, rfl, rfl, rfl⟩

/-- P1's first falling edge of the clock, at 10 from 0 (section 2.4, row 1). -/
theorem p1_boot_edge : EdgeAt (p1At 2 0 .boot) .clock ((p1At 2 0 .boot).pos .clock) 10 := by decide +kernel

theorem witness_StepCompletes :
    (p1At 2 0 .boot).lvl .clock = true ∧ (p1At 2 0 .boot).sample .clock ((p1At 2 0 .boot).pos .clock) = true ∧
      (∀ c, (p1At 2 0 .boot).pos c ≤ 10) ∧ (∀ c, 10 < (p1At 2 0 .boot).avail c) ∧
      (p1Cycle.place .dataOut 28).link = .packetStart ∧ (p1Cycle.place .dataOut 28).lvl .dataOut = true ∧
      (p1At 2 10 .clockSelectHold).link = .clockSelectHold :=
  ⟨by decide +kernel, by decide +kernel, by intro c; cases c <;> decide +kernel,
    by intro c; cases c <;> decide +kernel, rfl, by decide +kernel, rfl⟩

/-- Section 2.4, row 2: the clock low at the start. -/
theorem witness_BootFindsTheFirstFallingEdge_low :
    let s := running (configured 2 dinP1 doutP1 [(0, false), (5, true), (10, false)] 110) 2 0 .boot
    s.status = .running ∧ s.lvl .clock = s.sample .clock (s.pos .clock) ∧ s.lvl .clock = false ∧
      ClockPeriod s (s.pos .clock) 10 ∧ (∀ c, s.pos c ≤ 10) ∧ ∀ c, 10 < s.avail c :=
  ⟨rfl, rfl, by decide +kernel, by decide +kernel, by intro c; cases c <;> decide +kernel,
    by intro c; cases c <;> decide +kernel⟩

theorem witness_BootFindsTheFirstFallingEdge_high :
    (p1At 2 0 .boot).status = .running ∧
      (p1At 2 0 .boot).lvl .clock = (p1At 2 0 .boot).sample .clock ((p1At 2 0 .boot).pos .clock) ∧
      (p1At 2 0 .boot).lvl .clock = true ∧ EdgeAt (p1At 2 0 .boot) .clock ((p1At 2 0 .boot).pos .clock) 10 ∧
      (∀ c, (p1At 2 0 .boot).pos c ≤ 10) ∧ ∀ c, 10 < (p1At 2 0 .boot).avail c :=
  ⟨rfl, rfl, by decide +kernel, p1_boot_edge, by intro c; cases c <;> decide +kernel,
    by intro c; cases c <;> decide +kernel⟩

/-- Section 2.4, row 4: the line still low after the dead interval. -/
theorem witness_CrdyAlignsOnTheStartBit_low :
    p2Ready.status = .running ∧
      p2Ready.lvl p2Ready.alignRole = p2Ready.sample p2Ready.alignRole (p2Ready.pos p2Ready.alignRole) ∧
      EdgeAt p2Ready p2Ready.alignRole (p2Ready.pos p2Ready.alignRole) 15 ∧
      p2Ready.sample p2Ready.alignRole (15 + p2Ready.params.deadInterval) = false ∧
      EdgeAt p2Ready p2Ready.alignRole (15 + p2Ready.params.deadInterval) 20 ∧ (∀ c, p2Ready.pos c ≤ 20) ∧
      ∀ c, 20 < p2Ready.avail c :=
  ⟨rfl, rfl, by decide +kernel, by decide +kernel, by decide +kernel, by intro c; cases c <;> decide +kernel,
    by intro c; cases c <;> decide +kernel⟩

/-- Section 2.4, row 3: the line high after it. -/
theorem witness_CrdyAlignsOnTheStartBit_high :
    (p1At 2 10 .coreReady).status = .running ∧
      EdgeAt (p1At 2 10 .coreReady) (p1At 2 10 .coreReady).alignRole
        ((p1At 2 10 .coreReady).pos (p1At 2 10 .coreReady).alignRole) 20 ∧
      (p1At 2 10 .coreReady).sample (p1At 2 10 .coreReady).alignRole (20 + 3) = true ∧
      (∀ c, (p1At 2 10 .coreReady).pos c ≤ 23) ∧ ∀ c, 23 < (p1At 2 10 .coreReady).avail c :=
  ⟨rfl, by decide +kernel, by decide +kernel, by intro c; cases c <;> decide +kernel,
    by intro c; cases c <;> decide +kernel⟩

theorem witness_CrdyLeavesTheLineHigh :
    ∃ t, exec .crdy p2Ready = .next t ∧ t.resp = .completed none := reached (by decide +kernel)

theorem witness_PstartCapturesOrSkips_high :
    (p1Cycle.place .dataOut 28).status = .running ∧ (p1Cycle.place .dataOut 28).lvl .dataOut = true := by
  decide +kernel

theorem witness_PstartCapturesOrSkips_low :
    p1Cycle.lvl .dataOut = false ∧ (∃ t, exec .cycle p1Cycle = .next t ∧ t.resp = .completed none) ∧
      (∃ t, exec .cycle ({ p1Cycle with streams := (configured 2 dinP1 doutP1 pClock 101).streams } : State) = .next t ∧
        t.resp = .held false) ∧
      ∃ t, exec .cycle (p1At 10 23 .packetStart) = .next t ∧ t.resp = .faulted :=
  ⟨by decide +kernel, reached (by decide +kernel), reached (by decide +kernel), reached (by decide +kernel)⟩

theorem witness_InertChangesNothing : p1Cycle.status = .running := rfl

theorem witness_LinkIsWrittenOnlyByItsActions :
    ∃ t, exec .crdy p2Ready = .next t ∧ t.resp ≠ .faulted ∧ t.link ≠ p2Ready.link := reached (by decide +kernel)

theorem witness_SequencerFaultsOnlyInPacketStart :
    p1Cycle.status = .running ∧ p1Cycle.Consistent ∧ SequencerAligned p1Cycle ∧
      (∃ t, exec .step p1Cycle = .next t ∧ t.status = .running) ∧
      SequencerAligned (p1At 10 23 .packetStart) ∧
      ∃ t, exec .step (p1At 10 23 .packetStart) = .next t ∧ t.resp = .faulted :=
  ⟨rfl, p1_consistent, by intro c; cases c <;> rfl, reached (by decide +kernel), by intro c; cases c <;> rfl,
    reached (by decide +kernel)⟩

/-- P1's cycle meets what CYCLE and PSTART need. -/
theorem witness_CycleCapturesTheFrame :
    p1Cycle.status = .running ∧ p1Cycle.Consistent ∧ 6 = preambleField p1Cycle p1Clock .dataIn ∧
      CycleClock p1Cycle p1Clock (framePeriods 6) ∧ PreambleProduced p1Cycle p1Clock :=
  ⟨rfl, p1_consistent, by decide +kernel, p1_cycleClock, p1_preamble⟩

/-- The clock positions of P2's cycle (section 3): 18 + 8k after the k-th period. -/
def p2Clock (k : Nat) : Nat := if k = 0 then 20 else 18 + 8 * k

theorem p2_consistent : p2Cycle.Consistent := by intro c; cases c <;> decide +kernel

theorem p2_cycleClock : CycleClock p2Cycle p2Clock (framePeriods 4) where
  start := rfl
  periods := by decide +kernel
  entry := by intro c; cases c <;> decide +kernel
  nudge := by
    have h : ∀ k < framePeriods 4, 1 ≤ k → p2Clock k + p2Cycle.tol ≤ p2Clock (k + 1) := by decide +kernel
    exact fun k h1 h2 => h k h2 h1
  produced := by intro c; cases c <;> decide +kernel
  producedIn := by decide +kernel
  producedOut := by decide +kernel

/-- P2's cycle of 32 payload bits meets it too. -/
theorem witness_CycleCapturesTheFrame_long :
    p2Cycle.status = .running ∧ p2Cycle.Consistent ∧ 4 = preambleField p2Cycle p2Clock .dataIn ∧
      (selectLen 4).bits = 32 ∧ CycleClock p2Cycle p2Clock (framePeriods 4) ∧ PreambleProduced p2Cycle p2Clock :=
  ⟨rfl, p2_consistent, by decide +kernel, rfl, p2_cycleClock, by unfold PreambleProduced; decide +kernel⟩

/-- P2's cycle (section 3): its fields and ranges. -/
theorem test_cycle_long :
    given (exec .cycle p2Cycle) (fun t => t.asm = ⟨4, 0, 0x80000001, 0, .thirtyTwo, 20, 42, 44, 298⟩ ∧
      t.cur.dataIn = ⟨300, false⟩ ∧ t.cur.clock = ⟨298, false⟩ ∧ t.log.length = 77) = true := by decide +kernel

theorem witness_PstartCapturesTheFrame :
    p1Cycle.status = .running ∧ p1Cycle.Consistent ∧ p1Cycle.lvl .dataOut = false ∧
      6 = preambleField p1Cycle p1Clock .dataIn ∧ CycleClock p1Cycle p1Clock (framePeriods 6) ∧
      PreambleProduced p1Cycle p1Clock :=
  ⟨rfl, p1_consistent, by decide +kernel, by decide +kernel, p1_cycleClock, p1_preamble⟩

theorem witness_BdmFrameDeliversItsFields :
    p1Cycle.status = .running ∧ p1Cycle.Consistent ∧ (Instr.bdmFrame 6 2 0x53 0x35).WF ∧
      CycleClock p1Cycle p1Clock (framePeriods 6) := ⟨rfl, p1_consistent, by decide, p1_cycleClock⟩

theorem witness_CycleReceivesTheFrameItDecodes :
    ∃ t, exec .cycle p1Cycle = .next t ∧ t.resp = .completed none := reached (by decide +kernel)

theorem witness_PbitTakesOneClassifiedBit :
    p1Cycle.status = .running ∧ p1Cycle.Consistent ∧
      p1Cycle.pos .dataIn + classifierReach p1Cycle < p1Cycle.avail .dataIn ∧
      p1Cycle.pos .dataOut + classifierReach p1Cycle < p1Cycle.avail .dataOut ∧
      ClockPeriod p1Cycle (p1Cycle.pos .clock) 30 ∧ (∀ c, p1Cycle.pos c ≤ 30) ∧ (∀ c, 30 < p1Cycle.avail c) ∧
      30 + p1Cycle.tol < p1Cycle.avail .dataIn ∧ 30 + p1Cycle.tol < p1Cycle.avail .dataOut :=
  ⟨rfl, p1_consistent, by decide +kernel, by decide +kernel, by decide +kernel,
    by intro c; cases c <;> decide +kernel, by intro c; cases c <;> decide +kernel, by decide +kernel,
    by decide +kernel⟩

theorem witness_DbitTakesOneRawBit :
    p1Cycle.status = .running ∧ p1Cycle.lvl .clock = p1Cycle.sample .clock (p1Cycle.pos .clock) ∧
      ClockPeriod p1Cycle (p1Cycle.pos .clock) 30 ∧ (∀ c, p1Cycle.pos c ≤ 30) ∧ (∀ c, 30 < p1Cycle.avail c) ∧
      30 + p1Cycle.tol < p1Cycle.avail .dataIn ∧ 30 + p1Cycle.tol < p1Cycle.avail .dataOut :=
  ⟨rfl, rfl, by decide +kernel, by intro c; cases c <;> decide +kernel, by intro c; cases c <;> decide +kernel,
    by decide +kernel, by decide +kernel⟩

/-- A bit period of 8 samples with the data cursors 8 beyond the clock, and with them 9 beyond. -/
theorem witness_PeriodAdvancesOneBitPeriod :
    (periodState 8 8).status = .running ∧
      (periodState 8 8).lvl .clock = (periodState 8 8).sample .clock ((periodState 8 8).pos .clock) ∧
      ClockPeriod (periodState 8 8) ((periodState 8 8).pos .clock) 38 ∧ 38 < (periodState 8 8).avail .clock ∧
      (∀ c, (periodState 8 8).pos c ≤ 38) ∧ (∀ c, 38 < (periodState 8 8).avail c) ∧
      38 + (periodState 8 8).tol < (periodState 8 8).avail .dataIn ∧
      38 + (periodState 8 8).tol < (periodState 8 8).avail .dataOut ∧
      ClockPeriod (periodState 9 9) ((periodState 9 9).pos .clock) 38 ∧ ∃ c, 38 < (periodState 9 9).pos c :=
  ⟨rfl, rfl, by decide +kernel, by decide +kernel, by intro c; cases c <;> decide +kernel,
    by intro c; cases c <;> decide +kernel, by decide +kernel, by decide +kernel, by decide +kernel,
    ⟨.dataIn, by decide +kernel⟩⟩

theorem periodState_companions (t : Nat) (c : Role) (h1 : c ≠ .dataIn) (h2 : c ≠ .dataOut) :
    (periodState t t).pos c = (periodState t t).pos .clock := by
  cases c <;> first | rfl | exact absurd rfl h1 | exact absurd rfl h2

/-- The period of exactly `T` samples goes on, the one a sample shorter faults. -/
theorem witness_PeriodFaultsExactlyWhenTooShort :
    (periodState 8 8).pos .dataIn = (periodState 8 8).pos .clock + (periodState 8 8).tol ∧
      (periodState 8 8).pos .dataOut = (periodState 8 8).pos .clock + (periodState 8 8).tol ∧
      ClockPeriod (periodState 8 8) ((periodState 8 8).pos .clock) 38 ∧
      (∃ t, exec .period (periodState 8 8) = .next t ∧ t.resp = .completed none) ∧
      (periodState 9 9).pos .dataIn = (periodState 9 9).pos .clock + (periodState 9 9).tol ∧
      ∃ t, exec .period (periodState 9 9) = .next t ∧ t.resp = .faulted :=
  ⟨rfl, rfl, by decide +kernel, reached (by decide +kernel), rfl, reached (by decide +kernel)⟩

theorem witness_LenselReadsTheModeBit :
    p1Cycle.status = .running ∧ ({ p1Cycle with asm := { p1Cycle.asm with mc := 6 } } : State).asm.mc.getLsbD 1 = true ∧
      ({ p1Cycle with asm := { p1Cycle.asm with mc := 5 } } : State).asm.mc.getLsbD 1 = false :=
  ⟨rfl, by decide, by decide⟩

theorem witness_EmitCommitsTheBatch : p1Cycle.status = .running := rfl

theorem witness_RecordsGoToTheSink : p1Cycle.status = .running := rfl

theorem witness_StepLeavesNothingPending :
    p1Cycle.pending = [] ∧ ∃ t, exec .step p1Cycle = .next t ∧ t.resp = .completed none :=
  ⟨rfl, reached (by decide +kernel)⟩

theorem witness_ReservedWordsAreIllegal :
    isReserved (.reservedOpcode1F 7) = true ∧ isReserved .reservedLvlCh7 = true ∧ p1Cycle.status = .running :=
  ⟨rfl, rfl, rfl⟩

theorem witness_NotEnabledIsRefused :
    p1Init.status ≠ (if Instr.step = .cfgchk then .init else .running) ∧
      p1Cycle.status ≠ (if Instr.cfgchk = .cfgchk then .init else .running) := by decide +kernel

theorem witness_HoldsChangeNothing :
    (∃ t, exec (.adv .dataIn 3) (onX 0 3 2) = .next t ∧ t.resp = .held false) ∧
      ∃ t, exec (.adve .dataIn) (onXEnded 9 100 2) = .next t ∧ t.resp = .held true :=
  ⟨reached (by decide +kernel), reached (by decide +kernel)⟩

theorem witness_FaultEntryIsTeardown :
    ∃ t, exec (.adva .dataIn 2) (onX 3 100 2) = .next t ∧ t.resp = .faulted := reached (by decide +kernel)

theorem witness_EachFaultHasItsCause :
    (∃ t, exec .cfgchk State.reset = .next t ∧ t.resp = .faulted) ∧
      (∃ t, exec .step (p1At 10 23 .packetStart) = .next t ∧ t.resp = .faulted) ∧
      ∃ t, exec (.reservedOpcode15 0) p1Cycle = .next t ∧ t.resp = .faulted :=
  ⟨reached (by decide +kernel), reached (by decide +kernel), reached (by decide +kernel)⟩

theorem witness_StatusNeverGoesBack :
    (∃ t, exec .step ({ p1Cycle with status := .cancelled } : State) = .next t ∧ t.status = .cancelled) ∧
      (∃ t, exec .step ({ p1Cycle with status := .faulted } : State) = .next t ∧ t.status = .faulted) ∧
      ∃ t, exec .step p1Init = .next t ∧ t.status = .init :=
  ⟨reached (by decide +kernel), reached (by decide +kernel), reached (by decide +kernel)⟩

theorem witness_OperationsOnlyReadTheStreams :
    ∃ t, exec .cycle p1Cycle = .next t ∧ t.resp = .completed none := reached (by decide +kernel)

theorem witness_ToleranceIsFixed :
    p1Cycle.status ≠ .init ∧ ∃ t, exec .cycle p1Cycle = .next t ∧ t.resp ≠ .faulted :=
  ⟨by decide +kernel, reached (by decide +kernel)⟩

theorem witness_LogOnlyGrows : ∃ t, exec .cycle p1Cycle = .next t ∧ t.log ≠ p1Cycle.log := by
  obtain ⟨t, ht, h⟩ := reached (o := exec .cycle p1Cycle) (P := fun t => t.log.length = 27) (by decide +kernel)
  exact ⟨t, ht, fun he => by rw [he] at h; cases h⟩

theorem witness_CursorsNeverMoveBack :
    p1Cycle.status = .running ∧ ∃ t, exec .cycle p1Cycle = .next t ∧ t.resp ≠ .faulted :=
  ⟨rfl, reached (by decide +kernel)⟩

theorem witness_ResultsDoNotDependOnArrival :
    ∃ t, exec (.adve .dataIn) (onX 0 4 2) = .next t ∧ t.resp = .completed none := reached (by decide +kernel)

theorem witness_EveryStepKeepsTheSessionInvariant :
    SessionInv p1Cycle ∧ ∃ t, step p1Cycle = .next t ∧ t.status = .running := by
  refine ⟨⟨by decide +kernel, ?_, ?_, fun _ c => ?_, fun _ => .inr (.inr rfl), fun h => absurd rfl h⟩,
    reached (by decide +kernel)⟩
  · exact ⟨fun h => (by cases h), fun h => absurd rfl h⟩
  · exact fun _ => rfl
  · exact ⟨by cases c <;> decide +kernel, p1_consistent c⟩

theorem witness_EveryStepKeepsTheLogWhole :
    SinkInv p1Cycle ∧ ∃ t, step p1Cycle = .next t ∧ t.status = .running :=
  ⟨⟨rfl, by intro e he; cases he⟩, reached (by decide +kernel)⟩

theorem witness_DecodeOfEncodeIsTheInstruction :
    (Instr.bdmFrame 6 2 0x53 0x35).WF ∧ (Instr.bdmFrame 4 0 0x80000001 0).WF ∧ (Instr.reservedRsyncCh 7).WF ∧
      (Instr.frame .status 23 46 7 255).WF := by decide

theorem witness_AccumulationIsMsbFirst :
    ([true, true, false] : List Bit).length ≤ 3 ∧ (List.replicate 32 true : List Bit).length ≤ 32 := by decide

theorem witness_FourByteRendering : (0x7F : BitVec 32).toNat < 128 := by decide

theorem witness_StepRunsThePortInstruction :
    (Instr.adve .dataIn).WF ∧ encode (.adve .dataIn) = .op 0x10 0 ∧
      ({ onX 0 100 2 with port := [⟨0x10, 0⟩] } : State).inFlight = none ∧
      BlockTurn { onX 0 100 2 with port := [⟨0x10, 0⟩] } [] ∧
      BlockTurn { onX 0 100 2 with port := [⟨0x10, 0⟩], turns := [.run, .run] } [.run] :=
  ⟨rfl, by decide, rfl, .inr ⟨rfl, rfl⟩, .inl rfl⟩

theorem witness_PlacedWordRunsNext : decodeTableWord 8 0x10 = some (.adve .dataIn) := by decide

theorem witness_SequencerIssuesCfgchkThenStep :
    BlockTurn p1Init [] ∧ p1Init.port = [] ∧ p1Init.inFlight = none ∧ p1Init.status = .init ∧
      BlockTurn { p1Cycle with turns := [.run] } [] ∧ p1Cycle.port = [] ∧ p1Cycle.inFlight = none ∧
      p1Cycle.status = .running ∧ BlockTurn { p1Cycle with status := .cancelled } [] ∧
      BlockTurn { p1Cycle with status := .faulted, turns := [.run, .read .log] } [.read .log] :=
  ⟨.inr ⟨rfl, rfl⟩, rfl, rfl, rfl, .inl rfl, rfl, rfl, rfl, .inr ⟨rfl, rfl⟩, .inl rfl⟩

/-- R237, R240: an ended session takes the outside's turns, and stops when none is left. -/
theorem test_turns_after_the_end :
    given (step { p1Cycle with status := .cancelled, turns := [.run, .newSession] })
        (fun t => t.turns = [.newSession] ∧ t.status = .cancelled) = true ∧
      given (step { p1Cycle with status := .cancelled, turns := [.newSession] }) (fun t => t.status = .init) = true ∧
      step { p1Cycle with status := .cancelled } = .refused .sessionEnded := ⟨by decide +kernel, by decide +kernel, rfl⟩

/-- A session in which `i` holds, with or without a cancel requested. -/
def holding (i : Instr) (s : State) (cancel : Bit) : State := { s with inFlight := some i, cancelReq := cancel }

theorem step_holding (i : Instr) (s : State) (cancel : Bit) (h : s.turns = []) :
    ∃ t, step (holding i s cancel) = .next t := by
  have ht : BlockTurn (holding i s cancel) [] := .inr ⟨h, rfl⟩
  obtain ⟨t, hr⟩ := resumeHeld_next i { holding i s cancel with turns := [] }
  exact ⟨t, by rw [step_block ht (blockIdle_of_inFlight rfl)]; exact hr⟩

theorem witness_HeldOperationIsRetriedOrCancelled (cancel : Bit) :
    BlockTurn (holding (.adv .dataIn 3) (onX 0 3 2) cancel) [] ∧
      (holding (.adv .dataIn 3) (onX 0 3 2) cancel).inFlight = some (.adv .dataIn 3) ∧
      (∃ t, step (holding (.adv .dataIn 3) (onX 0 3 2) cancel) = .next t) ∧
      (holding (.adv .dataIn 3) (onX 0 3 2) cancel).cancelReq = cancel ∧
      (holding (.adv .dataIn 3) (onX 0 3 2) cancel).status = .running :=
  ⟨.inr ⟨rfl, rfl⟩, rfl, step_holding _ _ _ rfl, rfl, rfl⟩

/-- A held STEP: section 2.6, row 12. -/
theorem witness_HeldOperationIsRetriedOrCancelled_step (cancel : Bit) :
    BlockTurn (holding .step (p1At 2 104 .coreReady) cancel) [] ∧
      (holding .step (p1At 2 104 .coreReady) cancel).inFlight = some .step ∧
      (∃ t, step (holding .step (p1At 2 104 .coreReady) cancel) = .next t) ∧
      heldInstr .step (p1At 2 104 .coreReady).link = .crdy :=
  ⟨.inr ⟨rfl, rfl⟩, rfl, step_holding _ _ _ rfl, rfl⟩

theorem witness_CancellationComesWithinOneStep_free :
    ({ p1Cycle with cancelReq := true } : State).status = .running ∧
      BlockTurn { p1Cycle with cancelReq := true } [] ∧ ({ p1Cycle with cancelReq := true } : State).port = [] ∧
      ({ p1Cycle with cancelReq := true } : State).inFlight = none ∧
      ∃ t, step { p1Cycle with cancelReq := true } = .next t ∧ t.status = .cancelled :=
  ⟨rfl, .inr ⟨rfl, rfl⟩, rfl, rfl, reached (by decide +kernel)⟩

/-- Section 2.6, row 12: P1 after its third STEP, with the fourth held. -/
theorem witness_CancellationComesWithinOneStep_held :
    (holding .step (p1At 2 104 .coreReady) true).status = .running ∧
      (holding .step (p1At 2 104 .coreReady) true).cancelReq = true ∧
      BlockTurn (holding .step (p1At 2 104 .coreReady) true) [] ∧
      (holding .step (p1At 2 104 .coreReady) true).port = [] ∧
      (holding .step (p1At 2 104 .coreReady) true).inFlight = some .step ∧
      ∃ t, step (holding .step (p1At 2 104 .coreReady) true) = .next t :=
  ⟨rfl, rfl, .inr ⟨rfl, rfl⟩, rfl, rfl, step_holding _ _ _ rfl⟩

/-- Section 2.6, row 13: the same with DataIn's stream ended, so that the hold never lifts. -/
theorem witness_CancellationComesWithinOneStep_stuck :
    ∃ u, exec (linkInstr (p1At 2 104 .coreReady).link)
        { holding .step (p1At 2 104 .coreReady) true with
          streams := Memory.endStream (p1At 2 104 .coreReady).streams 0
          draws := 1 } = .next u ∧ u.resp = .held true := reached (by decide +kernel)

theorem witness_HostOnlyAppendsSamples :
    Memory.wf (onX 0 3 2).streams ∧ (Memory.get (onX 0 3 2).streams 0).ended = false ∧
      Memory.wf (onXEnded 0 3 2).streams ∧ (Memory.get (onXEnded 0 3 2).streams 0).ended = true ∧
      ({ onX 0 3 2 with turns := [.produce 0 true 2] } : State).turns = [.produce 0 true 2] ∧
      ({ onX 0 3 2 with turns := [.endStream 4] } : State).turns = [.endStream 4] ∧
      ({ onX 0 3 2 with turns := [.read .status] } : State).turns = [.read .status] := by decide +kernel

theorem witness_ConfigurationIsLatched :
    ({ p1Init with turns := [.setSampleRate 5] } : State).turns = [.setSampleRate 5] ∧ p1Init.status = .init ∧
      ({ p1Cycle with turns := [.setBitRate 5] } : State).turns = [.setBitRate 5] ∧ p1Cycle.status ≠ .init ∧
      ({ p1Cycle with turns := [.setTolOverride none] } : State).turns = [.setTolOverride none] ∧
      ({ p1Cycle with turns := [.setBinding p1Cycle.cfg.binding] } : State).turns = [.setBinding p1Cycle.cfg.binding] ∧
      ({ p1Cycle with turns := [.requestCancel] } : State).turns = [.requestCancel] :=
  ⟨rfl, rfl, rfl, by decide +kernel, rfl, rfl, rfl⟩

theorem witness_ConfigurationIsLatched_sticky :
    (∀ us, ({ p1Cycle with cancelReq := true } : State).turns ≠ .newSession :: us) ∧
      ∃ t, step { p1Cycle with cancelReq := true } = .next t ∧ t.status = .cancelled :=
  ⟨fun _ h => (by cases h), reached (by decide +kernel)⟩

theorem witness_NewSessionForgetsTheRun :
    ({ p1Cycle with turns := [.newSession] } : State).turns = [.newSession] ∧
      ({ p1Init with turns := [.newSession] } : State).streams = ({ p1Cycle with turns := [.newSession] } : State).streams ∧
      p1Init.params = p1Cycle.params ∧ p1Init.draws = p1Cycle.draws ∧ p1Init.cur ≠ p1Cycle.cur :=
  ⟨rfl, rfl, rfl, rfl, by decide +kernel⟩

end Sys2Proof.Tests
end

/-! ## The environment through an operation (R7, R39 to R41, R60, R72) -/

namespace Sys2Proof.Machine

/-- Everything an operation does to what it only reads, whichever of its four outcomes it comes to. -/
theorem exec_environment {i : Instr} {s t : State} (h : exec i s = .next t) :
    t.streams = s.streams ∧ t.cfg = s.cfg ∧ t.params = s.params ∧ t.cancelReq = s.cancelReq := by
  rcases exec_cases h with ⟨-, rfl⟩ | ⟨-, ⟨v, u, hu, rfl⟩ | ⟨b, -, rfl⟩ | ⟨code, -, rfl⟩⟩
  · exact ⟨rfl, rfl, rfl, rfl⟩
  · have hk : Keeps s u := contract_keeps i s v u hu
    exact ⟨hk.streams, hk.cfg, hk.params, hk.cancelReq⟩
  · exact ⟨rfl, rfl, rfl, rfl⟩
  · exact ⟨rfl, rfl, rfl, rfl⟩

/-- A role's stream is found from the sample spaces and the binding alone (R6, R62). -/
theorem State.stream_congr {s t : State} (hm : t.streams = s.streams) (hc : t.cfg = s.cfg) (c : Role) :
    t.stream c = s.stream c := by
  simp [State.stream, State.bound, hm, hc]

/-- A role's samples are found from the sample spaces and the binding alone (R6, R62). -/
theorem State.sample_congr {s t : State} (hm : t.streams = s.streams) (hc : t.cfg = s.cfg) (c : Role) (n : Nat) :
    t.sample c n = s.sample c n := by
  simp [State.sample, State.bound, hm, hc]

/-- Settles O41: an operation's four outcomes leave the environment as it was, and every read is found from it. -/
theorem operationsOnlyReadTheStreams : Obligations.OperationsOnlyReadTheStreams := by
  intro i s t h
  obtain ⟨hm, hc, hp, hr⟩ := exec_environment h
  refine ⟨fun c n => ⟨State.sample_congr hm hc c n, ?_, ?_⟩, hm, hc, hp, hr⟩
  · exact congrArg Stream.avail (State.stream_congr hm hc c)
  · exact congrArg Stream.ended (State.stream_congr hm hc c)

end Sys2Proof.Machine

/-! ## The host's turns on the sample spaces (R7, R61, R237) -/

namespace Sys2Proof.Machine

/-! ### One stream, produced on and read back -/

theorem Stream.produce_of_ended {st : Stream} (h : st.ended = true) (l : Bit) (n : Nat) : st.produce l n = st := by
  simp [Stream.produce, h]

@[simp] theorem Stream.produce_ended (st : Stream) (l : Bit) (n : Nat) : (st.produce l n).ended = st.ended := by
  unfold Stream.produce
  split <;> rfl

theorem Stream.produce_avail {st : Stream} (h : st.ended = false) (l : Bit) (n : Nat) :
    (st.produce l n).avail = st.avail + n := by
  unfold Stream.produce
  split
  · next hn =>
    have hz : n = 0 := by simpa [h] using hn
    simp [hz]
  · rfl

/-- Beyond every event a stream keeps its last event's level (R61). -/
theorem levelAt_of_forall_le {es : List (Nat × Bit)} {i : Nat} (h : ∀ e ∈ es, e.1 ≤ i) (d : Bit) :
    levelAt es d i = (es.getLast?.map Prod.snd).getD d := by
  induction es generalizing d with
  | nil => rfl
  | cons e es ih =>
    obtain ⟨he, hes⟩ := List.forall_mem_cons.1 h
    simp only [levelAt, he, if_true, ih hes, List.getLast?_cons]
    cases es.getLast? <;> rfl

/-- The samples produced read as the level they are produced at, whether it is a new event or the last one's. -/
theorem Stream.produce_level_new {st : Stream} (hw : st.wf) (h : st.ended = false) (l d : Bit) {n i : Nat}
    (hlo : st.avail ≤ i) (hhi : i < st.avail + n) : levelAt (st.produce l n).events d i = l := by
  obtain ⟨-, hb⟩ := hw
  unfold Stream.produce
  split
  · next hn =>
    have hz : n = 0 := by simpa [h] using hn
    omega
  · dsimp only
    split
    · next hl =>
      rw [levelAt_of_forall_le fun e he => Nat.le_trans (Nat.le_of_lt (hb e he)) hlo, hl]
      rfl
    · exact levelAt_append_ge _ _ _ _ _ hb hlo

/-! ### The sample spaces -/

theorem Memory.get_produce_same (m : Memory) (k : Nat) (l : Bit) (n : Nat) :
    Memory.get (Memory.produce m k l n) k = (Memory.get m k).produce l n := by
  simp [Memory.produce, Memory.get_update]

theorem Memory.get_produce_other {j k : Nat} (h : j ≠ k) (m : Memory) (l : Bit) (n : Nat) :
    Memory.get (Memory.produce m k l n) j = Memory.get m j := by
  simp [Memory.produce, Memory.get_update, h]

/-- The samples produced on a stream that has not ended read as the level they are produced at (R7, R61). -/
theorem Memory.sample_produce_new {m : Memory} {k n i : Nat} (hw : Memory.wf m) (h : (Memory.get m k).ended = false)
    (l : Bit) (hlo : (Memory.get m k).avail ≤ i) (hhi : i < (Memory.get m k).avail + n) :
    Memory.sample (Memory.produce m k l n) k i = l := by
  rw [Memory.sample, Memory.get_produce_same]
  exact Stream.produce_level_new (Memory.get_wf m hw k) h l _ hlo hhi

theorem Memory.get_endStream_same (m : Memory) (k : Nat) :
    Memory.get (Memory.endStream m k) k = { Memory.get m k with ended := true } := by
  simp [Memory.endStream, Memory.get_update]

theorem Memory.get_endStream_other {j k : Nat} (h : j ≠ k) (m : Memory) :
    Memory.get (Memory.endStream m k) j = Memory.get m j := by
  simp [Memory.endStream, Memory.get_update, h]

theorem Memory.sample_endStream (m : Memory) (k j i : Nat) :
    Memory.sample (Memory.endStream m k) j i = Memory.sample m j i := by
  obtain ⟨-, he⟩ := Memory.get_endStream m k j
  rw [Memory.sample, he, Memory.sample]

/-! ### The turns -/

/-- A step that finds a turn of the host's takes it. -/
theorem step_hostTurn {s : State} {u : Turn} {ts : List Turn} (hu : u ≠ .run) (h : s.turns = u :: ts) :
    step s = .next (hostTurn u { s with turns := ts }) := by
  rcases step_cases s with ⟨_, hb | ⟨hb, -⟩, -⟩ | ⟨_, hr, -⟩ | ⟨u', ts', -, h', hs⟩
  · rw [h] at hb
    exact absurd (List.cons.inj hb).1 hu
  · rw [h] at hb
    cases hb
  · rw [h] at hr
    exact absurd (List.cons.inj hr).1 hu
  · rw [h] at h'
    cases h'
    exact hs

/-- Settles O58: each of the three turns is `hostTurn`'s, and what it does is told by the rules of the sample spaces. -/
theorem hostOnlyAppendsSamples : Obligations.HostOnlyAppendsSamples := by
  refine fun s ts => ⟨fun k n l hw ht => ?_, fun k hw ht => ?_, fun r ht => ?_⟩
  · refine ⟨_, step_hostTurn (by simp) ht, rfl, Memory.produce_wf _ k l n hw, fun j hj => ?_, fun i hi => ?_, ?_,
      fun he => ?_, fun he => ⟨?_, fun i hlo hhi => ?_⟩⟩
    · exact Memory.get_produce_other hj s.streams l n
    · exact Memory.sample_produce s.streams k k l n i hi
    · exact (congrArg Stream.ended (Memory.get_produce_same s.streams k l n)).trans (Stream.produce_ended _ l n)
    · exact (Memory.get_produce_same s.streams k l n).trans (Stream.produce_of_ended he l n)
    · exact (congrArg Stream.avail (Memory.get_produce_same s.streams k l n)).trans (Stream.produce_avail he l n)
    · exact Memory.sample_produce_new hw he l hlo hhi
  · refine ⟨_, step_hostTurn (by simp) ht, rfl, Memory.endStream_wf _ k hw, fun j hj => ?_, ?_, fun j i => ?_⟩
    · exact Memory.get_endStream_other hj s.streams
    · exact Memory.get_endStream_same s.streams k
    · exact Memory.sample_endStream s.streams k j i
  · cases r <;> exact step_hostTurn (by simp) ht

end Sys2Proof.Machine

/-! ## Decoding an instruction's own word (R100 to R104) -/

namespace Sys2Proof

@[simp] theorem opcodeField_opWord (o : BitVec 5) (ch : BitVec 3) : opcodeField (opWord o ch) = o :=
  BitVec.extractLsb'_append_eq_left

@[simp] theorem channelField_opWord (o : BitVec 5) (ch : BitVec 3) : channelField (opWord o ch) = ch :=
  BitVec.extractLsb'_append_eq_right

@[simp] theorem channelOp_code (c : Role) (op : Role → Instr) (r : Instr) : channelOp c.code op r = op c := by
  simp [channelOp]

@[simp] theorem channelOp_seven (op : Role → Instr) (r : Instr) : channelOp 7#3 op r = r := rfl

@[simp] theorem plainOp_zero (op : Instr) (r : BitVec 3 → Instr) : plainOp 0#3 op r = op := rfl

theorem plainOp_of_ne_zero {ch : BitVec 3} (h : ch ≠ 0) (op : Instr) (r : BitVec 3 → Instr) :
    plainOp ch op r = r ch := if_neg h

/-- Decoding an instruction's own word with its operand gives the instruction back. -/
theorem decodeWord_of_encode {i : Instr} {w : OpWord} {a : Nat} (hw : i.WF) (he : encode i = .op w a) :
    decodeWord w a = i := by
  cases i
  case bdmFrame | marker | frame | outViewInView | commit => cases he
  case reservedRsyncCh c | reservedCfgchkCh c | reservedCanchkCh c | reservedStepCh c | reservedBootCh c |
      reservedCrdyCh c | reservedPstartCh c | reservedInertCh c | reservedCycleCh c | reservedPbitCh c |
      reservedPeriodCh c | reservedLenselCh c | reservedDbitCh c | reservedEmitCh c =>
    cases he
    have hc : c ≠ 0 := bne_iff_ne.1 hw
    simp [decodeWord, plainOp_of_ne_zero hc]
  all_goals
    cases he
    simp [decodeWord]

end Sys2Proof

namespace Sys2Proof.Machine

/-- With nothing in flight the block's move is the first attempt at the port's first word (R100). -/
theorem blockMove_port {s : State} {p : PortOp} {ps : List PortOp} (hf : s.inFlight = none) (hp : s.port = p :: ps) :
    blockMove s = attempt (decodeWord p.word p.operand) { s with port := ps } := by
  simp only [blockMove, hf, hp]

/-- Settles O53: the block's turn is its move, the move an attempt at the port's word, and that word the instruction's
own. -/
theorem stepRunsThePortInstruction : Obligations.StepRunsThePortInstruction := by
  intro s i w a ps ts hw he hf hp hts
  obtain ⟨t, ht, ha⟩ := attempt_eq i { s with port := ps, turns := ts }
  refine ⟨t, ht, ?_⟩
  rw [step_block hts (blockIdle_of_port hp), blockMove_port (s := { s with turns := ts }) hf hp,
    decodeWord_of_encode hw he, ha]
  exact congrArg Host.Outcome.next (keepIfHeld_eq i t)

end Sys2Proof.Machine

/-! ## What an operation that completes can do (R14, R33, R42) -/

namespace Sys2Proof.Machine

theorem forward_setAsm (s : State) (a : Assembler) : Forward s (s.setAsm a) := .write (keeps_setAsm s a) _ _ _ _ rfl

theorem forward_pend (s : State) (e : Event) : Forward s (s.pend e) := .write (keeps_pend s e) _ _ _ _ rfl

theorem forward_emit (s : State) (e : Event) : Forward s (s.emit e) := .write (keeps_emit s e) _ _ _ _ rfl

theorem forward_commitBatch (s : State) : Forward s s.commitBatch := .write (keeps_commitBatch s) _ _ _ _ rfl

theorem forward_putMarker (c : Role) (p : Nat) (k : MarkerKind) (s : State) : Forward s (putMarker c p k s) := by
  cases k
  · exact forward_pend s _
  · exact forward_emit s _

theorem forward_putViews (m c : Bit) (i : Bytes4) (s1 s2 : Bit) (d : Bytes4) (s : State) :
    Forward s (putViews m c i s1 s2 d s) :=
  (forward_pend s _).trans (forward_pend _ _)

/-- A BOOT that completes moves cursors forward and sets LINK (R157). -/
theorem forward_of_bootAction {s t : State} (h : bootAction s = .done () t) :
    ∃ u, Forward s u ∧ t = u.setLink .coreReady := by
  obtain ⟨q, -, hp, ha, rfl⟩ := bootAction_eq_done h
  exact ⟨_, forward_placeAll s q hp ha, rfl⟩

/-- A CRDY that completes puts out its marker, moves cursors forward and sets LINK (R158). -/
theorem forward_of_alignAction {s t : State} (h : alignAction s = .done () t) :
    ∃ u, Forward s u ∧ t = u.setLink .packetStart := by
  obtain ⟨q, -, hp, ha, -, rfl⟩ := alignAction_eq_done h
  exact ⟨_, (forward_putMarker _ q .captureStart s).trans (forward_placeAll _ q hp ha), rfl⟩

/-- A PSTART that completes runs a capture cycle or nothing, and sets LINK (R159). -/
theorem forward_of_packetAction {s t : State} (h : packetAction s = .done () t) :
    ∃ u, Forward s u ∧ t = u.setLink .coreReady := by
  obtain ⟨u, rfl, ⟨-, rfl⟩ | ⟨-, hu⟩⟩ := packetAction_eq_done h
  · exact ⟨u, Forward.refl u, rfl⟩
  · exact ⟨u, forward_captureCycle s () u hu, rfl⟩

/-- A STEP that completes: the session cancelled, nothing done, or its Link State's action (R155). -/
theorem loopIteration_eq_done {s t : State} (h : loopIteration s = .done () t) :
    (s.cancelReq = true ∧ t = cancelEntry s) ∨ t = s ∨ linkAction s = .done () t := by
  unfold loopIteration cancelCheck at h
  by_cases hc : s.cancelReq = true
  · simp only [hc, if_true, cancelEntry_status, Result.done.injEq, true_and] at h
    exact .inl ⟨hc, h.symm⟩
  · simp only [hc, Bool.false_eq_true, if_false] at h
    split at h
    · cases h
      exact .inr (.inl rfl)
    · exact .inr (.inr h)

/-- `t` is what instruction `i` can complete to from `s`: a session started, cursors moved forward with LINK kept or
written by an action of its own (R161), or the session cancelled. -/
inductive CompletesTo (i : Instr) (s : State) : State → Prop where
  | start (hi : i = .cfgchk) (hc : configInvalid s.cfg = false) (ha : ∀ c, s.params.startPos < s.avail c) :
      CompletesTo i s (startSession s)
  | forward {u : State} (hu : Forward s u) : CompletesTo i s u
  | toCoreReady {u : State} (hi : i = .boot ∨ i = .pstart ∨ i = .step) (hu : Forward s u) :
      CompletesTo i s (u.setLink .coreReady)
  | toPacketStart {u : State} (hi : i = .crdy ∨ i = .step) (hu : Forward s u) :
      CompletesTo i s (u.setLink .packetStart)
  | cancel (hi : i = .canchk ∨ i = .step) (hr : s.cancelReq = true) : CompletesTo i s (cancelEntry s)

theorem completesTo_cancelCheck (s : State) : CompletesTo .canchk s (cancelCheck s) := by
  unfold cancelCheck
  split
  · next hr => exact .cancel (.inl rfl) hr
  · exact .forward (Forward.refl s)

theorem completesTo_of_linkAction {s t : State} (h : linkAction s = .done () t) : CompletesTo .step s t := by
  rcases linkAction_eq_done h with ⟨-, h⟩ | ⟨-, h⟩ | ⟨-, h⟩ | rfl
  · obtain ⟨u, hu, rfl⟩ := forward_of_bootAction h
    exact .toCoreReady (by simp) hu
  · obtain ⟨u, hu, rfl⟩ := forward_of_alignAction h
    exact .toPacketStart (by simp) hu
  · obtain ⟨u, hu, rfl⟩ := forward_of_packetAction h
    exact .toCoreReady (by simp) hu
  · exact .forward (Forward.refl t)

theorem completesTo_of_loopIteration {s t : State} (h : loopIteration s = .done () t) : CompletesTo .step s t := by
  rcases loopIteration_eq_done h with ⟨hr, rfl⟩ | rfl | h
  · exact .cancel (.inr rfl) hr
  · exact .forward (Forward.refl t)
  · exact completesTo_of_linkAction h

/-- Everything an instruction that completes can do, whichever it is. -/
theorem contract_completesTo {i : Instr} {s t : State} {v : Option Value} (h : contract i s = .done v t) :
    CompletesTo i s t := by
  cases i
  case lvl c => exact .forward ((forward_readLevel c).returnsBit s v t h)
  case adv c n => exact .forward ((forward_advance c n).silent s v t h)
  case adve c => exact .forward ((forward_advanceToEdge c).silent s v t h)
  case adva c q => exact .forward ((forward_advanceTo c q).silent s v t h)
  case wtw c n => exact .forward ((forward_wouldTransition c n).returnsBit s v t h)
  case pos c => exact .forward ((forward_readPosition c).returnsNat s v t h)
  case rsync q => exact .forward ((forward_resync q).silent s v t h)
  case rdbit c => exact .forward ((forward_readBit c).returnsBit s v t h)
  case cfgchk =>
    obtain ⟨hc, ha, rfl⟩ := checkConfig_eq_done (silent_eq_done.1 h).2
    exact .start rfl hc ha
  case canchk =>
    cases h
    exact completesTo_cancelCheck s
  case step => exact completesTo_of_loopIteration (silent_eq_done.1 h).2
  case boot =>
    obtain ⟨u, hu, rfl⟩ := forward_of_bootAction (silent_eq_done.1 h).2
    exact .toCoreReady (by simp) hu
  case crdy =>
    obtain ⟨u, hu, rfl⟩ := forward_of_alignAction (silent_eq_done.1 h).2
    exact .toPacketStart (by simp) hu
  case pstart =>
    obtain ⟨u, hu, rfl⟩ := forward_of_packetAction (silent_eq_done.1 h).2
    exact .toCoreReady (by simp) hu
  case inert => exact .forward ((ForwardDone.pure () Forward.refl).silent s v t h)
  case cycle => exact .forward (forward_captureCycle.silent s v t h)
  case pbit => exact .forward (forward_preambleBit.silent s v t h)
  case period => exact .forward (forward_bitPeriod.silent s v t h)
  case lensel => exact .forward ((ForwardDone.pure () fun s => forward_setAsm s _).silent s v t h)
  case dbit => exact .forward (forward_payloadBit.silent s v t h)
  case emit => exact .forward ((ForwardDone.pure () forward_emitBatch).silent s v t h)
  case bdmFrame mc st ow iw => exact .forward ((forward_receiveFrame mc st ow iw).silent s v t h)
  case marker c p k => exact .forward ((ForwardDone.pure () (forward_putMarker c p k)).silent s v t h)
  case frame k a b x f => exact .forward ((ForwardDone.pure () fun s => forward_pend s _).silent s v t h)
  case outViewInView m c j s1 s2 d =>
    exact .forward ((ForwardDone.pure () (forward_putViews m c j s1 s2 d)).silent s v t h)
  case commit => exact .forward ((ForwardDone.pure () forward_commitBatch).silent s v t h)
  all_goals cases h

/-! ### The outcomes of an instruction -/

theorem enabledIn_eq (i : Instr) : enabledIn i = if i = .cfgchk then .init else .running := by
  unfold enabledIn
  split
  · rfl
  · next hi => rw [if_neg hi]

theorem enabledIn_eq_init_or_running (i : Instr) : enabledIn i = .init ∨ enabledIn i = .running := by
  rw [enabledIn_eq]
  split
  · exact .inl rfl
  · exact .inr rfl

/-- Every instruction but CFGCHK and the reserved words is made of cursor operations. -/
theorem contract_cursorOp {i : Instr} (hc : i ≠ .cfgchk) (hr : isReserved i = false) : CursorOp (contract i) := by
  cases i
  case lvl c => exact (cursorOp_readLevel c).returnsBit
  case adv c n => exact (cursorOp_advance c n).silent
  case adve c => exact (cursorOp_advanceToEdge c).silent
  case adva c q => exact (cursorOp_advanceTo c q).silent
  case wtw c n => exact (cursorOp_wouldTransition c n).returnsBit
  case pos c => exact (cursorOp_readPosition c).returnsNat
  case rsync q => exact (cursorOp_resync q).silent
  case rdbit c => exact (cursorOp_readBit c).returnsBit
  case cfgchk => exact absurd rfl hc
  case canchk => exact (CursorOp.pure () keeps_cancelCheck).silent
  case step => exact cursorOp_loopIteration.silent
  case boot => exact cursorOp_bootAction.silent
  case crdy => exact cursorOp_alignAction.silent
  case pstart => exact cursorOp_packetAction.silent
  case inert => exact cursorOp_inertAction.silent
  case cycle => exact cursorOp_captureCycle.silent
  case pbit => exact cursorOp_preambleBit.silent
  case period => exact cursorOp_bitPeriod.silent
  case lensel => exact (CursorOp.pure () fun s => keeps_setAsm s _).silent
  case dbit => exact cursorOp_payloadBit.silent
  case emit => exact (CursorOp.pure () keeps_emitBatch).silent
  case bdmFrame mc st ow iw => exact (cursorOp_receiveFrame mc st ow iw).silent
  case marker c p k => exact (CursorOp.pure () (keeps_putMarker c p k)).silent
  case frame k a b v f => exact (CursorOp.pure () fun s => keeps_pend s _).silent
  case outViewInView m c j s1 s2 d => exact (CursorOp.pure () (keeps_putViews m c j s1 s2 d)).silent
  case commit => exact (CursorOp.pure () keeps_commitBatch).silent
  all_goals cases hr

theorem contract_of_isReserved {i : Instr} (h : isReserved i = true) : contract i = illegalOperation := by
  cases i <;> cases h <;> rfl

theorem checkConfig_eq_raised {s : State} {code : FaultCode} (h : checkConfig s = .raised code) :
    code = .configurationError := by
  unfold checkConfig at h
  split at h
  · exact (Result.raised.inj h).symm
  · rcases needAll_cases s.params.startPos s with ⟨-, hn⟩ | ⟨_, -, _, hn, -⟩ <;> rw [hn] at h <;> cases h

/-- A fault has a code (R43, R210). -/
theorem contract_raised_ne_none {i : Instr} {s : State} {code : FaultCode} (h : contract i s = .raised code) :
    code ≠ .none := by
  by_cases hc : i = .cfgchk
  · subst hc
    rw [checkConfig_eq_raised (silent_eq_raised.1 h)]
    decide
  · cases hr : isReserved i with
    | true =>
      rw [contract_of_isReserved hr] at h
      cases h
      decide
    | false =>
      rw [(contract_cursorOp hc hr).raises s code h]
      decide

/-- An instruction's outcomes (R17): only its issuer is answered, it completes, or it faults. -/
theorem exec_outcomes {i : Instr} {s t : State} (h : exec i s = .next t) :
    (∃ r, t = s.answer r) ∨
      (s.status = enabledIn i ∧
        ((∃ u v, CompletesTo i s u ∧ t = u.answer (.completed v)) ∨
          ∃ code, code ≠ .none ∧ t = (faultEntry code s).answer .faulted)) := by
  rcases exec_cases h with ⟨-, ht⟩ | ⟨he, ⟨v, u, hu, ht⟩ | ⟨b, -, ht⟩ | ⟨code, hc, ht⟩⟩
  · exact .inl ⟨_, ht⟩
  · exact .inr ⟨he, .inl ⟨u, v, contract_completesTo hu, ht⟩⟩
  · exact .inl ⟨_, ht⟩
  · exact .inr ⟨he, .inr ⟨code, contract_raised_ne_none hc, ht⟩⟩

/-- A hold answers its issuer and changes nothing else (R63). -/
theorem exec_of_held {i : Instr} {s t : State} {b : Bool} (h : exec i s = .next t) (hr : t.resp = .held b) :
    s.status = enabledIn i ∧ t = s.answer (.held b) := by
  rcases exec_cases h with ⟨-, rfl⟩ | ⟨he, ⟨v, u, -, rfl⟩ | ⟨b', -, rfl⟩ | ⟨code, -, rfl⟩⟩
  · cases hr
  · cases hr
  · cases hr
    exact ⟨he, rfl⟩
  · cases hr

/-! ### The block's move -/

/-- Everything the block's move can come to: an attempt at an instruction, with its bookkeeping and perhaps the cancel
that is due, or the held cancel. -/
theorem blockMove_cases {s t : State} (h : blockMove s = .next t) :
    (∃ i j ps d u, exec j { s with port := ps, draws := d } = .next u ∧
      (t = keepIfHeld i u ∨ t = cancelIfStuck (keepIfHeld i u))) ∨
      (s.inFlight ≠ none ∧ t = heldCancel (s.draw 1)) := by
  unfold blockMove at h
  split at h
  · next i hf =>
    unfold resumeHeld at h
    split at h
    · split at h
      · cases h
        exact .inr ⟨by simp [hf], rfl⟩
      · obtain ⟨u, hu, rfl⟩ := mapNext_eq_next h
        rw [execHeld_eq] at hu
        exact .inl ⟨i, _, s.port, _, u, hu, .inr rfl⟩
    · obtain ⟨u, hu, rfl⟩ := mapNext_eq_next h
      rw [execHeld_eq] at hu
      exact .inl ⟨i, _, s.port, s.draws, u, hu, .inl rfl⟩
  · split at h
    · next p ps hp =>
      obtain ⟨u, hu, rfl⟩ := mapNext_eq_next h
      exact .inl ⟨_, _, ps, s.draws, u, hu, .inl rfl⟩
    · next hp =>
      split at h
      · next i hi =>
        obtain ⟨u, hu, rfl⟩ := mapNext_eq_next h
        exact .inl ⟨i, i, s.port, s.draws, u, hu, .inl rfl⟩
      · cases h

end Sys2Proof.Machine

/-! ## The session invariant (R22, R42, R43, R45, R163) -/

namespace Sys2Proof.Machine

/-! ### The bookkeeping -/

/-- The invariant does not speak of the model's bookkeeping nor of CANCEL_REQ, but for the operation in flight. -/
theorem SessionInv.bookkeeping {s : State} (h : SessionInv s) (ts : List Turn) (ps : List PortOp) (r : Response)
    (o : Option RegValue) (d : Nat) (b : Bit) :
    SessionInv { s with turns := ts, port := ps, resp := r, hostOut := o, draws := d, cancelReq := b } :=
  ⟨h.streams, h.code, h.ended, h.cursors, h.link, h.held⟩

theorem SessionInv.withInFlight {s : State} (h : SessionInv { s with inFlight := none }) {f : Option Instr}
    (hf : f ≠ none → s.status = .init ∨ s.status = .running) : SessionInv { s with inFlight := f } :=
  ⟨h.streams, h.code, h.ended, h.cursors, h.link, hf⟩

theorem SessionInv.noneInFlight {s : State} (h : SessionInv s) : SessionInv { s with inFlight := none } :=
  ⟨h.streams, h.code, h.ended, h.cursors, h.link, fun hn => absurd rfl hn⟩

theorem SessionInv.faultCode_eq_none {s : State} (h : SessionInv s) (hs : s.status ≠ .faulted) :
    s.faultCode = .none := by
  by_contra hc
  exact hs (h.code.2 hc)

/-! ### An operation -/

/-- Cursors moved forward, with LINK kept or written to a Link State that is no placeholder. -/
theorem SessionInv.of_forward {s u : State} (h : SessionInv s) (hs : s.status = .init ∨ s.status = .running)
    (hu : Forward s u) {l : LinkState} (hl : l = u.link ∨ LinkReachable l) :
    SessionInv { u.setLink l with inFlight := none } where
  streams := hu.keeps.streams ▸ h.streams
  code := by simpa [hu.status, hu.keeps.faultCode] using h.code
  ended := fun he => by
    have he' : s.status = .cancelled ∨ s.status = .faulted := hu.status ▸ he
    rcases hs with hs | hs <;> simp [hs] at he'
  cursors := fun hr c => by
    have hc := hu.cursor c (h.cursors (hu.status ▸ hr) c)
    rwa [← hu.keeps.avail, ← hu.keeps.sample] at hc
  link := fun hf => by
    rcases hl with rfl | hl
    · exact hu.link ▸ h.link (hu.status ▸ hf)
    · exact hl
  held := fun hn => absurd rfl hn

theorem SessionInv.of_startSession {s : State} (h : SessionInv s) (hs : s.status = .init)
    (ha : ∀ c, s.params.startPos < s.avail c) : SessionInv { startSession s with inFlight := none } where
  streams := h.streams
  code := by simpa [startSession] using h.faultCode_eq_none (by simp [hs])
  ended := fun he => by simp [startSession] at he
  cursors := fun _ c => by
    have hp : (startSession s).pos c = s.params.startPos := State.placeAll_pos s c _
    have hl : (startSession s).lvl c = s.sample c s.params.startPos := State.placeAll_lvl s c _
    exact ⟨hp ▸ ha c, hl.trans (by rw [← hp]; rfl)⟩
  link := fun _ => .inl rfl
  held := fun hn => absurd rfl hn

theorem SessionInv.of_cancelEntry {s : State} (h : SessionInv s) (hs : s.status ≠ .faulted) :
    SessionInv { cancelEntry s with inFlight := none } where
  streams := h.streams
  code := by simpa using h.faultCode_eq_none hs
  ended := fun _ => rfl
  cursors := fun hr => by cases hr
  link := fun _ => h.link hs
  held := fun hn => absurd rfl hn

theorem SessionInv.of_faultEntry {s : State} (h : SessionInv s) {code : FaultCode} (hc : code ≠ .none) :
    SessionInv { faultEntry code s with inFlight := none } where
  streams := h.streams
  code := by simpa using hc
  ended := fun _ => rfl
  cursors := fun hr => by cases hr
  link := fun hf => absurd rfl hf
  held := fun hn => absurd rfl hn

theorem SessionInv.of_completesTo {i : Instr} {s u : State} (h : SessionInv s) (he : s.status = enabledIn i)
    (hc : CompletesTo i s u) : SessionInv { u with inFlight := none } := by
  have hs : s.status = .init ∨ s.status = .running := he ▸ enabledIn_eq_init_or_running i
  cases hc with
  | start hi _ ha => exact h.of_startSession (by rw [he, hi]; rfl) ha
  | forward hu => exact h.of_forward hs hu (.inl rfl)
  | toCoreReady _ hu => exact h.of_forward hs hu (.inr (.inr (.inl rfl)))
  | toPacketStart _ hu => exact h.of_forward hs hu (.inr (.inr (.inr rfl)))
  | cancel _ _ => exact h.of_cancelEntry (by rcases hs with hs | hs <;> simp [hs])

/-- Every outcome of an instruction keeps the invariant, but for what is in flight, which the retry's bookkeeping
sets. -/
theorem SessionInv.of_exec {i : Instr} {s t : State} (h : SessionInv s) (ht : exec i s = .next t) :
    SessionInv { t with inFlight := none } := by
  rcases exec_outcomes ht with ⟨r, rfl⟩ | ⟨he, ⟨u, v, hc, rfl⟩ | ⟨code, hc, rfl⟩⟩
  · exact h.noneInFlight.bookkeeping _ _ r _ _ _
  · exact (h.of_completesTo he hc).bookkeeping _ _ (.completed v) _ _ _
  · exact (h.of_faultEntry hc).bookkeeping _ _ .faulted _ _ _

/-! ### The block's move -/

theorem SessionInv.of_keepIfHeld {i j : Instr} {s t : State} (h : SessionInv s) (ht : exec j s = .next t) :
    SessionInv (keepIfHeld i t) := by
  rw [keepIfHeld_eq]
  refine (h.of_exec ht).withInFlight fun hf => ?_
  cases hr : t.resp with
  | held b =>
    obtain ⟨he, rfl⟩ := exec_of_held ht hr
    exact (enabledIn_eq_init_or_running j).imp he.trans he.trans
  | _ => simp [hr] at hf

theorem SessionInv.of_heldCancel {s : State} (h : SessionInv s) (hf : s.inFlight ≠ none) :
    SessionInv (heldCancel s) :=
  (h.of_cancelEntry (by rcases h.held hf with hs | hs <;> simp [hs])).bookkeeping _ _ .abandoned _ _ _

theorem keepIfHeld_inFlight_of_held {i : Instr} {t : State} {b : Bool} (h : (keepIfHeld i t).resp = .held b) :
    (keepIfHeld i t).inFlight ≠ none := by
  rw [keepIfHeld_eq] at *
  simp [show t.resp = .held b from h]

theorem SessionInv.of_cancelIfStuck {i : Instr} {t : State} (h : SessionInv (keepIfHeld i t)) :
    SessionInv (cancelIfStuck (keepIfHeld i t)) := by
  unfold cancelIfStuck
  split
  · next hr => exact h.of_heldCancel (keepIfHeld_inFlight_of_held hr)
  · exact h

theorem SessionInv.of_blockMove {s t : State} (h : SessionInv s) (ht : blockMove s = .next t) : SessionInv t := by
  rcases blockMove_cases ht with ⟨i, j, ps, d, u, hu, rfl | rfl⟩ | ⟨hf, rfl⟩
  · exact (h.bookkeeping s.turns ps s.resp s.hostOut d s.cancelReq).of_keepIfHeld hu
  · exact ((h.bookkeeping s.turns ps s.resp s.hostOut d s.cancelReq).of_keepIfHeld hu).of_cancelIfStuck
  · exact (h.bookkeeping s.turns s.port s.resp s.hostOut _ s.cancelReq).of_heldCancel hf

/-! ### The host's turns -/

theorem SessionInv.of_writeConfig {s : State} (h : SessionInv s) (f : ConfigRegs → ConfigRegs) :
    SessionInv (writeConfig f s) := by
  unfold writeConfig
  split
  · next hs =>
    exact ⟨h.streams, h.code, h.ended, fun hr => absurd (hs.symm.trans hr) (by decide), h.link, h.held⟩
  · exact h

/-- The sample spaces changed, with no sample that was produced changed or taken back. -/
theorem SessionInv.withStreams {s : State} (h : SessionInv s) {m : Memory} (hm : Memory.wf m)
    (ha : ∀ k, (Memory.get s.streams k).avail ≤ (Memory.get m k).avail)
    (hl : ∀ k i, i < (Memory.get s.streams k).avail → Memory.sample m k i = Memory.sample s.streams k i) :
    SessionInv { s with streams := m } where
  streams := hm
  code := h.code
  ended := h.ended
  cursors := fun hr c => by
    obtain ⟨hp, hv⟩ := h.cursors hr c
    exact ⟨Nat.lt_of_lt_of_le hp (ha _), hv.trans (hl _ _ hp).symm⟩
  link := h.link
  held := h.held

theorem freshSession_sessionInv {s : State} (hm : Memory.wf s.streams) : SessionInv (freshSession s) where
  streams := hm
  code := by simp [freshSession, State.reset]
  ended := fun _ => rfl
  cursors := fun hr => by cases hr
  link := fun _ => .inl rfl
  held := fun hn => absurd rfl hn

theorem SessionInv.of_hostTurn {s : State} (h : SessionInv s) (u : Turn) : SessionInv (hostTurn u s) := by
  cases u with
  | setSampleRate n => exact h.of_writeConfig fun r => { r with sampleRate := n }
  | setBitRate n => exact h.of_writeConfig fun r => { r with bitRate := n }
  | setTolOverride n => exact h.of_writeConfig fun r => { r with tolOverride := n }
  | setBinding b => exact h.of_writeConfig fun r => { r with binding := b }
  | produce k l n =>
    exact h.withStreams (Memory.produce_wf _ k l n h.streams) (fun j => Memory.avail_le_produce _ k j l n)
      fun j i hi => Memory.sample_produce _ k j l n i hi
  | endStream k =>
    exact h.withStreams (Memory.endStream_wf _ k h.streams)
      (fun j => Nat.le_of_eq (Memory.get_endStream s.streams k j).1.symm)
      fun j i _ => Memory.sample_endStream s.streams k j i
  | requestCancel => exact h.bookkeeping _ _ _ _ _ true
  | read r => exact h.bookkeeping _ _ _ (some (hostRead r s)) _ _
  | newSession => exact freshSession_sessionInv h.streams
  | issue w a => exact h.bookkeeping _ (s.port ++ [⟨w, a⟩]) _ _ _ _
  | run => exact h

/-- Settles O46: the block's move and each of the outside's turns keep it. -/
theorem everyStepKeepsTheSessionInvariant : Obligations.EveryStepKeepsTheSessionInvariant := by
  intro s t h ht
  have htail : ∀ ts, SessionInv { s with turns := ts } := fun ts => h.bookkeeping ts _ _ _ _ _
  rcases step_cases s with ⟨ts, -, hs⟩ | ⟨ts, -, -, hs⟩ | ⟨u, ts, -, -, hs⟩
  · exact (htail ts).of_blockMove (hs.symm.trans ht)
  · cases hs.symm.trans ht
    exact htail ts
  · cases hs.symm.trans ht
    exact (htail ts).of_hostTurn u

/-- Settles O2: nothing is produced, pending or logged at reset, and a fresh session meets the rest. -/
theorem resetMeetsTheInvariants : Obligations.ResetMeetsTheInvariants :=
  ⟨freshSession_sessionInv (s := State.reset) Memory.empty_wf, rfl, fun _ he => absurd he List.not_mem_nil⟩

/-- Settles O1: the reset state is written out, and each value is read off it. -/
theorem resetIsAFreshSession : Obligations.ResetIsAFreshSession := by
  unfold Obligations.ResetIsAFreshSession
  decide

end Sys2Proof.Machine

/-! ## What an operation may write (R23, R33, R38, R42, R44, R47) -/

namespace Sys2Proof.Machine

/-- Settles O21: of what an operation can complete to, only three write LINK, each its own Link State. -/
theorem linkIsWrittenOnlyByItsActions : Obligations.LinkIsWrittenOnlyByItsActions := by
  intro i s t h hr hl
  rcases exec_outcomes h with ⟨r, rfl⟩ | ⟨-, ⟨u, v, hc, rfl⟩ | ⟨code, -, rfl⟩⟩
  · exact absurd rfl hl
  · cases hc with
    | start hi _ _ => exact .inl ⟨hi, rfl⟩
    | forward hu => exact absurd hu.link hl
    | toCoreReady hi _ => exact .inr (.inl ⟨hi, rfl⟩)
    | toPacketStart hi _ => exact .inr (.inr ⟨hi, rfl⟩)
    | cancel _ _ => exact absurd rfl hl
  · exact absurd rfl hr

/-- What completes outside Init neither writes `T` nor moves a cursor back, since only CFGCHK starts a session (R23,
R38). -/
theorem CompletesTo.tol_and_pos {i : Instr} {s u : State} (h : CompletesTo i s u) (he : s.status = enabledIn i)
    (hs : s.status ≠ .init) : u.tol = s.tol ∧ ∀ c, s.pos c ≤ u.pos c := by
  cases h with
  | start hi _ _ => exact absurd (by rw [he, hi]; rfl) hs
  | forward hu => exact ⟨hu.tol, hu.pos⟩
  | toCoreReady _ hu => exact ⟨hu.tol, hu.pos⟩
  | toPacketStart _ hu => exact ⟨hu.tol, hu.pos⟩
  | cancel _ _ => exact ⟨rfl, fun _ => Nat.le_refl _⟩

theorem exec_tol_and_pos {i : Instr} {s t : State} (h : exec i s = .next t) (hr : t.resp ≠ .faulted)
    (hs : s.status ≠ .init) : t.tol = s.tol ∧ ∀ c, s.pos c ≤ t.pos c := by
  rcases exec_outcomes h with ⟨r, rfl⟩ | ⟨he, ⟨u, v, hc, rfl⟩ | ⟨code, -, rfl⟩⟩
  · exact ⟨rfl, fun _ => Nat.le_refl _⟩
  · exact hc.tol_and_pos he hs
  · exact absurd rfl hr

/-- Settles O42: only a session's start writes `T`, and it happens in Init. -/
theorem toleranceIsFixed : Obligations.ToleranceIsFixed := fun _ _ _ h hr hs => (exec_tol_and_pos h hr hs).1

/-- Settles O44: what completes in Running is forward moves, and the other outcomes move nothing. -/
theorem cursorsNeverMoveBack : Obligations.CursorsNeverMoveBack := fun _ _ _ h hr hs =>
  (exec_tol_and_pos h hr (by simp [hs])).2

/-- What completes leaves the status, or starts the session, or cancels it. -/
theorem CompletesTo.status {i : Instr} {s u : State} (h : CompletesTo i s u) :
    u.status = s.status ∨ u.status = .running ∨ u.status = .cancelled := by
  cases h with
  | start _ _ _ => exact .inr (.inl rfl)
  | forward hu => exact .inl hu.status
  | toCoreReady _ hu => exact .inl hu.status
  | toPacketStart _ hu => exact .inl hu.status
  | cancel _ _ => exact .inr (.inr rfl)

/-- Settles O36: an instruction is issued in the one status that enables it, and in any other it is refused. -/
theorem notEnabledIsRefused : Obligations.NotEnabledIsRefused := by
  intro i s hs
  rw [← enabledIn_eq] at hs
  exact (exec_eq_issueIn i s).trans (issueIn_refused hs)

/-- In a session that has ended every operation is refused (R222, R224). -/
theorem exec_of_ended {i : Instr} {s t : State} (h : exec i s = .next t)
    (hs : s.status = .cancelled ∨ s.status = .faulted) : t = s.answer .refused := by
  have he : s.status ≠ enabledIn i := by
    rcases hs with hs | hs <;> rcases enabledIn_eq_init_or_running i with hi | hi <;> simp [hs, hi]
  rw [exec_eq_issueIn, issueIn_refused he] at h
  exact (Host.Outcome.next.inj h).symm

/-- Settles O40: an ended session refuses everything, and no outcome of an operation is Init. -/
theorem statusNeverGoesBack : Obligations.StatusNeverGoesBack := by
  intro i s t h
  refine ⟨fun hs => ?_, fun hs => ?_, fun ht => ?_⟩
  · rw [exec_of_ended h (.inl hs)]
    exact hs
  · rw [exec_of_ended h (.inr hs)]
    exact hs
  · rcases exec_outcomes h with ⟨r, rfl⟩ | ⟨-, ⟨u, v, hc, rfl⟩ | ⟨code, -, rfl⟩⟩
    · exact ht
    · replace ht : u.status = .init := ht
      rcases hc.status with hu | hu | hu
      · exact hu.symm.trans ht
      · simp [hu] at ht
      · simp [hu] at ht
    · cases ht

/-- Settles O43: what completes keeps the log as a prefix, and the other outcomes keep it whole. -/
theorem logOnlyGrows : Obligations.LogOnlyGrows := by
  intro i s t h
  rcases exec_cases h with ⟨-, rfl⟩ | ⟨-, ⟨v, u, hu, rfl⟩ | ⟨b, -, rfl⟩ | ⟨code, -, rfl⟩⟩
  · exact ⟨[], (List.append_nil _).symm⟩
  · obtain ⟨l, hl⟩ := (contract_keeps i s v u hu).log
    exact ⟨l, hl.symm⟩
  · exact ⟨[], (List.append_nil _).symm⟩
  · exact ⟨[], (List.append_nil _).symm⟩

/-! ### PENDING through a STEP (R44) -/

/-- A capture cycle ends with its batch committed (R177, R183). -/
theorem captureCycle_pending {s t : State} (h : captureCycle s = .done () t) : t.pending = [] := by
  obtain ⟨_, u, -, h⟩ := Result.andThen_eq_done.1 h
  obtain ⟨_, w, -, h⟩ := Result.andThen_eq_done.1 h
  cases h
  rw [endCycle, emitBatch_eq]

/-- BOOT and CRDY put nothing in the batch, and PSTART's cycle commits its own (R78, R158, R183). -/
theorem linkAction_pending {s t : State} (hp : s.pending = []) (h : linkAction s = .done () t) : t.pending = [] := by
  rcases linkAction_eq_done h with ⟨-, h⟩ | ⟨-, h⟩ | ⟨-, h⟩ | rfl
  · obtain ⟨q, -, -, -, rfl⟩ := bootAction_eq_done h
    exact hp
  · obtain ⟨q, -, -, -, -, rfl⟩ := alignAction_eq_done h
    exact hp
  · obtain ⟨u, rfl, ⟨-, rfl⟩ | ⟨-, hu⟩⟩ := packetAction_eq_done h
    · exact hp
    · exact (captureCycle_pending hu : u.pending = [])
  · exact hp

/-- Settles O34: a STEP's hold and refusal change nothing, its cancel and its fault empty PENDING, and its Link State's
action leaves it empty. -/
theorem stepLeavesNothingPending : Obligations.StepLeavesNothingPending := by
  intro s t hp h
  rcases exec_cases h with ⟨-, rfl⟩ | ⟨-, ⟨v, u, hu, rfl⟩ | ⟨b, -, rfl⟩ | ⟨code, -, rfl⟩⟩
  · exact hp
  · rcases loopIteration_eq_done (silent_eq_done.1 hu).2 with ⟨-, rfl⟩ | rfl | hu
    · rfl
    · exact hp
    · exact (linkAction_pending hp hu : u.pending = [])
  · exact hp
  · rfl

/-! ### The configuration and the cancel request (R37, R41, R246) -/

theorem keepIfHeld_cancelReq (i : Instr) (t : State) : (keepIfHeld i t).cancelReq = t.cancelReq := by
  rw [keepIfHeld_eq]

theorem cancelIfStuck_cancelReq (t : State) : (cancelIfStuck t).cancelReq = t.cancelReq := by
  unfold cancelIfStuck
  split <;> rfl

theorem blockMove_cancelReq {s t : State} (h : blockMove s = .next t) : t.cancelReq = s.cancelReq := by
  rcases blockMove_cases h with ⟨i, j, ps, d, u, hu, ht⟩ | ⟨-, rfl⟩
  · obtain ⟨-, -, -, hc⟩ := exec_environment hu
    rcases ht with rfl | rfl
    · exact (keepIfHeld_cancelReq i u).trans hc
    · exact (cancelIfStuck_cancelReq _).trans ((keepIfHeld_cancelReq i u).trans hc)
  · rfl

theorem writeConfig_cancelReq (f : ConfigRegs → ConfigRegs) (s : State) :
    (writeConfig f s).cancelReq = s.cancelReq := by
  unfold writeConfig
  split <;> rfl

/-- No turn of the outside but a new session takes a cancel request back (R41). -/
theorem hostTurn_cancelReq {u : Turn} {s : State} (hu : u ≠ .newSession) (hs : s.cancelReq = true) :
    (hostTurn u s).cancelReq = true := by
  cases u with
  | setSampleRate n => exact (writeConfig_cancelReq _ s).trans hs
  | setBitRate n => exact (writeConfig_cancelReq _ s).trans hs
  | setTolOverride n => exact (writeConfig_cancelReq _ s).trans hs
  | setBinding b => exact (writeConfig_cancelReq _ s).trans hs
  | requestCancel => rfl
  | newSession => exact absurd rfl hu
  | _ => exact hs

theorem step_cancelReq {s t : State} (hn : ∀ us, s.turns ≠ .newSession :: us) (hs : s.cancelReq = true)
    (h : step s = .next t) : t.cancelReq = true := by
  rcases step_cases s with ⟨ts, -, g⟩ | ⟨ts, -, -, g⟩ | ⟨u, ts, -, hu, g⟩
  · exact (blockMove_cancelReq (g.symm.trans h)).trans hs
  · cases g.symm.trans h
    exact hs
  · cases g.symm.trans h
    exact hostTurn_cancelReq (fun hu' => hn ts (hu' ▸ hu)) hs

/-- Settles O59: each write is `writeConfig`'s, and nothing else of a step clears the request. -/
theorem configurationIsLatched : Obligations.ConfigurationIsLatched := by
  intro s n ts
  have hwrite : ∀ u : Turn, u ≠ .run → s.turns = u :: ts → step s = .next (hostTurn u { s with turns := ts }) :=
    fun u => step_hostTurn
  exact ⟨hwrite (.setSampleRate n) (by simp), hwrite (.setBitRate n) (by simp),
    fun o => hwrite (.setTolOverride o) (by simp), fun b => hwrite (.setBinding b) (by simp),
    hwrite .requestCancel (by simp), fun hn hs t h => step_cancelReq hn hs h⟩

end Sys2Proof.Machine

/-! ## What the primitives answer (R119, R120, R146, R236) -/

namespace Sys2Proof.Machine

theorem advanceTo_done {c : Role} {q : Nat} {s : State} (hp : s.pos c ≤ q) (ha : q < s.avail c) :
    advanceTo c q s = .done () (s.place c q) := by
  rw [advanceTo, if_neg (Nat.not_lt.2 hp), need_done ha, Result.andThen_done]

theorem wouldTransition_done {c : Role} {n : Nat} {s : State} (h : 2 ≤ n → s.pos c + n - 1 < s.avail c) :
    wouldTransition c n s = .done (transitionWithin c n s) s := by
  rcases wouldTransition_cases c n s with ⟨-, g⟩ | ⟨hn, ha, -⟩
  · exact g
  · exact absurd (h hn) (Nat.not_lt.2 ha)

theorem readBitConfirm_done {c : Role} {s : State} (h : s.pos c + s.tol + 2 < s.avail c) :
    readBitConfirm c s = .done (classifyConfirm (s.lvl c) (transitionWithin c (s.tol + 2) s)
      (s.sample c (s.pos c + s.tol + 2))) s := by
  have hw := wouldTransition_done (c := c) (n := s.tol + 2) (s := s) fun _ => by omega
  simp only [readBitConfirm, hw, need_done h, Result.andThen_done]

/-- RDBIT's variant needs its far sample, and then answers with nothing changed (R146). -/
theorem readBitConfirm_cases (c : Role) (s : State) :
    (s.pos c + s.tol + 2 < s.avail c ∧ ∃ b, readBitConfirm c s = .done b s) ∨
      readBitConfirm c s = .held (s.ended c) := by
  by_cases h : s.pos c + s.tol + 2 < s.avail c
  · exact .inl ⟨h, _, readBitConfirm_done h⟩
  · refine .inr ?_
    rcases wouldTransition_cases c (s.tol + 2) s with ⟨-, hw⟩ | ⟨-, -, hw⟩
    · simp only [readBitConfirm, hw, need_held (Nat.not_lt.1 h), Result.andThen_done, Result.andThen_held]
    · simp only [readBitConfirm, hw, Result.andThen_held]

theorem checkConfig_raised {s : State} (hc : configInvalid s.cfg = true) :
    checkConfig s = .raised .configurationError := if_pos hc

theorem checkConfig_done {s : State} (hc : configInvalid s.cfg = false) (ha : ∀ c, s.params.startPos < s.avail c) :
    checkConfig s = .done () (startSession s) := by
  simp only [checkConfig, hc, needAll_done ha, Result.andThen_done, Bool.false_eq_true, if_false]

end Sys2Proof.Machine

/-! ## The sink invariant under each write (R78, R183, R187) -/

namespace Sys2Proof.Machine

/-- After a log that closes its batches, what follows starts outside a batch. -/
theorem batchesClose_append {b : Bool} {es : List Event} (h : batchesClose b es = true) (fs : List Event) :
    batchesClose b (es ++ fs) = batchesClose false fs := by
  induction es generalizing b with
  | nil =>
    cases b
    · rfl
    · cases h
  | cons e es ih =>
    cases e with
    | marker c p k =>
      cases k with
      | bitSample => exact ih (b := true) h
      | captureStart =>
        obtain ⟨hb, hes⟩ := Bool.and_eq_true_iff.1 h
        simp only [List.cons_append, batchesClose, hb, Bool.true_and]
        exact ih hes
    | commit => exact ih (b := false) h
    | frame | outView | inView => exact ih (b := true) h

/-- A batch's events are closed by their Commit. -/
theorem batchesClose_batch {es : List Event} (h : ∀ e ∈ es, inBatch e = true) (b : Bool) :
    batchesClose b (es ++ [.commit]) = true := by
  induction es generalizing b with
  | nil => rfl
  | cons e es ih =>
    obtain ⟨he, hes⟩ := List.forall_mem_cons.1 h
    cases e with
    | marker c p k =>
      cases k with
      | bitSample => exact ih hes true
      | captureStart => cases he
    | commit => cases he
    | frame | outView | inView => exact ih hes true

/-- The invariant speaks of LOG and PENDING alone. -/
theorem SinkInv.of_eq {s t : State} (h : SinkInv s) (hl : t.log = s.log) (hp : t.pending = s.pending) : SinkInv t :=
  ⟨hl ▸ h.log, hp ▸ h.pending⟩

/-- A batch given up: nothing pending, and LOG as it was. -/
theorem SinkInv.of_teardown {s t : State} (h : SinkInv s) (hl : t.log = s.log) (hp : t.pending = []) : SinkInv t :=
  ⟨hl ▸ h.log, by simp [hp]⟩

theorem SinkInv.pend {s : State} (h : SinkInv s) {e : Event} (he : inBatch e = true) : SinkInv (s.pend e) where
  log := h.log
  pending := fun x hx => by
    rcases List.mem_append.1 hx with hx | hx
    · exact h.pending x hx
    · rwa [List.mem_singleton.1 hx]

theorem SinkInv.captureStart {s : State} (h : SinkInv s) (c : Role) (p : Nat) :
    SinkInv (s.emit (.marker c p .captureStart)) where
  log := batchesClose_append h.log _
  pending := h.pending

theorem SinkInv.commitBatch {s : State} (h : SinkInv s) : SinkInv s.commitBatch where
  log := by
    rw [State.commitBatch_log, List.append_assoc, batchesClose_append h.log]
    exact batchesClose_batch h.pending false
  pending := fun _ he => absurd he List.not_mem_nil

theorem SinkInv.putMarker {s : State} (h : SinkInv s) (c : Role) (p : Nat) (k : MarkerKind) :
    SinkInv (putMarker c p k s) := by
  cases k with
  | bitSample => exact h.pend rfl
  | captureStart => exact h.captureStart c p

theorem inBatch_of_mem_batchRecords {a : Assembler} {d : Nat} {e : Event} (he : e ∈ batchRecords a d) :
    inBatch e = true := by
  simp only [batchRecords, List.mem_cons, List.not_mem_nil, or_false] at he
  rcases he with rfl | rfl | rfl | rfl | rfl | rfl <;> rfl

theorem SinkInv.emitBatch {s : State} (h : SinkInv s) : SinkInv (emitBatch s) := by
  rw [emitBatch_eq]
  refine ⟨?_, fun _ he => absurd he List.not_mem_nil⟩
  show batchesClose false (s.log ++ s.pending ++ batchRecords s.asm s.draws ++ [.commit]) = true
  rw [List.append_assoc s.log, List.append_assoc, batchesClose_append h.log]
  refine batchesClose_batch (fun e he => ?_) false
  rcases List.mem_append.1 he with he | he
  · exact h.pending e he
  · exact inBatch_of_mem_batchRecords he

end Sys2Proof.Machine

/-! ## How the operations are built (R14, R75, R221) -/

namespace Sys2Proof.Machine

/-- A change of registers and sink that keeps the sink invariant and reads no sample. -/
structure Writes (f : State → State) : Prop where
  sink : ∀ s, SinkInv s → SinkInv (f s)
  streams : ∀ s m, f { s with streams := m } = { f s with streams := m }

/-- An operation built in sequence from the cursor primitives, writes, and choices on what is no sample. Every contract is
built so (`contract_built`), and what every operation does is proved by induction on it. -/
inductive Built : {α : Type} → (State → Result α) → Prop
  | write {α : Type} (a : α) {f : State → State} (hf : Writes f) : Built fun s => .done a (f s)
  | raise {α : Type} (code : FaultCode) : Built fun _ => (.raised code : Result α)
  | andThen {α β : Type} {f : State → Result α} {g : α → State → Result β} (hf : Built f) (hg : ∀ a, Built (g a)) :
      Built fun s => (f s).andThen g
  | ite {α : Type} (p : State → Prop) [DecidablePred p] (hp : ∀ s m, p { s with streams := m } ↔ p s)
      {f g : State → Result α} (hf : Built f) (hg : Built g) : Built fun s => if p s then f s else g s
  | ofPart {α γ : Type} (part : State → γ) (hp : ∀ s m, part { s with streams := m } = part s)
      {op : γ → State → Result α} (h : ∀ x, Built (op x)) : Built fun s => op (part s) s
  | advance (c : Role) (n : Nat) : Built (advance c n)
  | advanceToEdge (c : Role) : Built (advanceToEdge c)
  | advanceTo (c : Role) (q : Nat) : Built (advanceTo c q)
  | resync (q : Nat) : Built (resync q)
  | wouldTransition (c : Role) (n : Nat) : Built (wouldTransition c n)
  | readBitConfirm (c : Role) : Built (readBitConfirm c)
  | checkConfig : Built checkConfig

theorem writes_id : Writes id := ⟨fun _ h => h, fun _ _ => rfl⟩

theorem writes_setAsm {a : State → Assembler} (ha : ∀ s m, a { s with streams := m } = a s) :
    Writes fun s => s.setAsm (a s) :=
  ⟨fun _ h => h.of_eq rfl rfl, fun s m => by simp only [State.setAsm, ha]⟩

theorem writes_setLink (l : LinkState) : Writes fun s => s.setLink l := ⟨fun _ h => h.of_eq rfl rfl, fun _ _ => rfl⟩

theorem writes_pend {e : Event} (he : inBatch e = true) : Writes fun s => s.pend e :=
  ⟨fun _ h => h.pend he, fun _ _ => rfl⟩

theorem writes_putMarker (c : Role) (p : Nat) (k : MarkerKind) : Writes (putMarker c p k) :=
  ⟨fun _ h => h.putMarker c p k, fun _ _ => by cases k <;> rfl⟩

theorem writes_commitBatch : Writes State.commitBatch := ⟨fun _ h => h.commitBatch, fun _ _ => rfl⟩

theorem writes_cancelCheck : Writes cancelCheck where
  sink := fun s h => by
    unfold cancelCheck
    split
    · exact h.of_teardown rfl rfl
    · exact h
  streams := fun s m => by
    unfold cancelCheck
    split <;> rfl

theorem writes_putBitMarkers : Writes putBitMarkers := ⟨fun _ h => (h.pend rfl).pend rfl, fun _ _ => rfl⟩

theorem writes_beginCycle : Writes beginCycle := ⟨fun _ h => h.of_teardown rfl rfl, fun _ _ => rfl⟩

theorem writes_beginPayload : Writes beginPayload := ⟨fun _ h => h.of_eq rfl rfl, fun _ _ => rfl⟩

theorem writes_emitBatch : Writes emitBatch := ⟨fun _ h => h.emitBatch, fun _ _ => rfl⟩

theorem writes_endCycle : Writes endCycle :=
  ⟨fun _ h => SinkInv.emitBatch (h.of_eq rfl rfl), fun _ _ => rfl⟩

theorem writes_pushPreamble (bo bi : Bit) : Writes (pushPreamble bo bi) := writes_setAsm fun _ _ => rfl

theorem writes_pushPayload (bo bi : Bit) : Writes (pushPayload bo bi) := writes_setAsm fun _ _ => rfl

namespace Built

variable {α : Type}

/-- An operation after a write. -/
theorem after {op : State → Result α} (h : Built op) {f : State → State} (hf : Writes f) : Built fun s => op (f s) :=
  andThen (write () hf) fun _ => h

/-- A value found from what is no sample, with nothing changed. -/
theorem value (part : State → α) (hp : ∀ s m, part { s with streams := m } = part s) :
    Built fun s => .done (part s) s :=
  ofPart part hp fun a => write a writes_id

theorem silent {op : State → Result Unit} (h : Built op) : Built (Machine.silent op) :=
  h.andThen fun _ => write none writes_id

theorem returnsBit {op : State → Result Bit} (h : Built op) : Built (Machine.returnsBit op) :=
  h.andThen fun b => write (some (Value.bit b)) writes_id

theorem returnsNat {op : State → Result Nat} (h : Built op) : Built (Machine.returnsNat op) :=
  h.andThen fun n => write (some (Value.nat n)) writes_id

end Built

theorem built_readLevel (c : Role) : Built (readLevel c) := .value (fun s => s.lvl c) fun _ _ => rfl

theorem built_readPosition (c : Role) : Built (readPosition c) := .value (fun s => s.pos c) fun _ _ => rfl

theorem built_readBitDefault (c : Role) : Built (readBitDefault c) :=
  .ofPart (fun s => (s.tol, s.lvl c)) (fun _ _ => rfl) (op := fun x s =>
    (wouldTransition c x.1 s).andThen fun w1 s1 => (wouldTransition c (x.1 + 2) s1).andThen fun w2 s2 =>
      .done (classifyDefault x.2 w1 w2) s2) fun _ =>
    (Built.wouldTransition _ _).andThen fun _ => (Built.wouldTransition _ _).andThen fun _ => .write _ writes_id

theorem built_readBit (c : Role) : Built (readBit c) :=
  .ite (fun s => s.params.glitchConfirm = true) (fun _ _ => Iff.rfl) (.readBitConfirm c) (built_readBitDefault c)

theorem built_bitPeriod : Built bitPeriod :=
  (Built.advanceToEdge _).andThen fun _ => (Built.advanceToEdge _).andThen fun _ =>
    (Built.ofPart (fun s => s.pos .clock) (fun _ _ => rfl) Built.resync).andThen fun _ =>
      (Built.ofPart State.tol (fun _ _ => rfl) (Built.advance .dataIn)).andThen fun _ =>
        .ofPart State.tol (fun _ _ => rfl) (Built.advance .dataOut)

theorem built_takeBits {push : Bit → Bit → State → State} (hp : ∀ bo bi, Writes (push bo bi)) (bo bi : Bit) :
    Built (takeBits push bo bi) :=
  (built_bitPeriod.after (hp bo bi)).after writes_putBitMarkers

theorem built_preambleBit : Built preambleBit :=
  (built_readBit _).andThen fun _ => (built_readBit _).andThen fun _ => built_takeBits writes_pushPreamble _ _

theorem built_payloadBit : Built payloadBit :=
  (built_readLevel _).andThen fun _ => (built_readLevel _).andThen fun _ => built_takeBits writes_pushPayload _ _

theorem built_repeatOp {op : State → Result Unit} (h : Built op) (n : Nat) : Built (repeatOp n op) := by
  induction n with
  | zero => exact .write () writes_id
  | succ n ih => exact h.andThen fun _ => ih

theorem built_takeAll {push : Bit → Bit → State → State} (hp : ∀ bo bi, Writes (push bo bi))
    (bits : List (Bit × Bit)) : Built (takeAll push bits) := by
  induction bits with
  | nil => exact .write () writes_id
  | cons b bits ih => exact (built_takeBits hp b.1 b.2).andThen fun _ => ih

theorem built_capture {preamble payload : State → Result Unit} (h1 : Built preamble) (h2 : Built payload) :
    Built (capture preamble payload) :=
  (h1.after writes_beginCycle).andThen fun _ => (h2.after writes_beginPayload).andThen fun _ =>
    .write () writes_endCycle

theorem built_captureCycle : Built captureCycle :=
  built_capture (built_repeatOp built_preambleBit 3)
    (.ofPart (fun s => s.asm.len.bits) (fun _ _ => rfl) (built_repeatOp built_payloadBit))

theorem built_receiveFrame (mc st : BitVec 3) (ow iw : BitVec 32) : Built (receiveFrame mc st ow iw) :=
  built_capture (built_takeAll writes_pushPreamble _)
    (.ofPart (fun s => (wireBits s.asm.len.bits ow).zip (wireBits s.asm.len.bits iw)) (fun _ _ => rfl)
      (built_takeAll writes_pushPayload))

theorem built_bootAction : Built bootAction :=
  (Built.advanceToEdge _).andThen fun _ =>
    (Built.ite (fun s => s.lvl .clock = true) (fun _ _ => Iff.rfl) (.advanceToEdge _) (.write () writes_id)).andThen
      fun _ => (Built.ofPart (fun s => s.pos .clock) (fun _ _ => rfl) Built.resync).andThen fun _ =>
        .write () (writes_setLink _)

theorem built_alignAction : Built alignAction :=
  .ofPart State.alignRole (fun _ _ => rfl) (op := fun a s => (advanceToEdge a s).andThen fun _ s1 =>
    (advance a s1.params.deadInterval s1).andThen fun _ s2 =>
      (if stillLow s2 a then advanceToEdge a s2 else .done () s2).andThen fun _ s3 =>
        (resync (s3.pos a) (putMarker a (s3.pos a) .captureStart s3)).andThen fun _ s4 =>
          .done () (s4.setLink .packetStart)) fun a =>
    (Built.advanceToEdge a).andThen fun _ =>
      (Built.ofPart (fun s => s.params.deadInterval) (fun _ _ => rfl) (Built.advance a)).andThen fun _ =>
        (Built.ite (fun s => stillLow s a = true) (fun _ _ => Iff.rfl) (.advanceToEdge a)
          (.write () writes_id)).andThen fun _ =>
          (Built.ofPart (fun s => s.pos a) (fun _ _ => rfl)
            (op := fun q s => Machine.resync q (putMarker a q .captureStart s)) fun q =>
              (Built.resync q).after (writes_putMarker a q .captureStart)).andThen fun _ =>
            .write () (writes_setLink _)

theorem built_packetAction : Built packetAction :=
  .ite (fun s => targetReady s = true) (fun _ _ => Iff.rfl)
    (built_captureCycle.andThen fun _ => .write () (writes_setLink _)) (.write () (writes_setLink _))

theorem built_linkAction : Built linkAction :=
  .ofPart State.link (fun _ _ => rfl) (op := fun l s =>
    match l with
    | .boot => bootAction s
    | .clockSelectHold => inertAction s
    | .coreBootHold => inertAction s
    | .debugModeSet => inertAction s
    | .coreReadyHold => inertAction s
    | .coreReady => alignAction s
    | .packetStart => packetAction s) fun l => by
    cases l with
    | boot => exact built_bootAction
    | coreReady => exact built_alignAction
    | packetStart => exact built_packetAction
    | _ => exact .write () writes_id

theorem built_loopIteration : Built loopIteration :=
  Built.after (.ite (fun s => s.status = .cancelled) (fun _ _ => Iff.rfl) (.write () writes_id) built_linkAction)
    writes_cancelCheck

/-- Every instruction is built so. -/
theorem contract_built (i : Instr) : Built (contract i) := by
  cases i
  case lvl c => exact (built_readLevel c).returnsBit
  case adv c n => exact (Built.advance c n).silent
  case adve c => exact (Built.advanceToEdge c).silent
  case adva c q => exact (Built.advanceTo c q).silent
  case wtw c n => exact (Built.wouldTransition c n).returnsBit
  case pos c => exact (built_readPosition c).returnsNat
  case rsync q => exact (Built.resync q).silent
  case rdbit c => exact (built_readBit c).returnsBit
  case cfgchk => exact Built.checkConfig.silent
  case canchk => exact (Built.write () writes_cancelCheck).silent
  case step => exact built_loopIteration.silent
  case boot => exact built_bootAction.silent
  case crdy => exact built_alignAction.silent
  case pstart => exact built_packetAction.silent
  case inert => exact (Built.write () writes_id).silent
  case cycle => exact built_captureCycle.silent
  case pbit => exact built_preambleBit.silent
  case period => exact built_bitPeriod.silent
  case lensel => exact (Built.write () (writes_setAsm fun _ _ => rfl)).silent
  case dbit => exact built_payloadBit.silent
  case emit => exact (Built.write () writes_emitBatch).silent
  case bdmFrame mc st ow iw => exact (built_receiveFrame mc st ow iw).silent
  case marker c p k => exact (Built.write () (writes_putMarker c p k)).silent
  case frame k a b v f => exact (Built.write () (writes_pend rfl)).silent
  case outViewInView m c j s1 s2 d =>
    exact (Built.write () ⟨fun _ h => (h.pend rfl).pend rfl, fun _ _ => rfl⟩).silent
  case commit => exact (Built.write () writes_commitBatch).silent
  all_goals exact .raise .illegalOperation

end Sys2Proof.Machine

/-! ## The log of whole batches (R78, R187, R240) -/

namespace Sys2Proof.Machine

/-- A built operation that completes keeps the sink invariant: its writes do, and a cursor primitive writes no event. -/
theorem Built.sink {α : Type} {op : State → Result α} (hb : Built op) {s t : State} {a : α} (h : SinkInv s)
    (ht : op s = .done a t) : SinkInv t := by
  induction hb generalizing s t with
  | write a hf =>
    cases ht
    exact hf.sink s h
  | raise code => cases ht
  | andThen _ _ ihf ihg =>
    obtain ⟨b, u, hu, ht⟩ := Result.andThen_eq_done.1 ht
    exact ihg b (ihf h hu) ht
  | ite p hp _ _ ihf ihg =>
    dsimp only at ht
    split at ht
    · exact ihf h ht
    · exact ihg h ht
  | ofPart part hp _ ih => exact ih _ h ht
  | advance c n =>
    rcases advance_cases c n s with ⟨-, g⟩ | ⟨-, g⟩ <;> cases g.symm.trans ht
    exact h.of_eq rfl rfl
  | advanceToEdge c =>
    rcases advanceToEdge_cases c s with ⟨_, -, -, -, -, g⟩ | ⟨-, g⟩ <;> cases g.symm.trans ht
    exact h.of_eq rfl rfl
  | advanceTo c q =>
    rcases advanceTo_cases c q s with ⟨-, g⟩ | ⟨-, -, g⟩ | ⟨-, -, g⟩ <;> cases g.symm.trans ht
    exact h.of_eq rfl rfl
  | resync q =>
    rcases resync_cases q s with ⟨-, g⟩ | ⟨-, -, g⟩ | ⟨-, _, -, _, g, -⟩ <;> cases g.symm.trans ht
    exact h.of_eq rfl rfl
  | wouldTransition c n =>
    rcases wouldTransition_cases c n s with ⟨-, g⟩ | ⟨-, -, g⟩ <;> cases g.symm.trans ht
    exact h
  | readBitConfirm c =>
    rcases readBitConfirm_cases c s with ⟨-, _, g⟩ | g <;> cases g.symm.trans ht
    exact h
  | checkConfig =>
    obtain ⟨-, -, rfl⟩ := checkConfig_eq_done ht
    exact h.of_eq rfl rfl

/-- An instruction completes, or answers its issuer alone, or faults with its batch given up. -/
theorem SinkInv.of_exec {i : Instr} {s t : State} (h : SinkInv s) (ht : exec i s = .next t) : SinkInv t := by
  rcases exec_cases ht with ⟨-, rfl⟩ | ⟨-, ⟨v, u, hu, rfl⟩ | ⟨b, -, rfl⟩ | ⟨code, -, rfl⟩⟩
  · exact h.of_eq rfl rfl
  · exact ((contract_built i).sink h hu).of_eq rfl rfl
  · exact h.of_eq rfl rfl
  · exact h.of_teardown rfl rfl

theorem SinkInv.of_keepIfHeld {t : State} (h : SinkInv t) (i : Instr) : SinkInv (keepIfHeld i t) := by
  rw [keepIfHeld_eq]
  exact h.of_eq rfl rfl

theorem SinkInv.of_cancelIfStuck {t : State} (h : SinkInv t) : SinkInv (cancelIfStuck t) := by
  unfold cancelIfStuck
  split
  · exact h.of_teardown rfl rfl
  · exact h

theorem SinkInv.of_blockMove {s t : State} (h : SinkInv s) (ht : blockMove s = .next t) : SinkInv t := by
  have hs : ∀ ps d, SinkInv { s with port := ps, draws := d } := fun _ _ => h.of_eq rfl rfl
  rcases blockMove_cases ht with ⟨i, j, ps, d, u, hu, rfl | rfl⟩ | ⟨-, rfl⟩
  · exact ((hs ps d).of_exec hu).of_keepIfHeld i
  · exact (((hs ps d).of_exec hu).of_keepIfHeld i).of_cancelIfStuck
  · exact h.of_teardown rfl rfl

theorem SinkInv.of_writeConfig {s : State} (h : SinkInv s) (f : ConfigRegs → ConfigRegs) :
    SinkInv (writeConfig f s) := by
  unfold writeConfig
  split
  · exact h.of_eq rfl rfl
  · exact h

/-- The host writes no event; a new session starts with LOG and PENDING empty (R235). -/
theorem SinkInv.of_hostTurn {s : State} (h : SinkInv s) (u : Turn) : SinkInv (hostTurn u s) := by
  cases u with
  | setSampleRate n => exact h.of_writeConfig fun r => { r with sampleRate := n }
  | setBitRate n => exact h.of_writeConfig fun r => { r with bitRate := n }
  | setTolOverride n => exact h.of_writeConfig fun r => { r with tolOverride := n }
  | setBinding b => exact h.of_writeConfig fun r => { r with binding := b }
  | newSession => exact ⟨rfl, fun _ he => absurd he List.not_mem_nil⟩
  | _ => exact h.of_eq rfl rfl

/-- Settles O47: the block's move and each of the outside's turns keep it. -/
theorem everyStepKeepsTheLogWhole : Obligations.EveryStepKeepsTheLogWhole := by
  intro s t h ht
  have htail : ∀ ts, SinkInv { s with turns := ts } := fun _ => h.of_eq rfl rfl
  rcases step_cases s with ⟨ts, -, hs⟩ | ⟨ts, -, -, hs⟩ | ⟨u, ts, -, -, hs⟩
  · exact (htail ts).of_blockMove (hs.symm.trans ht)
  · cases hs.symm.trans ht
    exact htail ts
  · cases hs.symm.trans ht
    exact (htail ts).of_hostTurn u

end Sys2Proof.Machine

/-! ## Holds (R63, R64) -/

namespace Sys2Proof.Machine

theorem checkConfig_never_lifts {s : State} (h : checkConfig s = .held true) : ∃ c, s.ended c = true := by
  unfold checkConfig at h
  split at h
  · cases h
  · rcases needAll_cases s.params.startPos s with ⟨-, hn⟩ | ⟨_, -, b, hn, hb⟩ <;> rw [hn] at h
    · cases h
    · obtain ⟨d, -, hd⟩ := hb.1 (Result.held.inj h)
      exact ⟨d, hd⟩

/-- A hold that never lifts is on a stream that has ended, whichever instruction holds (R64). -/
theorem contract_never_lifts {i : Instr} {s : State} (h : contract i s = .held true) : ∃ c, s.ended c = true := by
  by_cases hc : i = .cfgchk
  · subst hc
    exact checkConfig_never_lifts (silent_eq_held.1 h)
  · cases hr : isReserved i with
    | true =>
      rw [contract_of_isReserved hr] at h
      cases h
    | false => exact (contract_cursorOp hc hr).holds s h

/-- Settles O37: a hold answers its issuer alone, and its contract says when it never lifts. -/
theorem holdsChangeNothing : Obligations.HoldsChangeNothing := by
  intro i s t b h hr
  rcases exec_cases h with ⟨-, rfl⟩ | ⟨-, ⟨v, u, -, rfl⟩ | ⟨b', hc, rfl⟩ | ⟨code, -, rfl⟩⟩
  · cases hr
  · cases hr
  · cases hr
    exact ⟨rfl, fun hb => contract_never_lifts (hb ▸ hc)⟩
  · cases hr

end Sys2Proof.Machine

/-! ## Samples that arrive (R7, R63, R76) -/

namespace Sys2Proof.Machine

/-- The state after the producer of stream `k` has appended `n` samples (R7). -/
def State.arrive (k : Nat) (l : Bit) (n : Nat) (s : State) : State :=
  { s with streams := Memory.produce s.streams k l n }

theorem hostTurn_produce (k : Nat) (l : Bit) (n : Nat) (s : State) : hostTurn (.produce k l n) s = s.arrive k l n := rfl

/-- The state of a completion changed. -/
def Result.onState {α : Type} (f : State → State) : Result α → Result α
  | .done a s => .done a (f s)
  | .held b => .held b
  | .raised code => .raised code

section

variable (k : Nat) (l : Bit) (m : Nat) {s : State} {c : Role}

/-- An arrival takes no sample back (R7). -/
theorem State.lt_avail_arrive {i : Nat} (h : i < s.avail c) : i < (s.arrive k l m).avail c :=
  Nat.lt_of_lt_of_le h (Memory.avail_le_produce s.streams k (s.bound c) l m)

/-- An arrival changes no produced sample (R7). -/
theorem State.arrive_sample {i : Nat} (h : i < s.avail c) : (s.arrive k l m).sample c i = s.sample c i :=
  Memory.sample_produce s.streams k (s.bound c) l m i h

theorem State.arrive_trans {i : Nat} (h : i < s.avail c) : (s.arrive k l m).trans c i = s.trans c i := by
  simp only [State.trans, State.arrive_sample k l m h, State.arrive_sample k l m (Nat.lt_of_le_of_lt (Nat.sub_le i 1) h)]

theorem State.arrive_place {q : Nat} (h : q < s.avail c) :
    (s.arrive k l m).place c q = (s.place c q).arrive k l m := by
  rw [State.place, State.arrive_sample k l m h]
  rfl

theorem State.arrive_placeAll {q : Nat} (h : ∀ c, q < s.avail c) :
    (s.arrive k l m).placeAll q = (s.placeAll q).arrive k l m := by
  simp only [State.placeAll, State.arrive_sample k l m (h _)]
  rfl

theorem Writes.arrive {f : State → State} (hf : Writes f) (s : State) :
    f (s.arrive k l m) = (f s).arrive k l m := by
  have hs : f s = { f s with streams := s.streams } := hf.streams s s.streams
  have hm : (f s).streams = s.streams := by rw [hs]
  show _ = { f s with streams := Memory.produce (f s).streams k l m }
  rw [hm]
  exact hf.streams s _

/-- An accepted configuration with its first samples there starts the same session after an arrival (R236). -/
theorem startSession_arrive (h : ∀ c, s.params.startPos < s.avail c) :
    startSession (s.arrive k l m) = (startSession s).arrive k l m := by
  unfold startSession
  rw [show (s.arrive k l m).params = s.params from rfl, State.arrive_placeAll k l m h]
  rfl

/-- A window that is produced reads the same after an arrival. -/
theorem transitionWithin_arrive {n : Nat} (h : 2 ≤ n → s.pos c + n - 1 < s.avail c) :
    transitionWithin c n (s.arrive k l m) = transitionWithin c n s := by
  have hi : ∀ i, s.pos c < i → i < s.pos c + n → (s.arrive k l m).trans c i = s.trans c i := fun i h1 h2 =>
    State.arrive_trans k l m (by have := h (by omega); omega)
  rw [Bool.eq_iff_iff, transitionWithin_iff, transitionWithin_iff]
  constructor
  · rintro ⟨i, h1, h2, h3⟩
    exact ⟨i, h1, h2, (hi i h1 h2).symm.trans h3⟩
  · rintro ⟨i, h1, h2, h3⟩
    exact ⟨i, h1, h2, (hi i h1 h2).trans h3⟩

end

/-- An operation that comes, unless it holds, to the same whatever arrives before it. -/
def ArrivalFree {α : Type} (op : State → Result α) : Prop :=
  ∀ (s : State) (k : Nat) (l : Bit) (m : Nat), (∀ b, op s ≠ .held b) →
    op (s.arrive k l m) = (op s).onState (State.arrive k l m)

namespace ArrivalFree

variable {α β : Type}

theorem write (a : α) {f : State → State} (hf : Writes f) : ArrivalFree fun s => .done a (f s) :=
  fun s k l m _ => congrArg (Result.done a) (hf.arrive k l m s)

theorem andThen {f : State → Result α} {g : α → State → Result β} (hf : ArrivalFree f) (hg : ∀ a, ArrivalFree (g a)) :
    ArrivalFree fun s => (f s).andThen g := by
  intro s k l m hs
  have hfs := hf s k l m
  cases h : f s with
  | done a u =>
    simp only [h, Result.andThen_done] at hs ⊢
    rw [hfs (by simp [h]), h]
    exact hg a u k l m hs
  | held b => exact absurd (by simp only [h, Result.andThen_held]) (hs b)
  | raised code =>
    simp only [h, Result.andThen_raised]
    rw [hfs (by simp [h]), h]
    rfl

theorem ite (p : State → Prop) [DecidablePred p] (hp : ∀ s m, p { s with streams := m } ↔ p s)
    {f g : State → Result α} (hf : ArrivalFree f) (hg : ArrivalFree g) :
    ArrivalFree fun s => if p s then f s else g s := by
  intro s k l m hs
  have hi : p (s.arrive k l m) ↔ p s := hp s _
  by_cases h : p s
  · simp only [hi, h, if_true] at hs ⊢
    exact hf s k l m hs
  · simp only [hi, h, if_false] at hs ⊢
    exact hg s k l m hs

theorem ofPart {γ : Type} (part : State → γ) (hp : ∀ s m, part { s with streams := m } = part s)
    {op : γ → State → Result α} (h : ∀ x, ArrivalFree (op x)) : ArrivalFree fun s => op (part s) s := by
  intro s k l m hs
  have hi : part (s.arrive k l m) = part s := hp s _
  simp only [hi]
  exact h (part s) s k l m hs

end ArrivalFree

theorem arrivalFree_advance (c : Role) (n : Nat) : ArrivalFree (advance c n) := by
  intro s k l m hs
  rcases advance_cases c n s with ⟨ha, g⟩ | ⟨-, g⟩
  · rw [g, Result.onState, ← State.arrive_place k l m ha]
    exact advance_done (State.lt_avail_arrive k l m ha)
  · exact absurd g (hs _)

/-- The next edge, once produced, is the next edge after an arrival (R118). -/
theorem arrivalFree_advanceToEdge (c : Role) : ArrivalFree (advanceToEdge c) := by
  intro s k l m hs
  rcases advanceToEdge_cases c s with ⟨e, hp, ha, he, hlt, g⟩ | ⟨-, g⟩
  · rw [g, Result.onState, ← State.arrive_place k l m ha]
    refine advanceToEdge_done hp (State.lt_avail_arrive k l m ha) ?_ fun i hi hie => ?_
    · rw [State.arrive_sample k l m ha]
      exact he
    · rw [State.arrive_sample k l m (Nat.lt_trans hie ha)]
      exact hlt i hi hie
  · exact absurd g (hs _)

/-- The backward test of ADVA looks at the cursor alone, before any need (R212). -/
theorem arrivalFree_advanceTo (c : Role) (q : Nat) : ArrivalFree (advanceTo c q) := by
  intro s k l m hs
  rcases advanceTo_cases c q s with ⟨hp, g⟩ | ⟨hp, ha, g⟩ | ⟨-, -, g⟩
  · rw [g]
    exact if_pos hp
  · rw [g, Result.onState, ← State.arrive_place k l m ha]
    exact advanceTo_done hp (State.lt_avail_arrive k l m ha)
  · exact absurd g (hs _)

/-- RSYNC's backward test looks at the cursors alone, before any need (R135). -/
theorem arrivalFree_resync (q : Nat) : ArrivalFree (resync q) := by
  intro s k l m hs
  rcases resync_cases q s with ⟨⟨c, hc⟩, g⟩ | ⟨hp, ha, g⟩ | ⟨-, _, -, _, g, -⟩
  · rw [g]
    exact resync_raised hc
  · rw [g, Result.onState, ← State.arrive_placeAll k l m ha]
    exact resync_done (s := s.arrive k l m) hp fun c => State.lt_avail_arrive k l m (ha c)
  · exact absurd g (hs _)

theorem arrivalFree_wouldTransition (c : Role) (n : Nat) : ArrivalFree (wouldTransition c n) := by
  intro s k l m hs
  rcases wouldTransition_cases c n s with ⟨ha, g⟩ | ⟨-, -, g⟩
  · rw [g, Result.onState, ← transitionWithin_arrive k l m ha]
    exact wouldTransition_done fun hn => State.lt_avail_arrive k l m (ha hn)
  · exact absurd g (hs _)

theorem arrivalFree_readBitConfirm (c : Role) : ArrivalFree (readBitConfirm c) := by
  intro s k l m hs
  rcases readBitConfirm_cases c s with ⟨ha, -⟩ | g
  · rw [readBitConfirm_done ha, Result.onState, ← transitionWithin_arrive k l m fun _ => by omega,
      ← State.arrive_sample k l m ha]
    exact readBitConfirm_done (State.lt_avail_arrive k l m ha)
  · exact absurd g (hs _)

/-- CFGCHK's rejection looks at the configuration alone, before any need (R221). -/
theorem arrivalFree_checkConfig : ArrivalFree checkConfig := by
  intro s k l m hs
  cases hc : configInvalid s.cfg with
  | true =>
    rw [checkConfig_raised hc]
    exact checkConfig_raised (s := s.arrive k l m) hc
  | false =>
    rcases needAll_cases s.params.startPos s with ⟨ha, -⟩ | ⟨_, -, b, g, -⟩
    · rw [checkConfig_done hc ha, Result.onState, ← startSession_arrive k l m ha]
      exact checkConfig_done (s := s.arrive k l m) hc fun c => State.lt_avail_arrive k l m (ha c)
    · exact absurd (by simp [checkConfig, hc, g]) (hs b)

/-- What a built operation that does not hold comes to, it comes to after an arrival too. -/
theorem Built.arrivalFree {α : Type} {op : State → Result α} (hb : Built op) : ArrivalFree op := by
  induction hb with
  | write a hf => exact .write a hf
  | raise code => exact fun _ _ _ _ _ => rfl
  | andThen _ _ ihf ihg => exact ihf.andThen ihg
  | ite p hp _ _ ihf ihg => exact .ite p hp ihf ihg
  | ofPart part hp _ ih => exact .ofPart part hp ih
  | advance c n => exact arrivalFree_advance c n
  | advanceToEdge c => exact arrivalFree_advanceToEdge c
  | advanceTo c q => exact arrivalFree_advanceTo c q
  | resync q => exact arrivalFree_resync q
  | wouldTransition c n => exact arrivalFree_wouldTransition c n
  | readBitConfirm c => exact arrivalFree_readBitConfirm c
  | checkConfig => exact arrivalFree_checkConfig

/-- Issued on more samples an instruction that does not hold has the same outcome (R63, R76). -/
theorem exec_arrive {i : Instr} {s t : State} (h : exec i s = .next t) (hh : ∀ b, t.resp ≠ .held b) (k : Nat) (l : Bit)
    (m : Nat) : exec i (s.arrive k l m) = .next (t.arrive k l m) := by
  have hb := (contract_built i).arrivalFree s k l m
  rw [exec_eq_issueIn]
  rcases exec_cases h with ⟨he, rfl⟩ | ⟨he, ⟨v, u, hu, rfl⟩ | ⟨b, -, rfl⟩ | ⟨code, hc, rfl⟩⟩
  · exact issueIn_refused (s := s.arrive k l m) he
  · rw [hu] at hb
    exact issueIn_done (s := s.arrive k l m) he (hb (by simp))
  · exact absurd rfl (hh b)
  · rw [hc] at hb
    exact issueIn_raised (s := s.arrive k l m) he (hb (by simp))

/-- Settles O45: every contract is built of primitives that no arrival changes, and no operation writes the streams. -/
theorem resultsDoNotDependOnArrival : Obligations.ResultsDoNotDependOnArrival := by
  intro i s t k l n h hh
  obtain ⟨hm, -⟩ := exec_environment h
  have ht : t.arrive k l n = { t with streams := Memory.produce s.streams k l n } := by rw [State.arrive, hm]
  exact (exec_arrive h hh k l n).trans (congrArg Host.Outcome.next ht)

end Sys2Proof.Machine

/-! ## A held operation and the cancel (R215 to R217, R221, R239) -/

namespace Sys2Proof.Machine

/-- A held instruction's next move: its re-attempt, or with a cancel requested in Running the held cancel or the
re-attempt, which gives way to the cancel if the hold can never lift. -/
theorem resumeHeld_cases {i : Instr} {s t : State} (h : resumeHeld i s = .next t) :
    (¬ (s.status = .running ∧ s.cancelReq = true) ∧
        ∃ u, exec (heldInstr i s.link) s = .next u ∧ t = keepIfHeld i u) ∨
      ((s.status = .running ∧ s.cancelReq = true) ∧
        (t = heldCancel (s.draw 1) ∨
          ∃ u, exec (heldInstr i s.link) (s.draw 1) = .next u ∧ t = cancelIfStuck (keepIfHeld i u))) := by
  unfold resumeHeld at h
  split at h
  · next hc =>
    refine .inr ⟨hc, ?_⟩
    split at h
    · cases h
      exact .inl rfl
    · obtain ⟨u, hu, rfl⟩ := mapNext_eq_next h
      rw [execHeld_eq] at hu
      exact .inr ⟨u, hu, rfl⟩
  · next hc =>
    obtain ⟨u, hu, rfl⟩ := mapNext_eq_next h
    rw [execHeld_eq] at hu
    exact .inl ⟨hc, u, hu, rfl⟩

/-- On the block's turn with an operation in flight a step is that operation's next move (R239). -/
theorem step_inFlight {s : State} {ts : List Turn} {i : Instr} (hts : BlockTurn s ts) (hf : s.inFlight = some i) :
    step s = resumeHeld i { s with turns := ts } := by
  rw [step_block hts (blockIdle_of_inFlight hf)]
  simp only [blockMove, hf]

/-- A re-attempt that may still go on is kept; one whose hold can never lift is the held cancel (R216). -/
theorem cancelIfStuck_keepIfHeld (i j : Instr) {s u : State} (hu : exec j s = .next u) :
    (u.resp ≠ .held true ∧ cancelIfStuck (keepIfHeld i u) = keepIfHeld i u) ∨
      (u.resp = .held true ∧ cancelIfStuck (keepIfHeld i u) = heldCancel s) := by
  have hk : (keepIfHeld i u).resp = u.resp := by rw [keepIfHeld_eq]
  by_cases hr : u.resp = .held true
  · obtain ⟨-, rfl⟩ := exec_of_held hu hr
    exact .inr ⟨hr, rfl⟩
  · exact .inl ⟨hr, if_neg (hk ▸ hr)⟩

/-- Settles O56: a held operation's next move, read off its two cases. -/
theorem heldOperationIsRetriedOrCancelled : Obligations.HeldOperationIsRetriedOrCancelled := by
  intro s t i ts hts hf h
  rw [step_inFlight hts hf] at h
  rcases resumeHeld_cases h with ⟨hc, u, hu, rfl⟩ | ⟨⟨hs, hc⟩, ht⟩
  · refine ⟨fun _ => ⟨u, hu, keepIfHeld_eq i u⟩, fun hc' hs' => absurd ⟨hs', hc'⟩ hc⟩
  · refine ⟨fun hn => ?_, fun _ _ => ?_⟩
    · rcases hn with hn | hn
      · exact absurd (hn.symm.trans hc) (by decide)
      · exact absurd hs hn
    · rcases ht with rfl | ⟨u, hu, rfl⟩
      · exact .inl rfl
      · rcases cancelIfStuck_keepIfHeld i _ hu with ⟨hr, hk⟩ | ⟨-, hk⟩
        · exact .inr ⟨u, hu, hr, hk.trans (keepIfHeld_eq i u)⟩
        · exact .inl hk

/-! ### The sequencer's STEP -/

/-- With nothing in flight and the port empty, the block's turn in Running issues STEP (R239). -/
theorem step_issues_step {s : State} {ts : List Turn} (hs : s.status = .running) (hts : BlockTurn s ts)
    (hp : s.port = []) (hf : s.inFlight = none) : step s = attempt .step { s with turns := ts } := by
  rw [step_block hts (blockIdle_of_status (.inr hs))]
  simp only [blockMove, hf, hp, sequencerOp, hs]

/-- A STEP issued with a cancel requested is its CANCHK's cancel (R155, R156). -/
theorem exec_step_cancel {s : State} (hs : s.status = .running) (hc : s.cancelReq = true) :
    exec .step s = .next ((cancelEntry s).answer (.completed none)) :=
  issueIn_done hs (silent_eq_done.2 ⟨rfl, by rw [loopIteration_running hs, if_pos hc]⟩)

theorem linkInstr_enabledIn (l : LinkState) : enabledIn (linkInstr l) = .running := by
  cases l <;> rfl

/-- An action of a Link State that completes leaves STATUS: it starts no session and cancels none (R155). -/
theorem completesTo_linkInstr_status {l : LinkState} {s u : State} (h : CompletesTo (linkInstr l) s u) :
    u.status = s.status := by
  cases h with
  | start hi _ _ => cases l <;> cases hi
  | forward hu => exact hu.status
  | toCoreReady _ hu => exact hu.status
  | toPacketStart _ hu => exact hu.status
  | cancel hi _ => cases l <;> simp [linkInstr] at hi

/-- In Running an action of a Link State completes with the session running on, holds, or faults. -/
theorem exec_linkInstr_cases {l : LinkState} {s u : State} (hs : s.status = .running)
    (h : exec (linkInstr l) s = .next u) :
    (u.status = .running ∧ ∃ v, u.resp = .completed v) ∨ (∃ b, u = s.answer (.held b)) ∨ u.status = .faulted := by
  rcases exec_cases h with ⟨he, -⟩ | ⟨-, ⟨v, w, hw, rfl⟩ | ⟨b, -, rfl⟩ | ⟨code, -, rfl⟩⟩
  · exact absurd (hs.trans (linkInstr_enabledIn l).symm) he
  · exact .inl ⟨(completesTo_linkInstr_status (contract_completesTo hw)).trans hs, v, rfl⟩
  · exact .inr (.inl ⟨b, rfl⟩)
  · exact .inr (.inr rfl)

/-- Settles O57: a free STEP is its CANCHK's cancel; a held one is the held cancel, or its Link State's action, which
completes, faults, or holds with nothing changed. -/
theorem cancellationComesWithinOneStep : Obligations.CancellationComesWithinOneStep := by
  intro s t ts hs hc hts hp h
  refine ⟨fun hf => ?_, fun hf => ?_⟩
  · rw [step_issues_step hs hts hp hf, attempt, exec_step_cancel (s := { s with turns := ts }) hs hc] at h
    cases h
    exact ⟨rfl, rfl, rfl⟩
  · obtain ⟨-, hcancel⟩ := heldOperationIsRetriedOrCancelled s t .step ts hts hf h
    rcases hcancel hc hs with rfl | ⟨u, hu, hr, rfl⟩
    · exact ⟨.inl rfl, fun _ _ _ => ⟨rfl, rfl, rfl⟩⟩
    · refine ⟨.inr ?_, fun w hw hwr => ?_⟩
      · rcases exec_linkInstr_cases (s := { s with turns := ts, draws := s.draws + 1 }) hs hu with
          ⟨hus, v, huv⟩ | ⟨b, rfl⟩ | hus
        · obtain ⟨-, -, -, huc⟩ := exec_environment hu
          exact .inr (.inl ⟨hus, by simp [huv], huc.trans hc⟩)
        · cases b with
          | false => exact .inr (.inr (by simp [State.answer, hf]))
          | true => exact absurd rfl hr
        · exact .inl hus
      · cases hu.symm.trans hw
        exact absurd hwr hr

end Sys2Proof.Machine

/-! ## The encodings undone (R85, R92 to R95, R101) -/

namespace Sys2Proof

/-! ### The wire frame -/

/-- A frame is read off any three preamble periods and as many payload periods as their mode bit asks for (R85, R87). -/
theorem decodeFrame_append {pre payload : List (Bit × Bit)} (hp : pre.length = 3)
    (hl : payload.length = (selectLen (assemble (pre.map Prod.fst))).bits) :
    decodeFrame (pre ++ payload) =
      .ok (.bdmFrame (assemble (pre.map Prod.fst)) (assemble (pre.map Prod.snd)) (assemble (payload.map Prod.fst))
        (assemble (payload.map Prod.snd))) [] := by
  obtain ⟨p2, p1, p0, rfl⟩ := List.length_eq_three.1 hp
  simp only [List.map_cons, List.map_nil] at hl
  simp [decodeFrame, ← hl]

theorem payloadFits_iff {mc : BitVec 3} {v : BitVec 32} :
    payloadFits mc v = true ↔ v.toNat < 2 ^ (selectLen mc).bits := decide_eq_true_iff

theorem decodeFrame_encodeFrame {mc st : BitVec 3} {ow iw : BitVec 32} (how : payloadFits mc ow = true)
    (hiw : payloadFits mc iw = true) : decodeFrame (encodeFrame mc st ow iw) = .ok (.bdmFrame mc st ow iw) [] := by
  have h := decodeFrame_append (pre := (wireBits 3 mc).zip (wireBits 3 st))
    (payload := (wireBits (selectLen mc).bits ow).zip (wireBits (selectLen mc).bits iw)) (by simp)
    (by simp [List.map_fst_zip, assemble_wireBits mc mc.isLt])
  simpa [List.map_fst_zip, List.map_snd_zip, assemble_wireBits mc mc.isLt, assemble_wireBits st st.isLt,
    assemble_wireBits ow (payloadFits_iff.1 how), assemble_wireBits iw (payloadFits_iff.1 hiw), encodeFrame] using h

/-! ### The records -/

@[simp] theorem bitOfNat_bitField (b : Bit) : bitOfNat (bitField b) = some b := by cases b <;> rfl

@[simp] theorem byteOfNat_toNat (b : Byte) : byteOfNat b.toNat = some b := by
  simp [byteOfNat, b.isLt]

@[simp] theorem bytesOfNats_toNat (b : Bytes4) :
    bytesOfNats b.b0.toNat b.b1.toNat b.b2.toNat b.b3.toNat = some b := by
  simp [bytesOfNats]

@[simp] theorem roleOfNat_code (c : Role) : roleOfNat c.code.toNat = some c := by cases c <;> rfl

@[simp] theorem MarkerKind.ofCode_code (k : MarkerKind) : MarkerKind.ofCode k.code = some k := by cases k <;> rfl

@[simp] theorem FrameKind.ofCode_code (k : FrameKind) : FrameKind.ofCode k.code = some k := by cases k <;> rfl

/-! ### Every row -/

theorem decode_encode_of_op {i : Instr} {w : OpWord} {a : Nat} (hi : i.WF) (he : encode i = .op w a) :
    decode (encode i) = .ok i [] := by
  rw [he, decode, decodeWord_of_encode hi he]

theorem decode_encode_of_record {i : Instr} {row : RecordRow} {fields : List Nat} (he : encode i = .record row fields)
    (hd : decodeRecord row fields = some i) : decode (encode i) = .ok i [] := by
  simp only [he, decode, hd]

/-- Settles O48: the frame and each record are read back field by field, and every other row is an operation word. -/
theorem decodeOfEncodeIsTheInstruction : Obligations.DecodeOfEncodeIsTheInstruction := by
  intro i hi
  cases i
  case bdmFrame mc st ow iw =>
    obtain ⟨how, hiw⟩ := Bool.and_eq_true_iff.1 hi
    simp only [encode, decode, decodeFrame_encodeFrame how hiw]
  case marker c p k => exact decode_encode_of_record rfl (by simp [decodeRecord])
  case frame k first last value flags =>
    have hv : value < k.valueBound := of_decide_eq_true hi
    exact decode_encode_of_record rfl (by simp [decodeRecord, hv])
  case outViewInView m c j s1 s2 d => exact decode_encode_of_record rfl (by simp [decodeRecord])
  case commit => rfl
  all_goals exact decode_encode_of_op hi rfl

end Sys2Proof

/-! ## The rows of the operation words (R101 to R104) -/

namespace Sys2Proof

@[simp] theorem opWord_opcodeField_channelField (w : OpWord) : opWord (opcodeField w) (channelField w) = w :=
  BitVec.extractLsb'_append_extractLsb'

theorem Role.code_of_ofCode_eq_some {ch : BitVec 3} {c : Role} (h : Role.ofCode ch = some c) : c.code = ch := by
  revert ch
  cases c <;> decide

theorem Role.eq_seven_of_ofCode_eq_none : ∀ {ch : BitVec 3}, Role.ofCode ch = none → ch = 7 := by decide

theorem Role.code_ne_seven (c : Role) : c.code ≠ 7 := by cases c <;> decide

end Sys2Proof

namespace Sys2Proof.Machine

/-- `i` is the row of the word with opcode `o` and channel field `ch`, and a reserved one exactly if `reserved`. -/
structure IsRow (o : BitVec 5) (ch : BitVec 3) (reserved : Prop) (i : Instr) : Prop where
  wf : i.WF
  word : ∃ b, encode i = .op (opWord o ch) b
  isReserved_iff : isReserved i = true ↔ reserved

variable {o : BitVec 5}

theorem isRow_operation {ch : BitVec 3} {i : Instr} {b : Nat} (hw : i.WF) (he : encode i = .op (opWord o ch) b)
    (hr : isReserved i = false) : IsRow o ch False i :=
  ⟨hw, ⟨b, he⟩, by simp [hr]⟩

theorem isRow_reserved {ch : BitVec 3} {i : Instr} {b : Nat} (hw : i.WF) (he : encode i = .op (opWord o ch) b)
    (hr : isReserved i = true) : IsRow o ch True i :=
  ⟨hw, ⟨b, he⟩, by simp [hr]⟩

/-- A channel operation's rows: the operation for each role, the reserved one for code 7 (R102, R104). -/
theorem isRow_channelOp {op : Role → Instr} {r : Instr} (hop : ∀ c, IsRow o c.code False (op c))
    (hr : IsRow o 7 True r) (ch : BitVec 3) : IsRow o ch (ch = 7) (channelOp ch op r) := by
  unfold channelOp
  cases h : Role.ofCode ch with
  | some c =>
    obtain rfl := Role.code_of_ofCode_eq_some h
    simpa only [Role.code_ne_seven] using hop c
  | none =>
    obtain rfl := Role.eq_seven_of_ofCode_eq_none h
    simpa only [eq_self_iff_true] using hr

/-- A non-channel operation's rows: the operation for channel field 0, the reserved one for any other (R102, R104). -/
theorem isRow_plainOp {i : Instr} {r : BitVec 3 → Instr} (hi : IsRow o 0 False i)
    (hr : ∀ ch, ch ≠ 0 → IsRow o ch True (r ch)) (ch : BitVec 3) : IsRow o ch (ch ≠ 0) (plainOp ch i r) := by
  by_cases h : ch = 0
  · subst h
    simpa using hi
  · simpa only [plainOp_of_ne_zero h, eq_true h] using hr ch h

theorem isRow_decodeWord_channel (ho : o.toNat ∈ [0, 1, 2, 3, 4, 5, 7]) (ch : BitVec 3) (a : Nat) :
    IsRow o ch (ch = 7) (decodeWord (opWord o ch) a) := by
  obtain ⟨⟨k, hk⟩⟩ := o
  simp only [BitVec.toNat_ofFin, List.mem_cons, List.not_mem_nil, or_false] at ho
  simp only [decodeWord, opcodeField_opWord, channelField_opWord]
  rcases ho with rfl | rfl | rfl | rfl | rfl | rfl | rfl
  all_goals exact isRow_channelOp (fun c => isRow_operation rfl rfl rfl) (isRow_reserved rfl rfl rfl) ch

theorem isRow_decodeWord_plain (ho : o.toNat ∉ [0, 1, 2, 3, 4, 5, 7]) (hlt : o.toNat < 0x15) (ch : BitVec 3)
    (a : Nat) : IsRow o ch (ch ≠ 0) (decodeWord (opWord o ch) a) := by
  obtain ⟨⟨k, hk⟩⟩ := o
  simp only [BitVec.toNat_ofFin, List.mem_cons, List.not_mem_nil, or_false] at ho hlt
  simp only [decodeWord, opcodeField_opWord, channelField_opWord]
  obtain rfl | hk : k = 6 ∨ 8 ≤ k := by omega
  on_goal 2 => interval_cases k
  all_goals
    refine isRow_plainOp (isRow_operation rfl rfl rfl) (fun c hc => ?_) ch
    exact isRow_reserved (bne_iff_ne.2 hc) rfl rfl

theorem isRow_decodeWord_unassigned (ho : 0x15 ≤ o.toNat) (ch : BitVec 3) (a : Nat) :
    IsRow o ch True (decodeWord (opWord o ch) a) := by
  obtain ⟨⟨k, hk⟩⟩ := o
  simp only [BitVec.toNat_ofFin] at ho
  simp only [decodeWord, opcodeField_opWord, channelField_opWord]
  interval_cases k
  all_goals exact isRow_reserved rfl rfl rfl

/-- Every word's row: an opcode with no operation, a channel operation, or any other (R101 to R104). -/
theorem isRow_decodeWord (o : BitVec 5) (ch : BitVec 3) (a : Nat) :
    IsRow o ch (0x15 ≤ o.toNat ∨ (o.toNat ∈ [0, 1, 2, 3, 4, 5, 7] ∧ ch = 7) ∨
      (o.toNat ∉ [0, 1, 2, 3, 4, 5, 7] ∧ ch ≠ 0)) (decodeWord (opWord o ch) a) := by
  by_cases hu : 0x15 ≤ o.toNat
  · simpa only [hu, true_or] using isRow_decodeWord_unassigned hu ch a
  · by_cases hc : o.toNat ∈ [0, 1, 2, 3, 4, 5, 7]
    · simpa only [hu, hc, not_true, true_and, false_and, false_or, or_false] using isRow_decodeWord_channel hc ch a
    · simpa only [hu, hc, not_false_eq_true, true_and, false_and, false_or]
        using isRow_decodeWord_plain hc (Nat.not_le.1 hu) ch a

/-- Settles O49: a word is its two fields, and their row is the word's. -/
theorem everyWordIsItsRow : Obligations.EveryWordIsItsRow := by
  intro w a
  have h := isRow_decodeWord (opcodeField w) (channelField w) a
  rw [opWord_opcodeField_channelField] at h
  obtain ⟨hwf, hword, hres⟩ := h
  rw [opWord_opcodeField_channelField] at hword
  exact ⟨hwf, hword, hres⟩

end Sys2Proof.Machine

/-! ## Fields and words written out (R89, R90, R97, R101) -/

namespace Sys2Proof

/-- One bit shifted in: the accumulator doubled, and the bit, modulo its width (R89). -/
theorem toNat_shiftIn {w : Nat} (acc : BitVec w) (b : Bit) :
    (shiftIn acc b).toNat = (2 * acc.toNat + b.toNat) % 2 ^ w := by
  have hdisj : acc <<< 1 &&& (BitVec.ofBool b).setWidth w = 0 := by
    ext i hi
    by_cases h0 : i = 0 <;> simp [h0]
  rw [shiftIn, ← BitVec.add_eq_or_of_and_eq_zero _ _ hdisj]
  simp [Nat.shiftLeft_eq, Nat.mul_comm]

/-- The sum of the bits, the first weighing most (R89). -/
def msbSum (bits : List Bit) : Nat := (bits.mapIdx fun j b => if b then 2 ^ (bits.length - 1 - j) else 0).sum

theorem msbSum_cons (b : Bit) (bits : List Bit) : msbSum (b :: bits) = b.toNat * 2 ^ bits.length + msbSum bits := by
  simp only [msbSum, List.mapIdx_cons, List.sum_cons, List.length_cons, Nat.add_sub_cancel, Nat.sub_zero, Nat.sub_sub,
    Nat.add_comm 1]
  cases b <;> simp

theorem toNat_foldl_shiftIn {w : Nat} (bits : List Bit) (acc : BitVec w)
    (h : (acc.toNat + 1) * 2 ^ bits.length ≤ 2 ^ w) :
    (bits.foldl shiftIn acc).toNat = acc.toNat * 2 ^ bits.length + msbSum bits := by
  induction bits generalizing acc with
  | nil => simp [msbSum]
  | cons b bits ih =>
    have hb : b.toNat ≤ 1 := Bool.toNat_le b
    have hpos : 0 < 2 ^ bits.length := Nat.two_pow_pos _
    rw [List.length_cons, pow_succ] at *
    have hacc : (shiftIn acc b).toNat = 2 * acc.toNat + b.toNat := by
      rw [toNat_shiftIn, Nat.mod_eq_of_lt]
      nlinarith
    rw [List.foldl_cons, ih _ (by rw [hacc]; nlinarith), hacc, msbSum_cons]
    ring

/-- Settles O51: the accumulator starts cleared, and no bit is truncated. -/
theorem accumulationIsMsbFirst : Obligations.AccumulationIsMsbFirst := by
  intro w bits h
  have hfits : ((0 : BitVec w).toNat + 1) * 2 ^ bits.length ≤ 2 ^ w := by
    simpa using Nat.pow_le_pow_right (by omega) h
  simpa [assemble, msbSum] using toNat_foldl_shiftIn bits 0 hfits

/-- Settles O52: adjacent parts of a word make it up, and those above bit 6 are zero in a word below 128. -/
theorem fourByteRendering : Obligations.FourByteRendering := by
  intro v
  constructor
  · simp only [be4]
    rw [BitVec.extractLsb'_append_extractLsb'_eq_extractLsb' (show 24 = 16 + 8 from rfl),
      BitVec.extractLsb'_append_extractLsb'_eq_extractLsb' (show 16 = 8 + 8 from rfl),
      BitVec.extractLsb'_append_extractLsb'_eq_extractLsb' (show 8 = 0 + 8 from rfl)]
    exact BitVec.extractLsb'_eq_self
  · intro hv
    have hbyte : ∀ k, 8 ≤ k → v.extractLsb' k 8 = 0 := by
      intro k hk
      have h2 : 2 ^ 8 ≤ 2 ^ k := Nat.pow_le_pow_right (by omega) hk
      apply BitVec.eq_of_toNat_eq
      rw [BitVec.extractLsb'_toNat, Nat.shiftRight_eq_div_pow, Nat.div_eq_of_lt (by omega)]
      rfl
    refine ⟨hbyte 24 (by omega), hbyte 16 (by omega), hbyte 8 (by omega), ?_⟩
    simp only [be4, BitVec.extractLsb'_toNat, Nat.shiftRight_zero]
    omega

/-- Settles O50: each word is decoded. -/
theorem writtenWordsDecode : Obligations.WrittenWordsDecode := by
  unfold Obligations.WrittenWordsDecode
  decide

end Sys2Proof

/-! ## Records, reserved words and the placed word (R92 to R95, R100, R213) -/

namespace Sys2Proof.Machine

theorem exec_done {i : Instr} {s t : State} {v : Option Value} (he : s.status = enabledIn i)
    (h : contract i s = .done v t) : exec i s = .next (t.answer (.completed v)) :=
  (exec_eq_issueIn i s).trans (issueIn_done he h)

/-- Settles O33: each record's contract is the record put out. -/
theorem recordsGoToTheSink : Obligations.RecordsGoToTheSink := by
  refine fun s hs => ⟨fun c p => exec_done (t := putMarker c p .bitSample s) hs rfl,
    fun c p => exec_done (t := putMarker c p .captureStart s) hs rfl,
    fun k a b v f => exec_done (t := putFrame k a b v f s) hs rfl, fun m c i s1 s2 d => ?_,
    exec_done (t := s.commitBatch) hs rfl⟩
  rw [exec_done (t := putViews m c i s1 s2 d s) hs rfl]
  simp [putViews, State.pend, State.answer]

/-- Settles O35: a reserved word is issued in Running, and its contract is the fault. -/
theorem reservedWordsAreIllegal : Obligations.ReservedWordsAreIllegal := by
  intro i s hr hs
  have he : enabledIn i = .running := by
    rw [enabledIn_eq, if_neg]
    rintro rfl
    cases hr
  rw [exec_eq_issueIn, contract_of_isReserved hr]
  exact issueIn_raised (hs.trans he.symm) rfl

/-- Settles O54: the word is placed at the port's head with the block's turn first, and the block's move attempts it. -/
theorem placedWordRunsNext : Obligations.PlacedWordRunsNext := by
  intro s nbits w i hd
  have hi : decodeWord (tablePortOp nbits w).word (tablePortOp nbits w).operand = i := by
    unfold decodeTableWord at hd
    split at hd
    · cases hd
    · exact Option.some.inj hd
  obtain ⟨t, ht, ha⟩ := attempt_eq i { s with inFlight := none }
  refine ⟨t, ht, ?_⟩
  have hport : (s.withFetchWord nbits w).port = tablePortOp nbits w :: s.port := rfl
  rw [step_block (ts := s.turns) (.inl rfl) (blockIdle_of_port hport), 
    blockMove_port (s := { s.withFetchWord nbits w with turns := s.turns }) rfl hport, hi]
  exact ha.trans (congrArg Host.Outcome.next (keepIfHeld_eq i t))

end Sys2Proof.Machine

/-! ## The capture cycle, its phases and its fields (R85, R177, R189) -/

namespace Sys2Proof.Machine

variable {s t : State} {ck : Nat → Nat} {n : Nat} {mc st : BitVec 3} {ow iw : BitVec 32}

/-! ### A cycle from the two fields of each line -/

/-- The registers of a cycle that has taken the preamble fields (R177, R178). -/
def preambleAsm (s : State) (mc st : BitVec 3) : Assembler :=
  { s.asm with mc := mc, st := st, ow := 0, iw := 0, preStart := s.pos .dataIn }

/-- The registers of a cycle past its length decision that has taken the payload fields (R177, R182). -/
def payloadAsm (s : State) (ck : Nat → Nat) (mc st : BitVec 3) (ow iw : BitVec 32) : Assembler :=
  { cycleAssembler s ck mc st ow iw with payEnd := s.asm.payEnd }

/-- A capture cycle whose phases take these fields ends in the cycle's result (R177, R183, R189). -/
theorem capture_done {preamble payload : State → Result Unit} (h0 : ck 0 = s.pos .clock)
    (hpre : preamble (cycleMid s ck 0 (preambleAsm s 0 0)) = .done () (cycleMid s ck 3 (preambleAsm s mc st)))
    (hpay : payload (cycleMid s ck 3 (payloadAsm s ck mc st 0 0)) =
      .done () (cycleMid s ck (framePeriods mc) (payloadAsm s ck mc st ow iw))) :
    capture preamble payload s = .done () (cycleResult s ck mc st ow iw) := by
  have hstart : beginCycle s = cycleMid s ck 0 (preambleAsm s 0 0) := beginCycle_eq_cycleMid s ck
  have hb : beginPayload (cycleMid s ck 3 (preambleAsm s mc st)) = cycleMid s ck 3 (payloadAsm s ck mc st 0 0) :=
    beginPayload_cycleMid h0
  have hpos : 0 < framePeriods mc := Nat.add_pos_left (by decide) _
  rw [capture, hstart, hpre, Result.andThen_done, hb, hpay, Result.andThen_done, endCycle_cycleMid h0 hpos]
  rfl

/-- Everything CYCLE does once its clock, its windows and its samples are there (R177 to R189). -/
theorem captureCycle_done (hs : s.Consistent) (hmc : mc = preambleField s ck .dataIn)
    (hck : CycleClock s ck (framePeriods mc)) (hp : PreambleProduced s ck) :
    captureCycle s = .done () (cycleResult s ck mc (preambleField s ck .dataOut)
      (payloadField s ck .dataIn (selectLen mc).bits) (payloadField s ck .dataOut (selectLen mc).bits)) := by
  subst hmc
  exact capture_done hck.start (preamble_cycleMid hs hck (Nat.le_add_right 3 _) hp)
    (payload_cycleMid hs hck (Nat.le_refl _))

/-- Settles O23: the cycle completes, and its issuer is answered. -/
theorem cycleCapturesTheFrame : Obligations.CycleCapturesTheFrame := fun _ _ _ hr hs hmc hck hp =>
  exec_done hr (silent_eq_done.2 ⟨rfl, captureCycle_done hs hmc hck hp⟩)

/-! ### A frame received -/

/-- A run of bits of both lines taken: from the state after `k` bits to the one after them all (R178, R182). -/
theorem takeAll_cycleMid {push : Bit → Bit → State → State} {f : Bit → Bit → Assembler → Assembler}
    (hpush : ∀ bo bi u, push bo bi u = u.setAsm (f bo bi u.asm)) (hs : s.Consistent) (hck : CycleClock s ck n)
    (bits : List (Bit × Bit)) {k : Nat} (hk : k + bits.length ≤ n) (a : Assembler) :
    takeAll push bits (cycleMid s ck k a) =
      .done () (cycleMid s ck (k + bits.length) (bits.foldl (fun a b => f b.1 b.2 a) a)) := by
  induction bits generalizing k a with
  | nil => rfl
  | cons b bits ih =>
    simp only [List.length_cons] at hk
    rw [takeAll, takeBits_cycleMid hpush hs hck (by omega), Result.andThen_done, ih (by omega), List.foldl_cons,
      List.length_cons, Nat.add_right_comm, Nat.add_assoc k]

theorem foldl_asmPreamble (bits : List (Bit × Bit)) (a : Assembler) :
    bits.foldl (fun a b => asmPreamble b.1 b.2 a) a =
      { a with mc := (bits.map Prod.fst).foldl shiftIn a.mc, st := (bits.map Prod.snd).foldl shiftIn a.st } := by
  induction bits generalizing a with
  | nil => rfl
  | cons b bits ih => exact ih _

theorem foldl_asmPayload (bits : List (Bit × Bit)) (a : Assembler) :
    bits.foldl (fun a b => asmPayload b.1 b.2 a) a =
      { a with ow := (bits.map Prod.fst).foldl shiftIn a.ow, iw := (bits.map Prod.snd).foldl shiftIn a.iw } := by
  induction bits generalizing a with
  | nil => rfl
  | cons b bits ih => exact ih _

/-- Both lines' fields of `n` bits, each from a cleared accumulator, are the fields put on the wire (R88, R89). -/
theorem foldl_shiftIn_zip_wireBits {w : Nat} {v u : BitVec w} (hv : v.toNat < 2 ^ n) (hu : u.toNat < 2 ^ n) :
    (((wireBits n v).zip (wireBits n u)).map Prod.fst).foldl shiftIn 0#w = v ∧
      (((wireBits n v).zip (wireBits n u)).map Prod.snd).foldl shiftIn 0#w = u := by
  rw [List.map_fst_zip (by simp), List.map_snd_zip (by simp)]
  exact ⟨assemble_wireBits v hv, assemble_wireBits u hu⟩

/-- Everything the reception of a well-formed frame does once its clock is there (R85 to R88). -/
theorem receiveFrame_done (hs : s.Consistent) (hw : (Instr.bdmFrame mc st ow iw).WF)
    (hck : CycleClock s ck (framePeriods mc)) :
    receiveFrame mc st ow iw s = .done () (cycleResult s ck mc st ow iw) := by
  obtain ⟨how, hiw⟩ := Bool.and_eq_true_iff.1 hw
  obtain ⟨hmc, hst⟩ := foldl_shiftIn_zip_wireBits (n := 3) mc.isLt st.isLt
  obtain ⟨hfo, hfi⟩ := foldl_shiftIn_zip_wireBits (payloadFits_iff.1 how) (payloadFits_iff.1 hiw)
  refine capture_done hck.start ?_ ?_
  · have h := takeAll_cycleMid (push := pushPreamble) (f := asmPreamble) (fun _ _ _ => rfl) hs hck (k := 0)
      ((wireBits 3 mc).zip (wireBits 3 st)) (by simp [framePeriods]) (preambleAsm s 0 0)
    rw [foldl_asmPreamble] at h
    simpa [preambleAsm, hmc, hst] using h
  · have h := takeAll_cycleMid (push := pushPayload) (f := asmPayload) (fun _ _ _ => rfl) hs hck (k := 3)
      ((wireBits (selectLen mc).bits ow).zip (wireBits (selectLen mc).bits iw)) (by simp [framePeriods])
      (payloadAsm s ck mc st 0 0)
    rw [foldl_asmPayload] at h
    simpa [payloadAsm, cycleAssembler, framePeriods, hfo, hfi] using h

/-- Settles O25: the reception completes with the frame's own fields, and its issuer is answered. -/
theorem bdmFrameDeliversItsFields : Obligations.BdmFrameDeliversItsFields := fun _ _ _ _ _ _ hr hs hw hck =>
  exec_done hr (silent_eq_done.2 ⟨rfl, receiveFrame_done hs hw hck⟩)

/-! ### The frame a cycle has decoded -/

/-- One bit of each line that is taken is pushed in, and the cursors moved (R178, R182). -/
theorem takeBits_eq_done {push : Bit → Bit → State → State} {bo bi : Bit} (h : takeBits push bo bi s = .done () t) :
    t.asm = (push bo bi (putBitMarkers s)).asm := by
  obtain ⟨e, -, rfl⟩ := bitPeriod_eq_done h
  rfl

/-- What a run of bits that is taken leaves in the assembler registers: each pushed in, and nothing else. -/
theorem takeAll_asm {push : Bit → Bit → State → State} {f : Bit → Bit → Assembler → Assembler}
    (hpush : ∀ bo bi u, push bo bi u = u.setAsm (f bo bi u.asm)) {bits : List (Bit × Bit)}
    (h : takeAll push bits s = .done () t) : t.asm = bits.foldl (fun a b => f b.1 b.2 a) s.asm := by
  induction bits generalizing s with
  | nil =>
    cases h
    rfl
  | cons b bits ih =>
    obtain ⟨_, u, hu, h⟩ := Result.andThen_eq_done.1 h
    rw [ih h, takeBits_eq_done hu, hpush]
    rfl

/-- A repeated operation each of whose completions takes a bit of each line takes a run of bits. -/
theorem takeAll_of_repeatOp {op : State → Result Unit} {push : Bit → Bit → State → State}
    (hop : ∀ u v, op u = .done () v → ∃ bo bi, takeBits push bo bi u = .done () v)
    (h : repeatOp n op s = .done () t) : ∃ bits, bits.length = n ∧ takeAll push bits s = .done () t := by
  induction n generalizing s with
  | zero => exact ⟨[], rfl, h⟩
  | succ n ih =>
    obtain ⟨_, u, hu, h⟩ := Result.andThen_eq_done.1 h
    obtain ⟨bo, bi, hb⟩ := hop s u hu
    obtain ⟨bits, hl, hbits⟩ := ih h
    exact ⟨(bo, bi) :: bits, by rw [List.length_cons, hl], by rw [takeAll, hb, Result.andThen_done, hbits]⟩

/-- A PBIT that completes takes one bit of each line (R178). -/
theorem preambleBit_eq_done (h : preambleBit s = .done () t) : ∃ bo bi, takeBits pushPreamble bo bi s = .done () t := by
  obtain ⟨bo, u, hu, h⟩ := Result.andThen_eq_done.1 h
  obtain ⟨bi, v, hv, h⟩ := Result.andThen_eq_done.1 h
  rcases readBit_cases .dataIn s with ⟨_, g⟩ | g <;> rw [g] at hu <;> cases hu
  rcases readBit_cases .dataOut s with ⟨_, g⟩ | g <;> rw [g] at hv <;> cases hv
  exact ⟨_, _, h⟩

/-- A DBIT that completes takes one bit of each line (R182). -/
theorem payloadBit_eq_done (h : payloadBit s = .done () t) : ∃ bo bi, takeBits pushPayload bo bi s = .done () t :=
  ⟨_, _, h⟩

/-- A run of bits of both lines lies on the wire as the fields it assembles to (R88). -/
theorem zip_wireBits_assemble {w : Nat} {bits : List (Bit × Bit)} (hl : bits.length = n) (hn : n ≤ w) :
    (wireBits n (assemble (bits.map Prod.fst) : BitVec w)).zip (wireBits n (assemble (bits.map Prod.snd) : BitVec w)) =
      bits := by
  subst hl
  have hfst := wireBits_assemble (w := w) (bits.map Prod.fst) (by simpa using hn)
  have hsnd := wireBits_assemble (w := w) (bits.map Prod.snd) (by simpa using hn)
  rw [List.length_map] at hfst hsnd
  rw [hfst, hsnd]
  simpa [List.unzip_eq_map] using List.zip_unzip bits

theorem PayloadLen.bits_le (l : PayloadLen) : l.bits ≤ 32 := by cases l <;> decide

/-- A cycle that completes has received the frame whose fields it has assembled (R85, R177). -/
theorem receiveFrame_of_captureCycle (h : captureCycle s = .done () t) :
    receiveFrame t.asm.mc t.asm.st t.asm.ow t.asm.iw s = .done () t := by
  obtain ⟨_, u, hu, h⟩ := Result.andThen_eq_done.1 h
  obtain ⟨_, v, hv, h⟩ := Result.andThen_eq_done.1 h
  cases h
  obtain ⟨pre, hpl, hpre⟩ := takeAll_of_repeatOp (fun _ _ => preambleBit_eq_done) hu
  obtain ⟨pay, hyl, hpay⟩ := takeAll_of_repeatOp (fun _ _ => payloadBit_eq_done) hv
  have ha := takeAll_asm (f := asmPreamble) (fun _ _ _ => rfl) hpre
  have hb := takeAll_asm (f := asmPayload) (fun _ _ _ => rfl) hpay
  rw [foldl_asmPreamble] at ha
  rw [foldl_asmPayload] at hb
  have hasm : (endCycle v).asm = { v.asm with payEnd := v.pos .clock } := by
    rw [endCycle, emitBatch_eq]
    rfl
  have hmc : v.asm.mc = assemble (pre.map Prod.fst) := (congrArg Assembler.mc hb).trans (congrArg Assembler.mc ha)
  have hst : v.asm.st = assemble (pre.map Prod.snd) := (congrArg Assembler.st hb).trans (congrArg Assembler.st ha)
  have how : v.asm.ow = assemble (pay.map Prod.fst) :=
    (congrArg Assembler.ow hb).trans (congrArg (fun a => (pay.map Prod.fst).foldl shiftIn a.ow) ha)
  have hiw : v.asm.iw = assemble (pay.map Prod.snd) :=
    (congrArg Assembler.iw hb).trans (congrArg (fun a => (pay.map Prod.snd).foldl shiftIn a.iw) ha)
  have hwpre := zip_wireBits_assemble (w := 3) hpl (Nat.le_refl 3)
  have hwpay := zip_wireBits_assemble (w := 32) hyl (PayloadLen.bits_le _)
  simp only [receiveFrame, capture, hasm, hmc, hst, how, hiw, hwpre, hpre, Result.andThen_done, hwpay, hpay]

/-- Settles O26: CYCLE's outcome is its completion, and that is the reception's. -/
theorem cycleReceivesTheFrameItDecodes : Obligations.CycleReceivesTheFrameItDecodes := by
  intro s t h hr
  rcases exec_cases h with ⟨-, rfl⟩ | ⟨he, ⟨v, u, hu, rfl⟩ | ⟨b, -, rfl⟩ | ⟨code, -, rfl⟩⟩
  · cases hr
  · obtain ⟨rfl, hc⟩ := silent_eq_done.1 hu
    exact exec_done he (silent_eq_done.2 ⟨rfl, receiveFrame_of_captureCycle hc⟩)
  · cases hr
  · cases hr

end Sys2Proof.Machine

/-! ## The cursor operations (R115 to R121) -/

namespace Sys2Proof

/-- An operation word is its opcode above its channel field (R100, R101). -/
theorem opWord_eq_or (o : BitVec 5) (ch : BitVec 3) : opWord o ch = o.setWidth 8 <<< 3 ||| ch.setWidth 8 := by
  rw [opWord, BitVec.append_def, BitVec.shiftLeftZeroExtend_eq, BitVec.setWidth'_eq]

end Sys2Proof

namespace Sys2Proof.Machine

/-! ### An instruction's hold and its fault -/

theorem exec_held {i : Instr} {s : State} {b : Bool} (he : s.status = enabledIn i) (h : contract i s = .held b) :
    exec i s = .next (s.answer (.held b)) :=
  (exec_eq_issueIn i s).trans (issueIn_held he h)

theorem faultTaken_of_raised {i : Instr} {s : State} {code : FaultCode} (he : s.status = enabledIn i)
    (h : contract i s = .raised code) : FaultTaken code s (exec i s) :=
  ⟨(faultEntry code s).answer .faulted, (exec_eq_issueIn i s).trans (issueIn_raised he h), rfl⟩

theorem returnsBit_done {op : State → Result Bit} {s t : State} {b : Bit} (h : op s = .done b t) :
    returnsBit op s = .done (some (.bit b)) t := by
  rw [returnsBit, h, Result.andThen_done]

theorem returnsBit_held {op : State → Result Bit} {s : State} {b : Bool} (h : op s = .held b) :
    returnsBit op s = .held b := by
  rw [returnsBit, h, Result.andThen_held]

/-! ### When the cursor primitives hold or fault -/

theorem advance_held {c : Role} {n : Nat} {s : State} (h : s.avail c ≤ s.pos c + n) :
    advance c n s = .held (s.ended c) := by
  rw [advance, need_held h, Result.andThen_held]

theorem advanceToEdge_held {c : Role} {s : State} (h : ∀ i, s.pos c < i → i < s.avail c → s.sample c i = s.lvl c) :
    advanceToEdge c s = .held (s.ended c) := by
  rw [advanceToEdge, nextEdge_eq_none.2 h]

theorem advanceTo_raised {c : Role} {q : Nat} {s : State} (h : q < s.pos c) :
    advanceTo c q s = .raised .streamPositionViolation := if_pos h

theorem advanceTo_held {c : Role} {q : Nat} {s : State} (hp : s.pos c ≤ q) (ha : s.avail c ≤ q) :
    advanceTo c q s = .held (s.ended c) := by
  rw [advanceTo, if_neg (Nat.not_lt.2 hp), need_held ha, Result.andThen_held]

theorem wouldTransition_held {c : Role} {n : Nat} {s : State} (hn : 2 ≤ n) (ha : s.avail c ≤ s.pos c + n - 1) :
    wouldTransition c n s = .held (s.ended c) := by
  rw [wouldTransition, if_pos hn, need_held ha, Result.andThen_held]

/-! ### The operations -/

/-- Settles O3: either read is a contract that completes with its register. -/
theorem lvlAndPosReadTheCursor : Obligations.LvlAndPosReadTheCursor := fun _ _ hs =>
  ⟨exec_done hs (returnsBit_done rfl), exec_done hs rfl⟩

/-- Settles O4: ADV's contract places the cursor once its one need is met. -/
theorem advMovesExactly : Obligations.AdvMovesExactly := by
  refine fun s c n hs => ⟨?word, fun ha => ?moves, fun ha => ?holds⟩
  case word => exact decodeWord_of_encode rfl (congrArg (Words.op · n) (opWord_eq_or 1 c.code))
  case moves => exact exec_done (t := s.place c (s.pos c + n)) hs (silent_eq_done.2 ⟨rfl, advance_done ha⟩)
  case holds => exact exec_held hs (silent_eq_held.2 (advance_held ha))

/-- Settles O5: the least index of another level is the next edge, whose sample is the inverted level. -/
theorem adveMovesToTheNextEdge : Obligations.AdveMovesToTheNextEdge := by
  refine fun s c hs => ⟨?word, fun e hp ha hne heq => ?moves, fun hall => ?holds⟩
  case word => exact decodeWord_of_encode rfl (congrArg (Words.op · 0) (opWord_eq_or 2 c.code))
  case moves =>
    have hl : (!s.lvl c) = s.sample c e := (Bool.eq_not_of_ne hne).symm
    rw [hl]
    exact exec_done (t := s.place c e) hs (silent_eq_done.2 ⟨rfl, advanceToEdge_done hp ha hne heq⟩)
  case holds => exact exec_held hs (silent_eq_held.2 (advanceToEdge_held hall))

/-- Settles O6: ADVA's contract tests the position first, and then needs its one sample. -/
theorem advaMovesOrFaults : Obligations.AdvaMovesOrFaults := by
  refine fun s c q hs => ⟨?word, fun hp => ?faults, fun hp ha => ?moves, fun hp ha => ?holds⟩
  case word => exact decodeWord_of_encode rfl (congrArg (Words.op · q) (opWord_eq_or 3 c.code))
  case faults => exact faultTaken_of_raised hs (silent_eq_raised.2 (advanceTo_raised hp))
  case moves => exact exec_done (t := s.place c q) hs (silent_eq_done.2 ⟨rfl, advanceTo_done hp ha⟩)
  case holds => exact exec_held hs (silent_eq_held.2 (advanceTo_held hp ha))

/-- Settles O7: WTW's contract completes with the window's answer once the window is produced. -/
theorem wtwLooksStrictlyInside : Obligations.WtwLooksStrictlyInside := by
  refine fun s c n hs => ⟨?word, fun ha => ⟨transitionWithin c n s, ?answers, transitionWithin_iff c n s⟩,
    fun hn ha => ?holds⟩
  case word => exact decodeWord_of_encode rfl (congrArg (Words.op · n) (opWord_eq_or 4 c.code))
  case answers => exact exec_done hs (returnsBit_done (wouldTransition_done ha))
  case holds => exact exec_held hs (returnsBit_held (wouldTransition_held hn ha))

end Sys2Proof.Machine

/-! ## RSYNC (R135 to R138, R212) -/

namespace Sys2Proof.Machine

theorem resync_held {q : Nat} {s : State} {c : Role} (hp : ∀ d, s.pos d ≤ q) (ha : s.avail c ≤ q) :
    ∃ b, resync q s = .held b := by
  rcases resync_cases q s with ⟨⟨d, hd⟩, -⟩ | ⟨-, hall, -⟩ | ⟨-, -, -, b, hb, -⟩
  · exact absurd (hp d) (Nat.not_le.2 hd)
  · exact absurd ha (Nat.not_le.2 (hall c))
  · exact ⟨b, hb⟩

/-- An RSYNC that completes: every cursor at the target (R135). -/
theorem resync_eq_done {q : Nat} {s t : State} (h : resync q s = .done () t) :
    (∀ c, q < s.avail c) ∧ t = s.placeAll q := by
  rcases resync_cases q s with ⟨-, g⟩ | ⟨-, ha, g⟩ | ⟨-, -, -, _, g, -⟩ <;> rw [g] at h <;> cases h
  exact ⟨ha, rfl⟩

/-- Settles O8: RSYNC's contract tests all seven cursors, then needs all seven samples, then moves all seven. -/
theorem rsyncMovesAllOrNone : Obligations.RsyncMovesAllOrNone := by
  refine fun s q hs => ⟨fun ⟨c, hc⟩ => ?faults, fun hp ha => ?moves, fun hp ⟨c, hc⟩ => ?holds⟩
  case faults => exact faultTaken_of_raised hs (silent_eq_raised.2 (resync_raised hc))
  case moves => exact exec_done (t := s.placeAll q) hs (silent_eq_done.2 ⟨rfl, resync_done hp ha⟩)
  case holds =>
    obtain ⟨b, hb⟩ := resync_held hp hc
    exact ⟨b, exec_held hs (silent_eq_held.2 hb)⟩

/-- Settles O9: the first RSYNC leaves every cursor at the target, so the second neither faults nor holds, and the
cursors it writes are those already there. -/
theorem rsyncIsIdempotent : Obligations.RsyncIsIdempotent := by
  intro s t q h hr
  rcases exec_cases h with ⟨-, rfl⟩ | ⟨he, ⟨v, u, hu, rfl⟩ | ⟨b, -, rfl⟩ | ⟨code, -, rfl⟩⟩
  · cases hr
  · obtain ⟨rfl, hq⟩ := silent_eq_done.1 hu
    obtain ⟨ha, rfl⟩ := resync_eq_done hq
    have hp : ∀ c, ((s.placeAll q).answer (.completed none)).pos c ≤ q := fun c => by simp
    exact exec_done (t := ((s.placeAll q).answer (.completed none)).placeAll q) he
      (silent_eq_done.2 ⟨rfl, resync_done hp ha⟩)
  · cases hr
  · cases hr

/-! ### A cursor that no other is past -/

/-- No cursor is past that of `c`: the state in which RSYNC to `c`'s position cannot fault (R135, R164, R165). -/
def Foremost (c : Role) (s : State) : Prop := ∀ d, s.pos d ≤ s.pos c

theorem Foremost.place {c : Role} {s : State} {q : Nat} (h : Foremost c s) (hq : s.pos c ≤ q) :
    Foremost c (s.place c q) := by
  intro d
  rw [State.place_pos_same]
  by_cases hd : d = c
  · rw [hd, State.place_pos_same]
  · rw [State.place_pos_other _ _ _ _ hd]
    exact Nat.le_trans (h d) hq

theorem foremost_placeAll (c : Role) (q : Nat) (s : State) : Foremost c (s.placeAll q) := fun d => by simp

variable {α β : Type} {c : Role}

/-- From a state in which `c`'s cursor is foremost, the operation does not fault, and one that completes leaves it
foremost. -/
structure KeepsForemost (c : Role) (op : State → Result α) : Prop where
  safe : ∀ s code, Foremost c s → op s ≠ .raised code
  done : ∀ s a t, Foremost c s → op s = .done a t → Foremost c t

namespace KeepsForemost

theorem andThen {f : State → Result α} {g : α → State → Result β} (hf : KeepsForemost c f)
    (hg : ∀ a, KeepsForemost c (g a)) : KeepsForemost c fun s => (f s).andThen g where
  safe := fun s code hs h => by
    rcases Result.andThen_eq_raised.1 h with h | ⟨a, u, hu, h⟩
    · exact hf.safe s code hs h
    · exact (hg a).safe u code (hf.done s a u hs hu) h
  done := fun s b t hs h => by
    obtain ⟨a, u, hu, h⟩ := Result.andThen_eq_done.1 h
    exact (hg a).done u b t (hf.done s a u hs hu) h

theorem pure (a : α) {f : State → State} (hf : ∀ s, Foremost c s → Foremost c (f s)) :
    KeepsForemost c fun s => Result.done a (f s) where
  safe := fun _ _ _ h => by cases h
  done := fun s _ _ hs h => by
    cases h
    exact hf s hs

theorem ite (p : State → Prop) [DecidablePred p] {f g : State → Result α} (hf : KeepsForemost c f)
    (hg : KeepsForemost c g) : KeepsForemost c fun s => if p s then f s else g s := by
  refine ⟨fun s code hs h => ?safe, fun s a t hs h => ?done⟩
  case safe =>
    split at h
    · exact hf.safe s code hs h
    · exact hg.safe s code hs h
  case done =>
    split at h
    · exact hf.done s a t hs h
    · exact hg.done s a t hs h

theorem ofPart {γ : Type} (part : State → γ) {op : γ → State → Result α} (h : ∀ x, KeepsForemost c (op x)) :
    KeepsForemost c fun s => op (part s) s :=
  ⟨fun s => (h (part s)).safe s, fun s => (h (part s)).done s⟩

end KeepsForemost

theorem keepsForemost_advance (n : Nat) : KeepsForemost c (advance c n) := by
  refine ⟨fun s code hs h => ?safe, fun s a t hs h => ?done⟩ <;>
    rcases advance_cases c n s with ⟨-, g⟩ | ⟨-, g⟩ <;> rw [g] at h <;> cases h
  case done => exact hs.place (Nat.le_add_right _ n)

theorem keepsForemost_advanceToEdge : KeepsForemost c (advanceToEdge c) := by
  refine ⟨fun s code hs h => ?safe, fun s a t hs h => ?done⟩ <;>
    rcases advanceToEdge_cases c s with ⟨e, he, -, -, -, g⟩ | ⟨-, g⟩ <;> rw [g] at h <;> cases h
  case done => exact hs.place (Nat.le_of_lt he)

/-- RSYNC to the foremost cursor never faults (R139). -/
theorem keepsForemost_resync : KeepsForemost c fun s => resync (s.pos c) s := by
  refine ⟨fun s code hs h => ?safe, fun s a t _ h => ?done⟩
  case safe =>
    rcases resync_cases (s.pos c) s with ⟨⟨d, hd⟩, -⟩ | ⟨-, -, g⟩ | ⟨-, -, -, b, g, -⟩
    · exact Nat.not_le.2 hd (hs d)
    · cases g.symm.trans h
    · cases g.symm.trans h
  case done =>
    obtain ⟨-, rfl⟩ := resync_eq_done h
    exact foremost_placeAll c _ s

/-- BOOT moves only the clock cursor before its RSYNC to it (R157). -/
theorem keepsForemost_bootAction : KeepsForemost .clock bootAction :=
  keepsForemost_advanceToEdge.andThen fun _ =>
    (KeepsForemost.ite (fun s => s.lvl .clock = true) keepsForemost_advanceToEdge (.pure () fun _ h => h)).andThen
      fun _ => keepsForemost_resync.andThen fun _ => .pure () fun _ h => h

/-- CRDY moves only the aligned line's cursor before its RSYNC to it (R158). -/
theorem alignAction_ne_raised {s : State} {code : FaultCode} (h : Foremost s.alignRole s) :
    alignAction s ≠ .raised code :=
  (keepsForemost_advanceToEdge.andThen fun _ =>
    (KeepsForemost.ofPart (fun u => u.params.deadInterval) keepsForemost_advance).andThen fun _ =>
      (KeepsForemost.ite (fun u => stillLow u s.alignRole = true) keepsForemost_advanceToEdge
        (.pure () fun _ h => h)).andThen fun _ =>
        ((KeepsForemost.pure () (f := fun u => putMarker s.alignRole (u.pos s.alignRole) .captureStart u)
          fun _ h => h).andThen fun _ => keepsForemost_resync).andThen fun _ =>
          .pure () (f := fun u => u.setLink .packetStart) fun _ h => h).safe s code h

/-! ### The cursors at the end of a capture cycle -/

/-- The cursors stand as a bit period leaves them: the data cursors `T` beyond the others (R179, R189). -/
def AtPeriodEnd (s : State) : Prop := ∃ e, s.cur = periodCursors s e

theorem atPeriodEnd_of_payloadBit {s t : State} (h : payloadBit s = .done () t) : AtPeriodEnd t := by
  obtain ⟨bo, bi, h⟩ := payloadBit_eq_done h
  obtain ⟨e, -, rfl⟩ := bitPeriod_eq_done h
  exact ⟨e, rfl⟩

/-- What each completion of an operation leaves, its repetition leaves. -/
theorem of_repeatOp_succ {op : State → Result Unit} {p : State → Prop} (hop : ∀ s t, op s = .done () t → p t)
    {n : Nat} {s t : State} (h : repeatOp (n + 1) op s = .done () t) : p t := by
  induction n generalizing s with
  | zero =>
    obtain ⟨_, u, hu, h⟩ := Result.andThen_eq_done.1 h
    cases h
    exact hop s t hu
  | succ n ih =>
    obtain ⟨_, u, -, h⟩ := Result.andThen_eq_done.1 h
    exact ih h

theorem PayloadLen.exists_bits_eq_succ (l : PayloadLen) : ∃ n, l.bits = n + 1 := by
  cases l with
  | seven => exact ⟨6, rfl⟩
  | thirtyTwo => exact ⟨31, rfl⟩

theorem AtPeriodEnd.after_endCycle {s : State} (h : AtPeriodEnd s) : AtPeriodEnd (endCycle s) := by
  obtain ⟨e, he⟩ := h
  rw [endCycle, emitBatch_eq]
  exact ⟨e, he⟩

theorem atPeriodEnd_of_captureCycle {s t : State} (h : captureCycle s = .done () t) : AtPeriodEnd t := by
  obtain ⟨_, u, -, h⟩ := Result.andThen_eq_done.1 h
  obtain ⟨_, v, hv, h⟩ := Result.andThen_eq_done.1 h
  cases h
  obtain ⟨n, hn⟩ := PayloadLen.exists_bits_eq_succ (beginPayload u).asm.len
  simp only [hn] at hv
  exact (of_repeatOp_succ (fun _ _ => atPeriodEnd_of_payloadBit) hv).after_endCycle

theorem AtPeriodEnd.consistent {s : State} (h : AtPeriodEnd s) : s.Consistent := by
  obtain ⟨e, he⟩ := h
  intro c
  rw [State.lvl, State.pos, he, periodCursors_get]
  split <;> rfl

theorem AtPeriodEnd.foremost_dataIn {s : State} (h : AtPeriodEnd s) :
    s.pos .dataIn = s.pos .dataOut ∧ Foremost .dataIn s := by
  obtain ⟨e, he⟩ := h
  refine ⟨by simp [State.pos, he, periodCursors_get], fun c => ?_⟩
  simp only [State.pos, he, periodCursors_get, true_or, if_true]
  split
  · exact Nat.le_refl _
  · exact Nat.le_add_right e s.tol

/-! ### The alignment under the sequencer (R164, R165) -/

theorem State.placeAll_consistent (s : State) (q : Nat) : (s.placeAll q).Consistent := fun c => by simp

theorem State.Consistent.setLink {s : State} (h : s.Consistent) (l : LinkState) : (s.setLink l).Consistent := h

theorem SequencerAligned.of_boot {s : State} (h : SequencerAligned s) (hl : s.link = .boot) : Foremost .clock s := by
  rw [SequencerAligned, hl] at h
  exact fun c => Nat.le_of_eq (h c)

theorem SequencerAligned.of_coreReady {s : State} (h : SequencerAligned s) (hl : s.link = .coreReady) :
    Foremost s.alignRole s := by
  rw [SequencerAligned, hl] at h
  obtain ⟨heq, hle⟩ := h
  unfold State.alignRole
  cases s.params.alignChannel with
  | dataIn => exact hle
  | dataOut => exact fun c => Nat.le_trans (hle c) (Nat.le_of_eq heq)

theorem SequencerAligned.of_packetStart {s : State} (h : SequencerAligned s) (hl : s.link = .packetStart) (c : Role) :
    s.pos c = s.pos .clock := by
  rw [SequencerAligned, hl] at h
  exact h c

/-- An aligned state's action faults in PacketStart alone: BOOT's and CRDY's cursor to resynchronise to is foremost
(R139, R164, R165). -/
theorem SequencerAligned.packetStart_of_raised {s : State} {code : FaultCode} (h : SequencerAligned s)
    (hr : linkAction s = .raised code) : s.link = .packetStart := by
  unfold linkAction at hr
  split at hr
  case h_1 hl => exact absurd hr (keepsForemost_bootAction.safe s code (h.of_boot hl))
  case h_6 hl => exact absurd hr (alignAction_ne_raised (h.of_coreReady hl))
  case h_7 hl => exact hl
  all_goals cases hr

/-- The action of a Link State that completes leaves the cursors as the next action needs them (R164, R165, R189). -/
theorem SequencerAligned.of_linkAction {s t : State} (h : SequencerAligned s) (hc : s.Consistent)
    (ht : linkAction s = .done () t) : SequencerAligned t ∧ t.Consistent := by
  rcases linkAction_eq_done ht with ⟨-, ht⟩ | ⟨-, ht⟩ | ⟨hl, ht⟩ | rfl
  · obtain ⟨q, -, -, -, rfl⟩ := bootAction_eq_done ht
    exact ⟨⟨by simp, foremost_placeAll .dataIn q s⟩, (s.placeAll_consistent q).setLink _⟩
  · obtain ⟨q, -, -, -, -, rfl⟩ := alignAction_eq_done ht
    have hpos : ∀ d, ((putMarker s.alignRole q .captureStart s).placeAll q).pos d = q :=
      fun d => State.placeAll_pos _ d q
    exact ⟨fun c => (hpos c).trans (hpos .clock).symm, (State.placeAll_consistent _ q).setLink _⟩
  · obtain ⟨u, rfl, ⟨-, rfl⟩ | ⟨-, hu⟩⟩ := packetAction_eq_done ht
    · have hp := h.of_packetStart hl
      have hd : ∀ c, u.pos c = u.pos .dataIn := fun c => (hp c).trans (hp .dataIn).symm
      exact ⟨⟨(hd .dataOut).symm, fun c => Nat.le_of_eq (hd c)⟩, hc.setLink _⟩
    · have hend := atPeriodEnd_of_captureCycle hu
      exact ⟨hend.foremost_dataIn, hend.consistent.setLink _⟩
  · exact ⟨h, hc⟩

/-- Settles O22: a STEP in Running that is not cancelled is its Link State's action, whose completion keeps the
alignment and whose fault is PacketStart's. -/
theorem sequencerFaultsOnlyInPacketStart : Obligations.SequencerFaultsOnlyInPacketStart := by
  intro s t hs hc ha h
  rcases exec_cases h with ⟨-, rfl⟩ | ⟨-, ⟨v, u, hu, rfl⟩ | ⟨b, -, rfl⟩ | ⟨code, hr, rfl⟩⟩
  · exact ⟨fun _ => ⟨ha, hc⟩, fun hf => by cases hf⟩
  · refine ⟨fun hrun => ?_, fun hf => by cases hf⟩
    rcases loopIteration_eq_done (silent_eq_done.1 hu).2 with ⟨-, rfl⟩ | rfl | hl
    · cases hrun
    · exact ⟨ha, hc⟩
    · exact (ha.of_linkAction hc hl : SequencerAligned u ∧ u.Consistent)
  · exact ⟨fun _ => ⟨ha, hc⟩, fun hf => by cases hf⟩
  · refine ⟨fun hrun => (by cases hrun), fun _ => ?_⟩
    have hl := silent_eq_raised.1 hr
    rw [loopIteration_running hs] at hl
    split at hl
    · cases hl
    · exact ha.packetStart_of_raised hl

end Sys2Proof.Machine

/-! ## RDBIT's two classifiers (R143 to R149) -/

namespace Sys2Proof.Machine

/-- RDBIT's default answers from the wide window alone, once that is produced (R144, R145). -/
theorem readBit_default_done {c : Role} {s : State} (hg : s.params.glitchConfirm = false)
    (h : s.pos c + s.tol + 1 < s.avail c) :
    readBit c s = .done (if TransitionNear s c (s.pos c) then !s.lvl c else s.lvl c) s := by
  have hnarrow := wouldTransition_done (c := c) (n := s.tol) (s := s) fun _ => by omega
  have hwide := wouldTransition_done (c := c) (n := s.tol + 2) (s := s) fun _ => by omega
  have hdefault : readBit c s = readBitDefault c s := if_neg (by simp [hg])
  rw [hdefault, readBitDefault, hnarrow, Result.andThen_done, hwide, Result.andThen_done,
    classifyDefault_eq _ _ _ (transitionWithin_mono s c (Nat.le_add_right s.tol 2))]
  simp only [transitionWithin_iff_near]

/-- RDBIT's variant answers from the wide window and its far sample, once both are produced (R146). -/
theorem readBit_confirm_done {c : Role} {s : State} (hg : s.params.glitchConfirm = true)
    (h : s.pos c + s.tol + 2 < s.avail c) :
    readBit c s = .done (if TransitionNear s c (s.pos c) ∧ s.sample c (s.pos c + s.tol + 2) ≠ s.lvl c then !s.lvl c
      else s.lvl c) s := by
  have hconfirm : readBit c s = readBitConfirm c s := if_pos hg
  rw [hconfirm, readBitConfirm_done h, classifyConfirm]
  simp only [transitionWithin_iff_near]

/-- The first transition above the cursor decides whether any is near it (R145). -/
theorem transitionNear_iff_of_first {c : Role} {s : State} {p k : Nat} (hk : 1 ≤ k) (ht : s.trans c (p + k) = true)
    (hfirst : ∀ j, 1 ≤ j → j < k → s.trans c (p + j) = false) : TransitionNear s c p ↔ k ≤ s.tol + 1 := by
  constructor
  · rintro ⟨j, hj, h1, hjt⟩
    have hkj : k ≤ j := by
      by_contra hlt
      exact Bool.false_ne_true ((hfirst j h1 (Nat.lt_of_not_le hlt)).symm.trans hjt)
    omega
  · intro hle
    exact ⟨k, by omega, hk, ht⟩

theorem not_transitionNear {c : Role} {s : State} {p : Nat}
    (hnone : ∀ k, 1 ≤ k → k ≤ s.tol + 1 → s.trans c (p + k) = false) : ¬ TransitionNear s c p := by
  rintro ⟨k, hk, h1, ht⟩
  exact Bool.false_ne_true ((hnone k h1 (by omega)).symm.trans ht)

theorem classifierReach_default {s : State} (hg : s.params.glitchConfirm = false) : classifierReach s = s.tol + 1 := by
  simp [classifierReach, hg]

theorem classifierReach_confirm {s : State} (hg : s.params.glitchConfirm = true) : classifierReach s = s.tol + 2 := by
  simp [classifierReach, hg]

/-- Settles O10: the wide window holds a transition exactly if the first one lies in it, and the narrow window adds
nothing. -/
theorem rdbitDefaultInvertsNearAnEdge : Obligations.RdbitDefaultInvertsNearAnEdge := by
  refine fun s c hs hg => ⟨fun ha => ⟨fun k hk ht hfirst => ?first, fun hnone => ?none⟩, fun ha => ?holds⟩
  case first =>
    have hread := readBit_default_done hg ha
    simp only [transitionNear_iff_of_first hk ht hfirst] at hread
    exact exec_done hs (returnsBit_done hread)
  case none =>
    have hread := readBit_default_done hg ha
    rw [if_neg (not_transitionNear hnone)] at hread
    exact exec_done hs (returnsBit_done hread)
  case holds =>
    have hshort : s.avail c ≤ s.pos c + classifierReach s := by rwa [classifierReach_default hg]
    exact exec_held hs (returnsBit_held (readBit_held_of_short s c hshort))

/-- Settles O11: the variant inverts exactly if the window holds a transition and the far sample is another level. -/
theorem rdbitVariantConfirmsTheEdge : Obligations.RdbitVariantConfirmsTheEdge := by
  refine fun s c hs hg => ⟨fun ha => ⟨fun ⟨k, hk, hle, ht⟩ hfar => ?confirmed, fun hnot => ?rejected⟩,
    fun ha => ?holds⟩
  case confirmed =>
    have hnear : TransitionNear s c (s.pos c) := ⟨k, by omega, hk, ht⟩
    have hread := readBit_confirm_done hg ha
    rw [if_pos ⟨hnear, hfar⟩] at hread
    exact exec_done hs (returnsBit_done hread)
  case rejected =>
    have hreject : ¬(TransitionNear s c (s.pos c) ∧ s.sample c (s.pos c + s.tol + 2) ≠ s.lvl c) :=
      fun ⟨hnear, hfar⟩ => hnot.elim (fun hnone => not_transitionNear hnone hnear) hfar
    have hread := readBit_confirm_done hg ha
    rw [if_neg hreject] at hread
    exact exec_done hs (returnsBit_done hread)
  case holds =>
    have hshort : s.avail c ≤ s.pos c + classifierReach s := by rwa [classifierReach_confirm hg]
    exact exec_held hs (returnsBit_held (readBit_held_of_short s c hshort))

end Sys2Proof.Machine

/-! ## One bit of each line taken (R178 to R182) -/

namespace Sys2Proof.Machine

/-- One bit of each line taken where the bit period's clock and samples are there: the markers at the positions read,
the bits shifted in, the period passed (R178 to R182). -/
theorem takeBits_done {push : Bit → Bit → State → State} {f : Bit → Bit → Assembler → Assembler} {s : State} {e : Nat}
    (hpush : ∀ bo bi t, push bo bi t = t.setAsm (f bo bi t.asm)) (hc : s.lvl .clock = s.sample .clock (s.pos .clock))
    (hp : ClockPeriod s (s.pos .clock) e) (hle : ∀ c, s.pos c ≤ e) (ha : ∀ c, e < s.avail c)
    (hi : e + s.tol < s.avail .dataIn) (ho : e + s.tol < s.avail .dataOut) (bo bi : Bit) :
    takeBits push bo bi s = .done () { s with
      cur := periodCursors s e
      asm := f bo bi s.asm
      pending := s.pending ++
        [.marker .dataIn (s.pos .dataIn) .bitSample, .marker .dataOut (s.pos .dataOut) .bitSample] } := by
  have hu : push bo bi (putBitMarkers s) = { s with
      asm := f bo bi s.asm
      pending := s.pending ++
        [.marker .dataIn (s.pos .dataIn) .bitSample, .marker .dataOut (s.pos .dataOut) .bitSample] } := by
    rw [hpush]
    simp [putBitMarkers, putMarker, State.setAsm, State.pend]
  rw [takeBits, hu]
  exact bitPeriod_done hc hp hle ha hi ho

/-- Settles O28: DBIT reads the two raw levels, which needs nothing, and takes them as its bits. -/
theorem dbitTakesOneRawBit : Obligations.DbitTakesOneRawBit := by
  intro s e hs hc hp hle ha hi ho
  have hread : payloadBit s = takeBits pushPayload (s.lvl .dataIn) (s.lvl .dataOut) s := rfl
  have htake := takeBits_done (push := pushPayload) (f := asmPayload) (fun _ _ _ => rfl) hc hp hle ha hi ho
    (s.lvl .dataIn) (s.lvl .dataOut)
  have hdone : contract .dbit s = _ := silent_eq_done.2 ⟨rfl, hread.trans htake⟩
  exact exec_done hs hdone

end Sys2Proof.Machine

/-! ## The cancellation check and the Link State's action (R155, R156, R160) -/

namespace Sys2Proof.Machine

theorem cancelCheck_of_request {s : State} (h : s.cancelReq = true) : cancelCheck s = cancelEntry s := if_pos h

theorem cancelCheck_of_no_request {s : State} (h : s.cancelReq = false) : cancelCheck s = s :=
  if_neg (Bool.eq_false_iff.1 h)

/-- Settles O13: CANCHK completes with its check's state, which a request alone makes another. -/
theorem canchkCancelsOnRequest : Obligations.CanchkCancelsOnRequest := by
  refine fun s hs => ⟨fun hc => ?cancels, fun hc => ?goesOn⟩
  case cancels => exact exec_done (t := cancelEntry s) hs (silent_eq_done.2 ⟨rfl, by rw [cancelCheck_of_request hc]⟩)
  case goesOn => exact exec_done hs (silent_eq_done.2 ⟨rfl, by rw [cancelCheck_of_no_request hc]⟩)

/-- Settles O20: INERT's contract completes with the state it is given. -/
theorem inertChangesNothing : Obligations.InertChangesNothing := fun _ hs =>
  exec_done hs (silent_eq_done.2 ⟨rfl, rfl⟩)

/-- A STEP in Running with no cancel requested is its Link State's action (R155). -/
theorem exec_step_of_no_request {s : State} (hs : s.status = .running) (hc : s.cancelReq = false) :
    exec .step s = exec (linkInstr s.link) s := by
  have hloop : loopIteration s = linkAction s := by
    rw [loopIteration_running hs, if_neg (Bool.eq_false_iff.1 hc)]
  have hheld : exec .step s = execHeld .step s := by
    change issueIn .running (silent loopIteration) s = issueIn .running (silent linkAction) s
    simp only [issueIn, silent, hloop]
  rw [hheld, execHeld_eq, heldInstr, if_pos rfl]

theorem linkInstr_placeholder {l : LinkState}
    (h : l = .clockSelectHold ∨ l = .coreBootHold ∨ l = .debugModeSet ∨ l = .coreReadyHold) :
    linkInstr l = .inert := by
  rcases h with rfl | rfl | rfl | rfl <;> rfl

/-- Settles O14: STEP is its CANCHK's cancel, or its Link State's action. -/
theorem stepRunsTheLinkAction : Obligations.StepRunsTheLinkAction := by
  refine fun s hs => ⟨exec_step_cancel hs, fun hc => ?_⟩
  rw [exec_step_of_no_request hs hc]
  exact ⟨fun hl => by rw [hl]; rfl, fun hl => by rw [hl]; rfl, fun hl => by rw [hl]; rfl,
    fun hl => by rw [linkInstr_placeholder hl]⟩

end Sys2Proof.Machine

/-! ## BOOT and CRDY (R157, R158, R165) -/

namespace Sys2Proof.Machine

/-! ### A cursor moved again -/

/-- Of two moves of one cursor the second alone is left. -/
@[simp] theorem State.place_place_same (s : State) (c : Role) (p q : Nat) : (s.place c p).place c q = s.place c q := by
  cases c <;> rfl

variable {s : State} {c : Role} {p q n : Nat}

/-- ADV from where an earlier move of the cursor left it (R117). -/
theorem advance_place_done (h : p + n < s.avail c) : advance c n (s.place c p) = .done () (s.place c (p + n)) := by
  simpa using advance_done (c := c) (n := n) (s := s.place c p) (by simpa using h)

/-- ADVE from where an earlier move of the cursor left it (R118). -/
theorem advanceToEdge_place_edgeAt (he : EdgeAt s c p q) (ha : q < s.avail c) :
    advanceToEdge c (s.place c p) = .done () (s.place c q) := by
  simpa using advanceToEdge_edgeAt (c := c) (s := s.place c p) (e := q) (by simp) (by simpa [EdgeAt] using he) ha

/-- RSYNC to a cursor that has moved up to `q` leaves all seven there, as if it had not moved before (R135). -/
theorem resync_place_done (hp : ∀ d, s.pos d ≤ q) (ha : ∀ d, q < s.avail d) :
    resync q (s.place c q) = .done () (s.placeAll q) := by
  refine resync_done (fun d => ?_) ha
  by_cases hd : d = c
  · rw [hd, State.place_pos_same]
  · rw [State.place_pos_other _ _ _ _ hd]
    exact hp d

/-! ### The two actions -/

/-- Everything BOOT does where no cursor is past the clock's first falling edge and its samples are there (R157). -/
theorem bootAction_done {f : Nat} (hc : s.lvl .clock = s.sample .clock (s.pos .clock))
    (hf : if s.lvl .clock = true then EdgeAt s .clock (s.pos .clock) f else ClockPeriod s (s.pos .clock) f)
    (hp : ∀ c, s.pos c ≤ f) (ha : ∀ c, f < s.avail c) :
    bootAction s = .done () ((s.placeAll f).setLink .coreReady) := by
  obtain ⟨m, hfirst, hfall⟩ : ∃ m, advanceToEdge .clock s = .done () (s.place .clock m) ∧
      (if (s.place .clock m).lvl .clock = true then advanceToEdge .clock (s.place .clock m)
        else .done () (s.place .clock m)) = .done () (s.place .clock f) := by
    split at hf
    case isTrue hhigh =>
      have hlow : (s.place .clock f).lvl .clock ≠ true := by
        rw [State.place_lvl_same, ← hhigh, hc]
        exact hf.2.1
      exact ⟨f, advanceToEdge_edgeAt hc hf (ha .clock), if_neg hlow⟩
    case isFalse hlow =>
      obtain ⟨m, hm, hrise, hfall⟩ := hf
      have hhigh : (s.place .clock m).lvl .clock = true := by
        rw [State.place_lvl_same, Bool.eq_not_of_ne hrise.2.1, ← hc, Bool.eq_false_iff.2 hlow]
        rfl
      exact ⟨m, advanceToEdge_edgeAt hc hrise (Nat.lt_trans hm (ha .clock)),
        (if_pos hhigh).trans (advanceToEdge_place_edgeAt hfall (ha .clock))⟩
  rw [bootAction, hfirst, Result.andThen_done, hfall, Result.andThen_done, State.place_pos_same,
    resync_place_done hp ha, Result.andThen_done]

/-- Settles O16: BOOT completes at the falling edge. -/
theorem bootFindsTheFirstFallingEdge : Obligations.BootFindsTheFirstFallingEdge := fun s f hs hc hf hp ha =>
  exec_done (t := (s.placeAll f).setLink .coreReady) hs (silent_eq_done.2 ⟨rfl, bootAction_done hc hf hp ha⟩)

/-- Everything CRDY does where no cursor is past the start bit and its samples are there (R158). -/
theorem alignAction_done {e t : Nat} (hc : s.lvl s.alignRole = s.sample s.alignRole (s.pos s.alignRole))
    (he : EdgeAt s s.alignRole (s.pos s.alignRole) e)
    (ht : if s.sample s.alignRole (e + s.params.deadInterval) = false then
      EdgeAt s s.alignRole (e + s.params.deadInterval) t else t = e + s.params.deadInterval)
    (hp : ∀ c, s.pos c ≤ t) (ha : ∀ c, t < s.avail c) :
    alignAction s = .done () (((putMarker s.alignRole t .captureStart s).placeAll t).setLink .packetStart) := by
  generalize hrole : s.alignRole = a at *
  obtain ⟨hdead, hstart⟩ : e + s.params.deadInterval ≤ t ∧
      (if stillLow (s.place a (e + s.params.deadInterval)) a = true then
        advanceToEdge a (s.place a (e + s.params.deadInterval))
        else .done () (s.place a (e + s.params.deadInterval))) = .done () (s.place a t) := by
    simp only [stillLow, State.place_lvl_same, beq_iff_eq]
    split at ht
    case isTrue hlow => exact ⟨Nat.le_of_lt ht.1, (if_pos hlow).trans (advanceToEdge_place_edgeAt ht (ha a))⟩
    case isFalse hhigh => exact ⟨Nat.le_of_eq ht.symm, by rw [if_neg hhigh, ← ht]⟩
  have havail : e + s.params.deadInterval < s.avail a := Nat.lt_of_le_of_lt hdead (ha a)
  have hmark : putMarker a t .captureStart (s.place a t) = (putMarker a t .captureStart s).place a t := rfl
  have hall : resync t ((putMarker a t .captureStart s).place a t) = _ := resync_place_done hp ha
  unfold alignAction
  simp only [hrole]
  rw [advanceToEdge_edgeAt hc he (Nat.lt_of_le_of_lt (Nat.le_add_right e _) havail), Result.andThen_done,
    State.place_params, advance_place_done havail, Result.andThen_done, hstart, Result.andThen_done,
    State.place_pos_same, hmark, hall, Result.andThen_done]

/-- Settles O17: CRDY completes at the start bit, with its marker in the log. -/
theorem crdyAlignsOnTheStartBit : Obligations.CrdyAlignsOnTheStartBit := fun s _ t hs hc he ht hp ha =>
  exec_done (t := ((putMarker s.alignRole t .captureStart s).placeAll t).setLink .packetStart) hs
    (silent_eq_done.2 ⟨rfl, alignAction_done hc he ht hp ha⟩)

end Sys2Proof.Machine

/-! ## What an issuer's answer tells of the contract (R17) -/

namespace Sys2Proof.Machine

variable {i : Instr} {s t : State}

theorem contract_of_completed {v : Option Value} (h : exec i s = .next t) (hr : t.resp = .completed v) :
    ∃ u, contract i s = .done v u ∧ t = u.answer (.completed v) := by
  rcases exec_cases h with ⟨-, rfl⟩ | ⟨-, ⟨w, u, hu, rfl⟩ | ⟨b, -, rfl⟩ | ⟨code, -, rfl⟩⟩ <;> cases hr
  exact ⟨u, hu, rfl⟩

theorem contract_of_held {b : Bool} (h : exec i s = .next t) (hr : t.resp = .held b) :
    contract i s = .held b ∧ t = s.answer (.held b) := by
  rcases exec_cases h with ⟨-, rfl⟩ | ⟨-, ⟨w, u, -, rfl⟩ | ⟨b', hb, rfl⟩ | ⟨code, -, rfl⟩⟩ <;> cases hr
  exact ⟨hb, rfl⟩

theorem contract_of_faulted (h : exec i s = .next t) (hr : t.resp = .faulted) :
    ∃ code, contract i s = .raised code ∧ t = (faultEntry code s).answer .faulted := by
  rcases exec_cases h with ⟨-, rfl⟩ | ⟨-, ⟨w, u, -, rfl⟩ | ⟨b, -, rfl⟩ | ⟨code, hc, rfl⟩⟩ <;> cases hr
  exact ⟨code, hc, rfl⟩

/-- Settles O18: CRDY's RSYNC brings every cursor to the aligned line's, and it comes to that only with the line high. -/
theorem crdyLeavesTheLineHigh : Obligations.CrdyLeavesTheLineHigh := by
  intro s t h hr
  obtain ⟨u, hu, rfl⟩ := contract_of_completed h hr
  obtain ⟨q, hq, -, -, hhigh, rfl⟩ := alignAction_eq_done (silent_eq_done.1 hu).2
  have hpos : ∀ d, ((putMarker s.alignRole q .captureStart s).placeAll q).pos d = q :=
    fun d => State.placeAll_pos _ d q
  exact ⟨(State.placeAll_lvl _ _ q).trans hhigh, Nat.lt_of_lt_of_eq hq (hpos _).symm,
    fun c => (hpos c).trans (hpos _).symm⟩

end Sys2Proof.Machine

/-! ## PSTART and STEP (R155, R159, R175, R220) -/

namespace Sys2Proof.Machine

/-- A target that is not ready is skipped (R159, R220). -/
theorem packetAction_skips {s : State} (h : s.lvl .dataOut = true) :
    packetAction s = .done () (s.setLink .coreReady) := by
  simp [packetAction, targetReady, h]

/-- A ready target's packet is one capture cycle (R159, R175). -/
theorem packetAction_captures {s : State} (h : s.lvl .dataOut = false) :
    packetAction s = (captureCycle s).andThen fun _ t => .done () (t.setLink .coreReady) := by
  simp [packetAction, targetReady, h]

theorem exec_pstart_skips {s : State} (hs : s.status = .running) (h : s.lvl .dataOut = true) :
    exec .pstart s = .next ((s.setLink .coreReady).answer (.completed none)) :=
  exec_done hs (silent_eq_done.2 ⟨rfl, packetAction_skips h⟩)

theorem exec_pstart_captures {s t : State} (hs : s.status = .running) (h : s.lvl .dataOut = false)
    (hc : captureCycle s = .done () t) :
    exec .pstart s = .next ((t.setLink .coreReady).answer (.completed none)) :=
  exec_done hs (silent_eq_done.2 ⟨rfl, by rw [packetAction_captures h, hc, Result.andThen_done]⟩)

/-- Settles O19: past the test of the line PSTART is its capture cycle, so the cycle's answer is PSTART's. -/
theorem pstartCapturesOrSkips : Obligations.PstartCapturesOrSkips := by
  refine fun s hs => ⟨exec_pstart_skips hs, fun hl =>
    ⟨fun t h hr => ?completes, fun t b h hr => ?holds, fun t h hr => ?faults⟩⟩
  case completes =>
    obtain ⟨u, hu, rfl⟩ := contract_of_completed h hr
    exact exec_pstart_captures hs hl (silent_eq_done.1 hu).2
  case holds =>
    obtain ⟨hb, rfl⟩ := contract_of_held h hr
    exact exec_held hs (silent_eq_held.2 (by rw [packetAction_captures hl, silent_eq_held.1 hb, Result.andThen_held]))
  case faults =>
    obtain ⟨code, hraise, -⟩ := contract_of_faulted h hr
    have hcycle := silent_eq_raised.1 hraise
    have hcode : code = .streamPositionViolation := cursorOp_captureCycle.raises s code hcycle
    rw [hcode] at hcycle
    exact faultTaken_of_raised hs
      (silent_eq_raised.2 (by rw [packetAction_captures hl, hcycle, Result.andThen_raised]))

/-- Settles O24: a ready PSTART is its capture cycle, which captures the frame. -/
theorem pstartCapturesTheFrame : Obligations.PstartCapturesTheFrame := fun _ _ _ hr hs hl hmc hck hp =>
  exec_pstart_captures hr hl (captureCycle_done hs hmc hck hp)

/-- Settles O15: STEP is BOOT, PSTART or INERT there, and each of them completes. -/
theorem stepCompletes : Obligations.StepCompletes := by
  intro s hs hc
  obtain ⟨-, hrun⟩ := stepRunsTheLinkAction s hs
  obtain ⟨hboot, -, hpacket, hplace⟩ := hrun hc
  refine ⟨fun f hl hhigh hsample he hp ha => ?boot, fun hl hhigh => ?packetStart, fun hl => ?placeholder⟩
  case boot =>
    rw [hboot hl]
    exact bootFindsTheFirstFallingEdge s f hs (hhigh.trans hsample.symm) (by rwa [if_pos hhigh]) hp ha
  case packetStart =>
    rw [hpacket hl]
    exact exec_pstart_skips hs hhigh
  case placeholder =>
    rw [hplace hl]
    exact inertChangesNothing s hs

end Sys2Proof.Machine

/-! ## The assembler's other operations (R178, R179, R181, R183) -/

namespace Sys2Proof.Machine

/-- Settles O29: PERIOD's contract resynchronises at the clock's second edge, which a cursor beyond it forbids. -/
theorem periodAdvancesOneBitPeriod : Obligations.PeriodAdvancesOneBitPeriod := by
  refine fun s e hs hc hp hclk => ⟨fun hle ha hi ho => ?advances, fun ⟨c, hpast⟩ => ?faults⟩
  case advances =>
    exact exec_done (t := { s with cur := periodCursors s e }) hs
      (silent_eq_done.2 ⟨rfl, bitPeriod_done hc hp hle ha hi ho⟩)
  case faults => exact faultTaken_of_raised hs (silent_eq_raised.2 (bitPeriod_raised hc hp hclk hpast))

/-- Both lines are classified before either cursor moves, so that PBIT with both windows produced takes the two bits
classified at its own cursors (R178). -/
theorem preambleBit_classified {s : State} (hs : s.Consistent)
    (hwi : s.pos .dataIn + classifierReach s < s.avail .dataIn)
    (hwo : s.pos .dataOut + classifierReach s < s.avail .dataOut) :
    preambleBit s = takeBits pushPreamble (classifiedAt s .dataIn (s.pos .dataIn))
      (classifiedAt s .dataOut (s.pos .dataOut)) s := by
  rw [preambleBit, readBit_classified s .dataIn (hs .dataIn) hwi, Result.andThen_done,
    readBit_classified s .dataOut (hs .dataOut) hwo, Result.andThen_done]

/-- Settles O27: PBIT classifies both lines, and takes what it classified as its bits. -/
theorem pbitTakesOneClassifiedBit : Obligations.PbitTakesOneClassifiedBit := by
  intro s e hs hc hwi hwo hp hle ha hi ho
  have htake := takeBits_done (push := pushPreamble) (f := asmPreamble) (fun _ _ _ => rfl) (hc .clock) hp hle ha hi ho
    (classifiedAt s .dataIn (s.pos .dataIn)) (classifiedAt s .dataOut (s.pos .dataOut))
  have hdone : contract .pbit s = _ := silent_eq_done.2 ⟨rfl, (preambleBit_classified hc hwi hwo).trans htake⟩
  exact exec_done hs hdone

/-- Length selection as a number of bits (R87). -/
theorem selectLen_bits (mc : BitVec 3) : (selectLen mc).bits = if mc.getLsbD 1 = true then 7 else 32 :=
  apply_ite PayloadLen.bits _ _ _

/-- Settles O31: LENSEL writes the length that its mode bit selects. -/
theorem lenselReadsTheModeBit : Obligations.LenselReadsTheModeBit := by
  refine fun s hs => ⟨?word, selectLen s.asm.mc, ?completes, fun hset => ?seven, fun hclear => ?thirtyTwo⟩
  case word => exact decodeWord_of_encode rfl rfl
  case completes => exact exec_done (t := lengthSelect s) hs (silent_eq_done.2 ⟨rfl, rfl⟩)
  case seven => rw [selectLen_bits, if_pos hset]
  case thirtyTwo => rw [selectLen_bits, if_neg (Bool.eq_false_iff.1 hclear)]

/-- Settles O32: EMIT's contract completes with its batch committed. -/
theorem emitCommitsTheBatch : Obligations.EmitCommitsTheBatch := by
  intro s hs
  have hdone : contract .emit s = .done none (emitBatch s) := rfl
  rw [exec_done hs hdone, emitBatch_eq]
  rfl

end Sys2Proof.Machine

/-! ## CFGCHK (R211, R236) -/

namespace Sys2Proof.Machine

/-- The tests of a bad configuration, as the rule states them (R211). -/
theorem configInvalid_iff (r : ConfigRegs) :
    configInvalid r = true ↔ r.sampleRate = 0 ∨ r.bitRate = 0 ∨ r.sampleRate < 4 * r.bitRate := by
  simp only [configInvalid, Bool.or_eq_true, beq_iff_eq, decide_eq_true_eq, or_assoc]

/-- The window is the override, with the derived one as its default (R12, R236). -/
theorem sessionTol_eq (r : ConfigRegs) : sessionTol r = r.tolOverride.getD (Config.deriveT r.sampleRate r.bitRate) := by
  unfold sessionTol
  cases r.tolOverride <;> rfl

theorem needAll_held {i : Nat} {s : State} {c : Role} (h : s.avail c ≤ i) : ∃ b, needAll i s = .held b := by
  rcases needAll_cases i s with ⟨ha, -⟩ | ⟨_, -, b, hb, -⟩
  · exact absurd h (Nat.not_le.2 (ha c))
  · exact ⟨b, hb⟩

theorem checkConfig_held {s : State} {c : Role} (hc : configInvalid s.cfg = false)
    (ha : s.avail c ≤ s.params.startPos) : ∃ b, checkConfig s = .held b := by
  obtain ⟨b, hb⟩ := needAll_held ha
  exact ⟨b, by rw [checkConfig, if_neg (Bool.eq_false_iff.1 hc), hb, Result.andThen_held]⟩

/-- Settles O12: CFGCHK's contract tests the configuration before it needs the seven samples, and with both in order it
starts the session. -/
theorem cfgchkStartsOrRejectsTheSession : Obligations.CfgchkStartsOrRejectsTheSession := by
  refine fun s hs => ⟨fun hbad => ?rejects, fun hsr hbr hle => ?accepts⟩
  case rejects =>
    exact faultTaken_of_raised hs (silent_eq_raised.2 (checkConfig_raised ((configInvalid_iff s.cfg).2 hbad)))
  case accepts =>
    have hgood : configInvalid s.cfg = false := by
      rw [Bool.eq_false_iff, ne_eq, configInvalid_iff, not_or, not_or]
      exact ⟨hsr, hbr, Nat.not_lt.2 hle⟩
    refine ⟨fun ha => ?starts, fun ⟨c, hc⟩ => ?holds⟩
    case starts =>
      rw [← sessionTol_eq]
      exact exec_done (t := startSession s) hs (silent_eq_done.2 ⟨rfl, checkConfig_done hgood ha⟩)
    case holds =>
      obtain ⟨b, hb⟩ := checkConfig_held hgood hc
      exact ⟨b, exec_held hs (silent_eq_held.2 hb)⟩

end Sys2Proof.Machine

/-! ## Faults: what one writes, and what raises it (R210, R218, R223) -/

namespace Sys2Proof.Machine

/-- Settles O38: a fault's state is fault entry on the state before the operation, and a contract raises no fault without
a code. -/
theorem faultEntryIsTeardown : Obligations.FaultEntryIsTeardown := by
  intro i s t h hr
  obtain ⟨code, hc, rfl⟩ := contract_of_faulted h hr
  exact ⟨rfl, contract_raised_ne_none hc, rfl, rfl⟩

/-! ### The operations that never fault -/

theorem returnsBit_eq_raised {op : State → Result Bit} {s : State} {code : FaultCode} :
    returnsBit op s = .raised code ↔ op s = .raised code := by
  rw [returnsBit, Result.andThen_eq_raised]
  simp only [reduceCtorEq, and_false, exists_false, or_false]

theorem advance_ne_raised (c : Role) (n : Nat) (s : State) (code : FaultCode) : advance c n s ≠ .raised code := by
  rcases advance_cases c n s with ⟨-, h⟩ | ⟨-, h⟩ <;> rw [h] <;> nofun

theorem advanceToEdge_ne_raised (c : Role) (s : State) (code : FaultCode) : advanceToEdge c s ≠ .raised code := by
  rcases advanceToEdge_cases c s with ⟨_, -, -, -, -, h⟩ | ⟨-, h⟩ <;> rw [h] <;> nofun

theorem wouldTransition_ne_raised (c : Role) (n : Nat) (s : State) (code : FaultCode) :
    wouldTransition c n s ≠ .raised code := by
  rcases wouldTransition_cases c n s with ⟨-, h⟩ | ⟨-, -, h⟩ <;> rw [h] <;> nofun

theorem readBit_ne_raised (c : Role) (s : State) (code : FaultCode) : readBit c s ≠ .raised code := by
  rcases readBit_cases c s with ⟨_, h⟩ | h <;> rw [h] <;> nofun

/-- Outside the three groups of R210 a contract only reads, moves a cursor forward by its own stream, or always
completes, and none of that can fault. -/
theorem contract_ne_raised {i : Instr} (hc : i ≠ .cfgchk) (hr : isReserved i = false) (hm : movesToPosition i = false)
    (s : State) (code : FaultCode) : contract i s ≠ .raised code := by
  have hout : (isReserved i || movesToPosition i) = false := by rw [hr, hm, Bool.or_false]
  cases i
  case adv c n => exact mt silent_eq_raised.1 (advance_ne_raised c n s code)
  case adve c => exact mt silent_eq_raised.1 (advanceToEdge_ne_raised c s code)
  case wtw c n => exact mt returnsBit_eq_raised.1 (wouldTransition_ne_raised c n s code)
  case rdbit c => exact mt returnsBit_eq_raised.1 (readBit_ne_raised c s code)
  case cfgchk => exact absurd rfl hc
  case lvl | pos | canchk | inert | lensel | emit | marker | frame | outViewInView | commit => nofun
  all_goals cases hout

/-- Which contract raises which fault (R210). -/
theorem contract_eq_raised {i : Instr} {s : State} {code : FaultCode} (h : contract i s = .raised code) :
    (code = .configurationError ∧ i = .cfgchk) ∨ (code = .streamPositionViolation ∧ movesToPosition i = true) ∨
      (code = .illegalOperation ∧ isReserved i = true) := by
  by_cases hc : i = .cfgchk
  · subst hc
    exact .inl ⟨checkConfig_eq_raised (silent_eq_raised.1 h), rfl⟩
  · cases hr : isReserved i with
    | true =>
      rw [contract_of_isReserved hr] at h
      exact .inr (.inr ⟨(Result.raised.inj h).symm, rfl⟩)
    | false =>
      refine .inr (.inl ⟨(contract_cursorOp hc hr).raises s code h, ?_⟩)
      by_contra hm
      exact contract_ne_raised hc hr (Bool.eq_false_iff.2 hm) s code h

/-- Settles O39: the code of a faulted answer is the one that the instruction's contract raised. -/
theorem eachFaultHasItsCause : Obligations.EachFaultHasItsCause := by
  intro i s t h hr
  obtain ⟨code, hc, rfl⟩ := contract_of_faulted h hr
  exact contract_eq_raised hc

end Sys2Proof.Machine

/-! ## The sequencer and a new session (R235, R238 to R240, R247) -/

namespace Sys2Proof.Machine

/-- With nothing in flight and the port empty, the block's move is the first attempt at the sequencer's operation
(R239). -/
theorem blockMove_sequencerOp {s : State} {i : Instr} (hf : s.inFlight = none) (hp : s.port = [])
    (hi : sequencerOp s = some i) : blockMove s = attempt i s := by
  simp only [blockMove, hf, hp, hi]

theorem blockIdle_of_sequencerOp {s : State} {i : Instr} (h : sequencerOp s = some i) : blockIdle s = false := by
  simp [blockIdle, h]

/-- With nothing in flight, at the port or from the sequencer, the block's turn passes, and no turn ends the run
(R240). -/
theorem step_of_no_operation {s : State} {ts : List Turn} (hts : BlockTurn s ts) (hp : s.port = [])
    (hf : s.inFlight = none) (hi : sequencerOp s = none) :
    step s = if s.turns = [] then .refused .sessionEnded else .next { s with turns := ts } := by
  rcases hts with hrun | ⟨hnil, rfl⟩
  · have hidle : blockIdle s = true := by simp [blockIdle, hf, hp, hi]
    simp only [step, machineMove, hrun, hidle, if_true, reduceCtorEq, if_false]
  · simp only [step, machineMove, hnil, blockMove, hf, hp, hi, if_true]

/-- Settles O55: the sequencer's operation is CFGCHK in Init, STEP in Running, and none after the end. -/
theorem sequencerIssuesCfgchkThenStep : Obligations.SequencerIssuesCfgchkThenStep := by
  intro s ts hts hp hf
  have hissues : ∀ i, sequencerOp s = some i →
      ∃ t, exec i { s with turns := ts } = .next t ∧ step s = .next (keepIfHeld i t) := by
    intro i hi
    rw [step_block hts (blockIdle_of_sequencerOp hi), blockMove_sequencerOp (s := { s with turns := ts }) hf hp hi]
    exact attempt_eq i _
  refine ⟨fun hs => ?init, fun hs => ?running, fun hs => ?ended⟩
  case init =>
    obtain ⟨t, ht, hstep⟩ := hissues .cfgchk (by rw [sequencerOp, hs])
    exact ⟨t, ht, hstep.trans (congrArg Host.Outcome.next (keepIfHeld_eq .cfgchk t))⟩
  case running =>
    obtain ⟨t, ht, hstep⟩ := hissues .step (by rw [sequencerOp, hs])
    exact ⟨t, ht, hstep.trans (congrArg Host.Outcome.next (keepIfHeld_eq .step t))⟩
  case ended =>
    refine step_of_no_operation hts hp hf ?_
    rcases hs with hs | hs <;> rw [sequencerOp, hs]

/-- What a new session keeps is all that it is made from (R247, log entry 16). -/
theorem freshSession_congr {s t : State} (hm : t.streams = s.streams) (hp : t.params = s.params)
    (ht : t.turns = s.turns) (hd : t.draws = s.draws) : freshSession t = freshSession s := by
  rw [freshSession, freshSession, hm, hp, ht, hd]

/-- Settles O60: a new session's turn is a fresh session, which is made from what it keeps alone. -/
theorem newSessionForgetsTheRun : Obligations.NewSessionForgetsTheRun := by
  intro s ts hts
  have hfresh : ∀ s' : State, s'.turns = .newSession :: ts →
      step s' = .next (freshSession { s' with turns := ts }) := fun _ => step_hostTurn (by simp)
  refine ⟨⟨_, hfresh s hts, rfl, rfl, rfl, rfl, rfl, rfl, rfl, rfl, rfl, rfl⟩, fun s' ht hm hp hd => ?_⟩
  rw [hfresh s hts, hfresh s' (ht.trans hts)]
  exact congrArg Host.Outcome.next (freshSession_congr hm hp rfl hd)

end Sys2Proof.Machine

/-! ## When PERIOD faults (R179, R241) -/

namespace Sys2Proof.Machine

variable {s : State} {e : Nat} {code : FaultCode}

theorem resync_eq_raised {q : Nat} (h : resync q s = .raised code) : ∃ c, q < s.pos c := by
  rcases resync_cases q s with ⟨hpast, -⟩ | ⟨-, -, g⟩ | ⟨-, _, -, _, g, -⟩
  · exact hpast
  all_goals cases g.symm.trans h

/-- PERIOD past its clock's two edges: the resynchronisation at the second of them, and the nudges (R179). -/
theorem bitPeriod_of_clockPeriod (hc : s.lvl .clock = s.sample .clock (s.pos .clock))
    (hp : ClockPeriod s (s.pos .clock) e) (ha : e < s.avail .clock) :
    bitPeriod s = (resync e (s.place .clock e)).andThen fun _ u =>
      (advance .dataIn u.tol u).andThen fun _ v => advance .dataOut v.tol v := by
  obtain ⟨m, hm, hfirst, hsecond⟩ := hp
  rw [bitPeriod, advanceToEdge_edgeAt hc hfirst (Nat.lt_trans hm ha), Result.andThen_done,
    advanceToEdge_place_edgeAt hsecond ha, Result.andThen_done, State.place_pos_same]

/-- Of PERIOD's parts past the clock's edges only the resynchronisation faults, and a cursor beyond the second edge is
what faults it (R135, R179). -/
theorem exists_past_of_bitPeriod_raised (hc : s.lvl .clock = s.sample .clock (s.pos .clock))
    (hp : ClockPeriod s (s.pos .clock) e) (ha : e < s.avail .clock) (hr : bitPeriod s = .raised code) :
    ∃ c, e < s.pos c := by
  rw [bitPeriod_of_clockPeriod hc hp ha] at hr
  rcases Result.andThen_eq_raised.1 hr with hsync | ⟨_, u, -, hnudge⟩
  · obtain ⟨c, hpast⟩ := resync_eq_raised hsync
    have hne : c ≠ .clock := by
      rintro rfl
      simp at hpast
    rw [State.place_pos_other _ _ _ _ hne] at hpast
    exact ⟨c, hpast⟩
  · rcases Result.andThen_eq_raised.1 hnudge with hin | ⟨_, v, -, hout⟩
    · exact absurd hin (advance_ne_raised _ _ _ _)
    · exact absurd hout (advance_ne_raised _ _ _ _)

/-- With the data cursors `T` beyond the clock and the others at it, a cursor is past a later position exactly when the
position is fewer than `T` samples on (R241). -/
theorem exists_past_iff_lt_tol (hi : s.pos .dataIn = s.pos .clock + s.tol)
    (ho : s.pos .dataOut = s.pos .clock + s.tol)
    (hrest : ∀ c, c ≠ .dataIn → c ≠ .dataOut → s.pos c = s.pos .clock) (hlt : s.pos .clock < e) :
    (∃ c, e < s.pos c) ↔ e - s.pos .clock < s.tol := by
  constructor
  · rintro ⟨c, hpast⟩
    by_cases hdata : c = .dataIn ∨ c = .dataOut
    · rcases hdata with rfl | rfl <;> omega
    · obtain ⟨hni, hno⟩ := not_or.1 hdata
      rw [hrest c hni hno] at hpast
      omega
  · intro hshort
    exact ⟨.dataIn, by omega⟩

/-- Settles O30: PERIOD's fault is a cursor past the clock's second edge, which is a period of fewer than `T` samples. -/
theorem periodFaultsExactlyWhenTooShort : Obligations.PeriodFaultsExactlyWhenTooShort := by
  intro s t e hs hc hi ho hrest hp hclk h
  have hlt : s.pos .clock < e := by
    obtain ⟨m, hm, hfirst, -⟩ := hp
    exact Nat.lt_trans hfirst.1 hm
  rw [← exists_past_iff_lt_tol hi ho hrest hlt]
  constructor
  · intro hr
    obtain ⟨code, hraise, -⟩ := contract_of_faulted h hr
    exact exists_past_of_bitPeriod_raised hc hp hclk (silent_eq_raised.1 hraise)
  · intro hpast
    obtain ⟨-, hfaults⟩ := periodAdvancesOneBitPeriod s e hs hc hp hclk
    obtain ⟨u, hu, hfaulted⟩ := hfaults hpast
    cases h.symm.trans hu
    rw [hfaulted]

end Sys2Proof.Machine
